-- ==== Sys2Proof/Word.lean ====
section
/-! DEFINITION. The two fixed bit-vector widths of the block: the byte of BUF and the 32-bit
register (00_scope.md R4 "Register width", R5; 20_memory.md R70). -/

namespace Sys2Proof

/-- A byte of BUF, of the palette or of a stream. -/
abbrev Byte := BitVec 8

/-- The contents of a 32-bit register (R22). -/
abbrev Word := BitVec 32

end Sys2Proof
end

