-- ==== Sys2Proof/Syntax.lean ====
section
/-! DEFINITION. The syntax of the block: its 23 commands (30_encoding.md R101, R102), the names of
its registers (10_state.md R23), and what the host and the platform can do to it (20_memory.md
R71 to R73, 30_encoding.md R109, R110). -/

namespace Sys2Proof

/-- The colour of an MH run (41_huffman_mh.md R151). -/
inductive Colour where
  | white
  | black
deriving DecidableEq, Repr, Inhabited

/-- The commands, one constructor per row of the opcode table. A flag of `MODE` is an argument
(R102), so no term of this type has a `MODE` bit its opcode does not name. -/
inductive Instr where
  | nop
  | mhRows (byteOut align : Bool)
  | mhRun (colour : Colour)
  | mhCode (colour : Colour)
  | lzwDecode
  | packbits
  | byterun1
  | palmRle
  | pngUnfilter (first : Bool)
  | pngNone (first : Bool)
  | pngSub (first : Bool)
  | pngUp (first : Bool)
  | pngAvg (first : Bool)
  | pngPaeth (first : Bool)
  | adam7Geom
  | adam7Scatter
  | cmykToRgb (planar : Bool)
  | palWrite
  | palRead
  | palLookup
  | palLoad
  | palAttach
  | palReset
deriving DecidableEq, Repr, Inhabited

/-- The registers of the map R23, by name. -/
inductive Reg where
  | id | memsize | ctrl | status | cmd
  | srcAddr | srcLen | inBit | dstAddr | dstLen | dstStride | prvAddr
  | width | height | rows | param | arg | palCfg
  | result0 | result1 | result2 | result3 | outCount | progDone | progTotal
  | errPos | errRow | errCol | errValue
deriving DecidableEq, Repr, Inhabited

/-- The widths of a host access. R72 and R73 name 8, 16 and 32 bits and refuse every other width;
that no other width reaches the port is a DESIGN CHOICE (safe, log entry 17), since the spec states
no width of the host bus. -/
inductive AccessWidth where
  | w8 | w16 | w32
deriving DecidableEq, Repr, Inhabited

/-- Whether a host access reads, or writes the given data; a narrow write uses the low bits. -/
inductive AccessKind where
  | read
  | write (data : Word)
deriving DecidableEq, Repr, Inhabited

/-- One host access at a bus address (R71: the block's offset is relative to `FCDB_BASE`). -/
structure Access where
  width : AccessWidth
  addr : Word
  kind : AccessKind
deriving DecidableEq, Repr, Inhabited

/-- What may happen next at the block: an access of the host, its `WAIT` loop (R110), the
platform's reset input (R330), or nothing from outside, so that the engine moves (R20, R339). -/
inductive HostEvent where
  | access (a : Access)
  | poll
  | hardReset
  | engine
deriving DecidableEq, Repr, Inhabited

end Sys2Proof
end

