-- ==== Sys2Proof/Config.lean ====
section
/-! DEFINITION. What a build of the block fixes (00_scope.md R4, the OPEN parameters of
92_eei_decisions.md) and the free values: constants with no body, one for each thing the spec
leaves unspecified (93_implementation_defined.md U1 to U4) or states no value for (log entries 9
and 18). -/

namespace Sys2Proof

/-- The kind of an MH code (R151). -/
inductive MhKind where
  | term
  | makeup
deriving DecidableEq, Repr, Inhabited

/-- One entry of an MH code table (R151): the code word is `code`, read as an unsigned number
whose first-read bit is the most significant of its `len` bits, and stands for `run` pixels. -/
structure MhEntry where
  len : Nat
  code : Nat
  run : Nat
  kind : MhKind
deriving DecidableEq, Repr, Inhabited

/-- What a make-up code after a make-up code means (R156). -/
inductive MakeupChain where
  | error
  | accumulate
deriving DecidableEq, Repr, Inhabited

/-- The CMYK conversion formula (R256). -/
inductive CmykFormula where
  | subClamp
  | mult
deriving DecidableEq, Repr, Inhabited

/-- The parameters of a build. They stand in `State` as one field that no step writes, so that a
statement about every state speaks of every build (R4: an OPEN parameter is an argument of the
model). -/
structure Config where
  /-- `MEM_SIZE`, the number of bytes of BUF -/
  memSize : Nat
  /-- `FCDB_BASE`, where the platform puts the block on its bus -/
  base : Word
  /-- `MH_TABLE` for white, without the extended make-up codes -/
  mhWhite : List MhEntry
  /-- `MH_TABLE` for black, without the extended make-up codes -/
  mhBlack : List MhEntry
  /-- `MH_EXT_MAKEUP`: the extended make-up codes of R153 are present -/
  mhExtMakeup : Bool
  /-- `MH_MAKEUP_CHAIN` -/
  makeupChain : MakeupChain
  /-- `CMYK_FORMULA` -/
  cmykFormula : CmykFormula
deriving DecidableEq, Repr, Inhabited

/-- A palette entry or pixel: red, green, blue (R46, R266). -/
structure Rgb where
  r : Byte
  g : Byte
  b : Byte
deriving DecidableEq, Repr, Inhabited

/-- The causes of an error completion with a code of R301. Code 1, `FORMAT_MISMATCH`, is reserved
and never raised; 8 to 15 are not produced. -/
inductive ErrorKind where
  | invalidStructure
  | unsupported
  | missingParameter
  | illegalCommand
  | addressFault
  | paletteLocked
deriving DecidableEq, Repr, Inhabited

/-- The three completions of a command (R125, R126, R302). -/
inductive Completion where
  | success
  | aborted
  | error (kind : ErrorKind)
deriving DecidableEq, Repr, Inhabited

/-- Everything R334 leaves unspecified about one engine step of a command whose window the host
has written. -/
structure HazardDraw where
  /-- the command goes on to its next unit, where it has one -/
  goesOn : Bool
  completion : Completion
  srcAddr : Word
  srcLen : Word
  inBit : BitVec 3
  result0 : Word
  result1 : Word
  result2 : Word
  result3 : Word
  outCount : Word
  progDone : Word
  /-- validation had set `PROG_TOTAL` before the completion -/
  totalSet : Bool
  errPos : Word
  errRow : Word
  errCol : Word
  errValue : Word
deriving DecidableEq, Repr, Inhabited

/-- A byte the spec leaves unspecified, at a BUF address in an epoch: a byte that nothing has
written since reset (R82, U1), or a byte of a failing unit's output region (R136, U3). The epoch
is a counter of the state that grows with every step that may draw, so the draws of different
steps are independent. -/
opaque Config.freeByte (epoch addr : Nat) : Byte

/-- A palette entry that nothing has written since the hardware reset of this generation (R46,
R330, U2): fixed until it is written. -/
opaque Config.freeRgb (generation index : Nat) : Rgb

/-- A palette entry written by a command whose window the host has written (R334, U4). -/
opaque Config.hazardRgb (epoch index : Nat) : Rgb

/-- What a step of a command is like whose window the host has written (R334, U4). -/
opaque Config.hazardDraw (epoch : Nat) : HazardDraw

/-- What a 32-bit register holds when the value the rules compute for it is 2^32 or more. R141
says that this does not happen; the spec gives no value where it does (log entry 9). -/
opaque Config.wideValue (value : Nat) : Word

/-- `ERR_COL` when the input of a `PNG_UNFILTER` row ends at its filter type byte: R139 leaves the
column to the family rule, and R231 names one for the data bytes only (log entry 18). -/
opaque Config.typeByteCol (epoch : Nat) : Word

end Sys2Proof
end

