-- ==== Sys2Proof/Machine/Params.lean ====
section
/-! DEFINITION. The default parameters of the block (00_scope.md R4): the ITU-T T.4 Modified
Huffman tables of 41_huffman_mh.md R152 and R153, and the other defaults. A code is written as in
the spec's table, first-read bit on the left. -/

namespace Sys2Proof.Machine

/-- White terminating codes, runs 0 to 15 (R152). -/
def whiteTerm0 : List MhEntry :=
  [⟨8, 0b00110101, 0, .term⟩,
   ⟨6, 0b000111, 1, .term⟩,
   ⟨4, 0b0111, 2, .term⟩,
   ⟨4, 0b1000, 3, .term⟩,
   ⟨4, 0b1011, 4, .term⟩,
   ⟨4, 0b1100, 5, .term⟩,
   ⟨4, 0b1110, 6, .term⟩,
   ⟨4, 0b1111, 7, .term⟩,
   ⟨5, 0b10011, 8, .term⟩,
   ⟨5, 0b10100, 9, .term⟩,
   ⟨5, 0b00111, 10, .term⟩,
   ⟨5, 0b01000, 11, .term⟩,
   ⟨6, 0b001000, 12, .term⟩,
   ⟨6, 0b000011, 13, .term⟩,
   ⟨6, 0b110100, 14, .term⟩,
   ⟨6, 0b110101, 15, .term⟩]

/-- White terminating codes, runs 16 to 31 (R152). -/
def whiteTerm16 : List MhEntry :=
  [⟨6, 0b101010, 16, .term⟩,
   ⟨6, 0b101011, 17, .term⟩,
   ⟨7, 0b0100111, 18, .term⟩,
   ⟨7, 0b0001100, 19, .term⟩,
   ⟨7, 0b0001000, 20, .term⟩,
   ⟨7, 0b0010111, 21, .term⟩,
   ⟨7, 0b0000011, 22, .term⟩,
   ⟨7, 0b0000100, 23, .term⟩,
   ⟨7, 0b0101000, 24, .term⟩,
   ⟨7, 0b0101011, 25, .term⟩,
   ⟨7, 0b0010011, 26, .term⟩,
   ⟨7, 0b0100100, 27, .term⟩,
   ⟨7, 0b0011000, 28, .term⟩,
   ⟨8, 0b00000010, 29, .term⟩,
   ⟨8, 0b00000011, 30, .term⟩,
   ⟨8, 0b00011010, 31, .term⟩]

/-- White terminating codes, runs 32 to 47 (R152). -/
def whiteTerm32 : List MhEntry :=
  [⟨8, 0b00011011, 32, .term⟩,
   ⟨8, 0b00010010, 33, .term⟩,
   ⟨8, 0b00010011, 34, .term⟩,
   ⟨8, 0b00010100, 35, .term⟩,
   ⟨8, 0b00010101, 36, .term⟩,
   ⟨8, 0b00010110, 37, .term⟩,
   ⟨8, 0b00010111, 38, .term⟩,
   ⟨8, 0b00101000, 39, .term⟩,
   ⟨8, 0b00101001, 40, .term⟩,
   ⟨8, 0b00101010, 41, .term⟩,
   ⟨8, 0b00101011, 42, .term⟩,
   ⟨8, 0b00101100, 43, .term⟩,
   ⟨8, 0b00101101, 44, .term⟩,
   ⟨8, 0b00000100, 45, .term⟩,
   ⟨8, 0b00000101, 46, .term⟩,
   ⟨8, 0b00001010, 47, .term⟩]

/-- White terminating codes, runs 48 to 63 (R152). -/
def whiteTerm48 : List MhEntry :=
  [⟨8, 0b00001011, 48, .term⟩,
   ⟨8, 0b01010010, 49, .term⟩,
   ⟨8, 0b01010011, 50, .term⟩,
   ⟨8, 0b01010100, 51, .term⟩,
   ⟨8, 0b01010101, 52, .term⟩,
   ⟨8, 0b00100100, 53, .term⟩,
   ⟨8, 0b00100101, 54, .term⟩,
   ⟨8, 0b01011000, 55, .term⟩,
   ⟨8, 0b01011001, 56, .term⟩,
   ⟨8, 0b01011010, 57, .term⟩,
   ⟨8, 0b01011011, 58, .term⟩,
   ⟨8, 0b01001010, 59, .term⟩,
   ⟨8, 0b01001011, 60, .term⟩,
   ⟨8, 0b00110010, 61, .term⟩,
   ⟨8, 0b00110011, 62, .term⟩,
   ⟨8, 0b00110100, 63, .term⟩]

/-- White make-up codes, runs 64 to 1024 (R152). -/
def whiteMakeup64 : List MhEntry :=
  [⟨5, 0b11011, 64, .makeup⟩,
   ⟨5, 0b10010, 128, .makeup⟩,
   ⟨6, 0b010111, 192, .makeup⟩,
   ⟨7, 0b0110111, 256, .makeup⟩,
   ⟨8, 0b00110110, 320, .makeup⟩,
   ⟨8, 0b00110111, 384, .makeup⟩,
   ⟨8, 0b01100100, 448, .makeup⟩,
   ⟨8, 0b01100101, 512, .makeup⟩,
   ⟨8, 0b01101000, 576, .makeup⟩,
   ⟨8, 0b01100111, 640, .makeup⟩,
   ⟨9, 0b011001100, 704, .makeup⟩,
   ⟨9, 0b011001101, 768, .makeup⟩,
   ⟨9, 0b011010010, 832, .makeup⟩,
   ⟨9, 0b011010011, 896, .makeup⟩,
   ⟨9, 0b011010100, 960, .makeup⟩,
   ⟨9, 0b011010101, 1024, .makeup⟩]

/-- White make-up codes, runs 1088 to 1728 (R152). -/
def whiteMakeup1088 : List MhEntry :=
  [⟨9, 0b011010110, 1088, .makeup⟩,
   ⟨9, 0b011010111, 1152, .makeup⟩,
   ⟨9, 0b011011000, 1216, .makeup⟩,
   ⟨9, 0b011011001, 1280, .makeup⟩,
   ⟨9, 0b011011010, 1344, .makeup⟩,
   ⟨9, 0b011011011, 1408, .makeup⟩,
   ⟨9, 0b010011000, 1472, .makeup⟩,
   ⟨9, 0b010011001, 1536, .makeup⟩,
   ⟨9, 0b010011010, 1600, .makeup⟩,
   ⟨6, 0b011000, 1664, .makeup⟩,
   ⟨9, 0b010011011, 1728, .makeup⟩]

/-- Black terminating codes, runs 0 to 15 (R152). -/
def blackTerm0 : List MhEntry :=
  [⟨10, 0b0000110111, 0, .term⟩,
   ⟨3, 0b010, 1, .term⟩,
   ⟨2, 0b11, 2, .term⟩,
   ⟨2, 0b10, 3, .term⟩,
   ⟨3, 0b011, 4, .term⟩,
   ⟨4, 0b0011, 5, .term⟩,
   ⟨4, 0b0010, 6, .term⟩,
   ⟨5, 0b00011, 7, .term⟩,
   ⟨6, 0b000101, 8, .term⟩,
   ⟨6, 0b000100, 9, .term⟩,
   ⟨7, 0b0000100, 10, .term⟩,
   ⟨7, 0b0000101, 11, .term⟩,
   ⟨7, 0b0000111, 12, .term⟩,
   ⟨8, 0b00000100, 13, .term⟩,
   ⟨8, 0b00000111, 14, .term⟩,
   ⟨9, 0b000011000, 15, .term⟩]

/-- Black terminating codes, runs 16 to 31 (R152). -/
def blackTerm16 : List MhEntry :=
  [⟨10, 0b0000010111, 16, .term⟩,
   ⟨10, 0b0000011000, 17, .term⟩,
   ⟨10, 0b0000001000, 18, .term⟩,
   ⟨11, 0b00001100111, 19, .term⟩,
   ⟨11, 0b00001101000, 20, .term⟩,
   ⟨11, 0b00001101100, 21, .term⟩,
   ⟨11, 0b00000110111, 22, .term⟩,
   ⟨11, 0b00000101000, 23, .term⟩,
   ⟨11, 0b00000010111, 24, .term⟩,
   ⟨11, 0b00000011000, 25, .term⟩,
   ⟨12, 0b000011001010, 26, .term⟩,
   ⟨12, 0b000011001011, 27, .term⟩,
   ⟨12, 0b000011001100, 28, .term⟩,
   ⟨12, 0b000011001101, 29, .term⟩,
   ⟨12, 0b000001101000, 30, .term⟩,
   ⟨12, 0b000001101001, 31, .term⟩]

/-- Black terminating codes, runs 32 to 47 (R152). -/
def blackTerm32 : List MhEntry :=
  [⟨12, 0b000001101010, 32, .term⟩,
   ⟨12, 0b000001101011, 33, .term⟩,
   ⟨12, 0b000011010010, 34, .term⟩,
   ⟨12, 0b000011010011, 35, .term⟩,
   ⟨12, 0b000011010100, 36, .term⟩,
   ⟨12, 0b000011010101, 37, .term⟩,
   ⟨12, 0b000011010110, 38, .term⟩,
   ⟨12, 0b000011010111, 39, .term⟩,
   ⟨12, 0b000001101100, 40, .term⟩,
   ⟨12, 0b000001101101, 41, .term⟩,
   ⟨12, 0b000011011010, 42, .term⟩,
   ⟨12, 0b000011011011, 43, .term⟩,
   ⟨12, 0b000001010100, 44, .term⟩,
   ⟨12, 0b000001010101, 45, .term⟩,
   ⟨12, 0b000001010110, 46, .term⟩,
   ⟨12, 0b000001010111, 47, .term⟩]

/-- Black terminating codes, runs 48 to 63 (R152). -/
def blackTerm48 : List MhEntry :=
  [⟨12, 0b000001100100, 48, .term⟩,
   ⟨12, 0b000001100101, 49, .term⟩,
   ⟨12, 0b000001010010, 50, .term⟩,
   ⟨12, 0b000001010011, 51, .term⟩,
   ⟨12, 0b000000100100, 52, .term⟩,
   ⟨12, 0b000000110111, 53, .term⟩,
   ⟨12, 0b000000111000, 54, .term⟩,
   ⟨12, 0b000000100111, 55, .term⟩,
   ⟨12, 0b000000101000, 56, .term⟩,
   ⟨12, 0b000001011000, 57, .term⟩,
   ⟨12, 0b000001011001, 58, .term⟩,
   ⟨12, 0b000000101011, 59, .term⟩,
   ⟨12, 0b000000101100, 60, .term⟩,
   ⟨12, 0b000001011010, 61, .term⟩,
   ⟨12, 0b000001100110, 62, .term⟩,
   ⟨12, 0b000001100111, 63, .term⟩]

/-- Black make-up codes, runs 64 to 1024 (R152). -/
def blackMakeup64 : List MhEntry :=
  [⟨10, 0b0000001111, 64, .makeup⟩,
   ⟨12, 0b000011001000, 128, .makeup⟩,
   ⟨12, 0b000011001001, 192, .makeup⟩,
   ⟨12, 0b000001011011, 256, .makeup⟩,
   ⟨12, 0b000000110011, 320, .makeup⟩,
   ⟨12, 0b000000110100, 384, .makeup⟩,
   ⟨12, 0b000000110101, 448, .makeup⟩,
   ⟨13, 0b0000001101100, 512, .makeup⟩,
   ⟨13, 0b0000001101101, 576, .makeup⟩,
   ⟨13, 0b0000001001010, 640, .makeup⟩,
   ⟨13, 0b0000001001011, 704, .makeup⟩,
   ⟨13, 0b0000001001100, 768, .makeup⟩,
   ⟨13, 0b0000001001101, 832, .makeup⟩,
   ⟨13, 0b0000001110010, 896, .makeup⟩,
   ⟨13, 0b0000001110011, 960, .makeup⟩,
   ⟨13, 0b0000001110100, 1024, .makeup⟩]

/-- Black make-up codes, runs 1088 to 1728 (R152). -/
def blackMakeup1088 : List MhEntry :=
  [⟨13, 0b0000001110101, 1088, .makeup⟩,
   ⟨13, 0b0000001110110, 1152, .makeup⟩,
   ⟨13, 0b0000001110111, 1216, .makeup⟩,
   ⟨13, 0b0000001010010, 1280, .makeup⟩,
   ⟨13, 0b0000001010011, 1344, .makeup⟩,
   ⟨13, 0b0000001010100, 1408, .makeup⟩,
   ⟨13, 0b0000001010101, 1472, .makeup⟩,
   ⟨13, 0b0000001011010, 1536, .makeup⟩,
   ⟨13, 0b0000001011011, 1600, .makeup⟩,
   ⟨13, 0b0000001100100, 1664, .makeup⟩,
   ⟨13, 0b0000001100101, 1728, .makeup⟩]

/-- The extended make-up codes, the same for both colours (R153). -/
def extendedMakeup : List MhEntry :=
  [⟨11, 0b00000001000, 1792, .makeup⟩,
   ⟨11, 0b00000001100, 1856, .makeup⟩,
   ⟨11, 0b00000001101, 1920, .makeup⟩,
   ⟨12, 0b000000010010, 1984, .makeup⟩,
   ⟨12, 0b000000010011, 2048, .makeup⟩,
   ⟨12, 0b000000010100, 2112, .makeup⟩,
   ⟨12, 0b000000010101, 2176, .makeup⟩,
   ⟨12, 0b000000010110, 2240, .makeup⟩,
   ⟨12, 0b000000010111, 2304, .makeup⟩,
   ⟨12, 0b000000011100, 2368, .makeup⟩,
   ⟨12, 0b000000011101, 2432, .makeup⟩,
   ⟨12, 0b000000011110, 2496, .makeup⟩,
   ⟨12, 0b000000011111, 2560, .makeup⟩]

/-- The default `MH_TABLE` for white (R152). -/
def defaultWhite : List MhEntry := whiteTerm0 ++ whiteTerm16 ++ whiteTerm32 ++ whiteTerm48 ++ whiteMakeup64 ++ whiteMakeup1088

/-- The default `MH_TABLE` for black (R152). -/
def defaultBlack : List MhEntry := blackTerm0 ++ blackTerm16 ++ blackTerm32 ++ blackTerm48 ++ blackMakeup64 ++ blackMakeup1088

/-- The build that every example of the spec uses (R4; 95_test_vectors.md section 0). `FCDB_BASE`
has no default in the spec: 0 is a DESIGN CHOICE (log entry 2). -/
def defaultConfig : Config where
  memSize := 65536
  base := 0
  mhWhite := defaultWhite
  mhBlack := defaultBlack
  mhExtMakeup := true
  makeupChain := .error
  cmykFormula := .subClamp

/-- The code table of a colour: `MH_TABLE`, and the extended make-up codes exactly when
`MH_EXT_MAKEUP` is 1 (R151, R153). -/
def mhTable (cfg : Config) (colour : Colour) : List MhEntry :=
  (match colour with
    | .white => cfg.mhWhite
    | .black => cfg.mhBlack)
  ++ (if cfg.mhExtMakeup then extendedMakeup else [])

/-- No code of the table is a prefix of another of its codes (R4, R154). -/
def prefixFree (table : List MhEntry) : Bool :=
  match table with
  | [] => true
  | x :: rest =>
    rest.all (fun y =>
      !(decide (x.len ≤ y.len) && (y.code >>> (y.len - x.len) == x.code)) &&
      !(decide (y.len ≤ x.len) && (x.code >>> (x.len - y.len) == y.code)))
    && prefixFree rest

/-- The shape R151 gives an entry: 1 to 16 bits; a terminating run below 64, or a make-up run that
is a multiple of 64. -/
def entryLegal (entry : MhEntry) : Bool :=
  decide (1 ≤ entry.len) && decide (entry.len ≤ 16) && decide (entry.code < 2 ^ entry.len) &&
  (match entry.kind with
    | .term => decide (entry.run < 64)
    | .makeup => decide (64 ≤ entry.run) && entry.run % 64 == 0)

/-- The legal ranges of the parameters (R4). -/
def configLegal (cfg : Config) : Bool :=
  decide (1 ≤ cfg.memSize) && decide (cfg.memSize ≤ 0xFFFF0000) &&
  (mhTable cfg .white).all entryLegal && prefixFree (mhTable cfg .white) &&
  (mhTable cfg .black).all entryLegal && prefixFree (mhTable cfg .black)

end Sys2Proof.Machine
end

