-- ==== Sys2Proof/Machine/State.lean ====
section
/-! DEFINITION. The state of the block as plain data (10_state.md), the reasons a step can stop,
and the state after hardware reset (70_reset_and_hazards.md R330, R332). -/

namespace Sys2Proof.Machine

/-- Why the machine stops with a fault. -/
inductive Fault where
  /-- Raised by a unit step whose command does not pass the validation of R122 on the registers as
  they stand, or has no unit of that number: the windows R133 would check are then not checked,
  and the unit could reach addresses outside BUF. Safe: no run from reset meets it, because the
  validation step comes first (R122) and the registers it reads do not change while `BUSY` is 1
  (R22). -/
  | unitNotValidated
deriving DecidableEq, Repr, Inhabited

/-- Why the machine refuses an instruction. -/
inductive Refusal where
  /-- Raised by an arm of `exec` whose instruction has no meaning yet (none is left). Safe. -/
  | notModelled (mnemonic : String)
deriving DecidableEq, Repr, Inhabited

/-- BUF: the bytes that are written, at strictly rising addresses (R70). An unlisted byte has no
value: nothing has written it since reset (R82). -/
abbrev Memory := List Host.Cell

/-- The palette RAM: the entries that are written, at strictly rising indices (R46). An unlisted
entry has its unspecified value of hardware reset (R330). -/
abbrev PaletteRam := List (Nat × Rgb)

/-- The registers that the host writes for a command: `CMD` and the operands (R23, R28 to R40). -/
structure OperandRegs where
  cmd : Word
  srcAddr : Word
  srcLen : Word
  inBit : BitVec 3
  dstAddr : Word
  dstLen : Word
  dstStride : Word
  prvAddr : Word
  width : Word
  height : Word
  rows : Word
  param : Word
  arg : Word
deriving DecidableEq, Repr, Inhabited

/-- The stored flags of `STATUS` (R27). `BUSY` is read from the engine's phase (R47) and `IRQ` is
computed (R52). -/
structure StatusFlags where
  done : Bool
  err : Bool
  aborted : Bool
  errCode : BitVec 4
deriving DecidableEq, Repr, Inhabited

/-- The fields of `PAL_CFG` (R41). -/
structure PaletteConfig where
  size : BitVec 9
  max : Byte
  locked : Bool
deriving DecidableEq, Repr, Inhabited

/-- The results and the progress counters (R42, R43, R44). -/
structure ResultRegs where
  result0 : Word
  result1 : Word
  result2 : Word
  result3 : Word
  outCount : Word
  progDone : Word
  progTotal : Word
deriving DecidableEq, Repr, Inhabited

/-- The error information registers (R45). -/
structure ErrorRegs where
  pos : Word
  row : Word
  col : Word
  value : Word
deriving DecidableEq, Repr, Inhabited

/-- The engine's phase (R47). -/
inductive Phase where
  | idle
  | validate
  | run (unit : Nat)
deriving DecidableEq, Repr, Inhabited

/-- The LZW dictionary (R50, R181, R182) for the minimum code size `minsize`: the one-byte strings
of the literal codes are implied, `added` holds the strings of the codes from `2^minsize + 2` on,
in code order, so the next free code follows from its length. -/
structure LzwDict where
  minsize : Nat
  added : List (List Byte)
  width : Nat
  prev : Option Nat
deriving DecidableEq, Repr, Inhabited

/-- The engine's hidden state: phase and latched command (R47), bit cursor `b` and end `e` (R48),
abort request (R49), LZW dictionary (R50). -/
structure Engine where
  phase : Phase
  lcmd : Word
  cursor : Nat
  stop : Nat
  abortReq : Bool
  lzw : Option LzwDict
deriving DecidableEq, Repr, Inhabited

/-- What the host port last answered: the data of a read and whether the access got a bus error
(R75). -/
inductive Response where
  | read (data : Word) (busError : Bool)
  | write (busError : Bool)
deriving DecidableEq, Repr, Inhabited

/-- The state of the block. `cfg` is the build and never changes. The last six fields are the
model's own: what the world outside does next, what the port last answered, the two counters that
index the free values, and the window bytes the host has written under a running command. -/
structure State where
  cfg : Config
  /-- `CTRL.IRQ_EN` (R26) -/
  irqEn : Bool
  status : StatusFlags
  regs : OperandRegs
  palCfg : PaletteConfig
  results : ResultRegs
  errors : ErrorRegs
  pal : PaletteRam
  mem : Memory
  engine : Engine
  /-- what happens next at the block, first event first (R20, R339); when it is empty the engine
  moves -/
  pending : List HostEvent
  response : Option Response
  /-- counts the steps that may draw an unspecified byte (R82, R136) -/
  epoch : Nat
  /-- counts the hardware resets, each of which draws the palette anew (R330) -/
  generation : Nat
  /-- the BUF addresses the host has written inside a window of the running command (R334) -/
  hazard : List Nat
deriving DecidableEq, Repr, Inhabited

/-- The reset value of `CMD` and the operand registers (R23, R332). -/
def OperandRegs.reset : OperandRegs where
  cmd := 0
  srcAddr := 0
  srcLen := 0
  inBit := 0
  dstAddr := 0
  dstLen := 0
  dstStride := 0
  prvAddr := 0
  width := 0
  height := 0
  rows := 0
  param := 0
  arg := 0

/-- The reset value of the stored flags of `STATUS` (R23, R332). -/
def StatusFlags.reset : StatusFlags := ⟨false, false, false, 0⟩

/-- `PAL_CFG` = 0x00FF0100 after reset (R23, R330). -/
def PaletteConfig.reset : PaletteConfig := ⟨256, 255, false⟩

/-- The reset value of the results and counters (R23, R332). -/
def ResultRegs.reset : ResultRegs := ⟨0, 0, 0, 0, 0, 0, 0⟩

/-- The reset value of the error information registers (R23, R332). -/
def ErrorRegs.reset : ErrorRegs := ⟨0, 0, 0, 0⟩

/-- The engine after reset: idle, nothing latched, cursor 0, no request, no dictionary (R330). -/
def Engine.reset : Engine := ⟨.idle, 0, 0, 0, false, none⟩

/-- The state after the first hardware reset of a build (R330): every register at its reset value;
BUF and the palette hold nothing written, so every byte and entry reads as unspecified. -/
def State.resetOf (cfg : Config) : State where
  cfg := cfg
  irqEn := false
  status := StatusFlags.reset
  regs := OperandRegs.reset
  palCfg := PaletteConfig.reset
  results := ResultRegs.reset
  errors := ErrorRegs.reset
  pal := []
  mem := []
  engine := Engine.reset
  pending := []
  response := none
  epoch := 0
  generation := 0
  hazard := []

/-- The block right after hardware reset, with the default parameters of R4. -/
def State.reset : State := State.resetOf defaultConfig

end Sys2Proof.Machine
end

