-- ==== Sys2Proof/Machine/Flags.lean ====
section
/-! DEFINITION. The flags of the block: the fields of `STATUS` and `CTRL`, who sets and clears
each (10_state.md R26, R27), the interrupt output (R52, 60_exceptions.md R307) and the error codes
(R301). -/

namespace Sys2Proof.Machine

/-- `STATUS.BUSY`: 1 exactly when the phase is not `IDLE` (R47). -/
def State.busy (s : State) : Bool := s.engine.phase != .idle

/-- The interrupt output: a level, `IRQ_EN and (DONE or ERR)` (R52, R307). -/
def State.irq (s : State) : Bool := s.irqEn && (s.status.done || s.status.err)

/-- What a read of `STATUS` returns (R23, R27): [0] BUSY, [1] DONE, [2] ERR, [3] ABORTED, [4] IRQ,
[11:8] ERR_CODE, the reserved bits 0. -/
def statusWord (s : State) : Word :=
  (BitVec.ofBool s.busy).setWidth 32
  ||| ((BitVec.ofBool s.status.done).setWidth 32 <<< 1)
  ||| ((BitVec.ofBool s.status.err).setWidth 32 <<< 2)
  ||| ((BitVec.ofBool s.status.aborted).setWidth 32 <<< 3)
  ||| ((BitVec.ofBool s.irq).setWidth 32 <<< 4)
  ||| (s.status.errCode.setWidth 32 <<< 8)

/-- What a read of `CTRL` returns: `IRQ_EN` in bit 2, every other bit 0 (R26). -/
def ctrlWord (s : State) : Word := (BitVec.ofBool s.irqEn).setWidth 32 <<< 2

/-- `STATUS.ERR_CODE` of an error (R301). -/
def errorCode : ErrorKind → BitVec 4
  | .invalidStructure => 2
  | .unsupported => 3
  | .missingParameter => 4
  | .illegalCommand => 5
  | .addressFault => 6
  | .paletteLocked => 7

/-- The flags after a successful completion (R125). -/
def flagsSuccess (f : StatusFlags) : StatusFlags := { f with done := true }

/-- The flags after an aborted completion (R126). -/
def flagsAborted (f : StatusFlags) : StatusFlags := { f with done := true, aborted := true }

/-- The flags after an error completion; `DONE` stays as it is (R302). -/
def flagsError (f : StatusFlags) (kind : ErrorKind) : StatusFlags :=
  { f with err := true, errCode := errorCode kind }

/-- The flags after a completion of each kind. -/
def flagsCompleted (f : StatusFlags) : Completion → StatusFlags
  | .success => flagsSuccess f
  | .aborted => flagsAborted f
  | .error kind => flagsError f kind

/-- A host write to `STATUS`: writing 1 to `DONE`, `ERR` or `ABORTED` clears it, and clearing `ERR`
clears `ERR_CODE` too (R27, R306). Every other bit ignores the write. -/
def flagsWritten (f : StatusFlags) (v : Word) : StatusFlags where
  done := f.done && !v.getLsbD 1
  err := f.err && !v.getLsbD 2
  aborted := f.aborted && !v.getLsbD 3
  errCode := if v.getLsbD 2 then 0 else f.errCode

end Sys2Proof.Machine
end

