-- ==== Sys2Proof/Machine/Ops.lean ====
section
/-! DEFINITION. The named operations every command shares: the sparse store under BUF and the
palette, reads and writes of BUF, the width of a register the engine writes, starting a command
(40_command_cycle.md R120), its three completions (R125, R126; the error completion, 60_exceptions.md
R302, is the block's way of taking an exception), leaving the error state (R306), and the resets
(70_reset_and_hazards.md R330, R331). -/

namespace Sys2Proof.Machine

/-! ### The sparse store -/

/-- The value listed at a key. -/
def storeGet {α : Type} : List (Nat × α) → Nat → Option α
  | [], _ => none
  | (k, v) :: rest, a => if a = k then some v else storeGet rest a

/-- List a value at a key, keeping the keys strictly rising. -/
def storeSet {α : Type} : List (Nat × α) → Nat → α → List (Nat × α)
  | [], a, v => [(a, v)]
  | (k, w) :: rest, a, v =>
    if a < k then (a, v) :: (k, w) :: rest
    else if a = k then (a, v) :: rest
    else (k, w) :: storeSet rest a v

/-- The canonical form of a store: keys strictly rising. No listed value equals what an unlisted
key reads as, since an unlisted key has no value. -/
abbrev storeSorted {α : Type} (m : List (Nat × α)) : Prop := m.Pairwise fun x y => x.1 < y.1

/-- The canonical form of BUF: addresses strictly rising, all inside BUF (R70). -/
abbrev Memory.wf (size : Nat) (m : Memory) : Prop := storeSorted m ∧ ∀ c ∈ m, c.1 < size

/-- The canonical form of the palette RAM: indices strictly rising, all of the 256 (R46). -/
abbrev PaletteRam.wf (p : PaletteRam) : Prop := storeSorted p ∧ ∀ c ∈ p, c.1 < 256

/-! ### BUF and the palette -/

/-- One byte of a memory: the last value written, or an unspecified byte of this epoch where
nothing has been written since reset (R82, R85). -/
def readMem (epoch : Nat) (m : Memory) (a : Nat) : Byte :=
  (storeGet m a).getD (Config.freeByte epoch a)

/-- `BUF[a]` in a state. -/
def readBuf (s : State) (a : Nat) : Byte := readMem s.epoch s.mem a

/-- `MemRead(a, n)`: the bytes `BUF[a] .. BUF[a+n-1]` (R7). -/
def readRange (s : State) (a n : Nat) : List Byte := (List.range n).map fun i => readBuf s (a + i)

/-- `MemWrite(a, n, v)` of the byte list `v` (R7). -/
def writeBytes (m : Memory) (a : Nat) : List Byte → Memory
  | [] => m
  | v :: vs => writeBytes (storeSet m a v) (a + 1) vs

/-- Put an unspecified byte of this epoch at each of the addresses (R136, R334). -/
def freeAt (epoch : Nat) (m : Memory) (addrs : List Nat) : Memory :=
  addrs.foldl (fun m a => storeSet m a (Config.freeByte epoch a)) m

/-- Put unspecified bytes of this epoch into `[a, a + n)` (R136). -/
def freeRegion (epoch : Nat) (m : Memory) (a n : Nat) : Memory :=
  freeAt epoch m (List.range' a n)

/-- `PAL[k]`: the entry written last, or the unspecified entry of this hardware reset (R46, R330). -/
def palGet (s : State) (k : Nat) : Rgb := (storeGet s.pal k).getD (Config.freeRgb s.generation k)

/-- `PAL[k] <- entry`, `PAL[k+1] <- …` for a list of entries. -/
def palFill (p : PaletteRam) (k : Nat) : List Rgb → PaletteRam
  | [] => p
  | e :: es => palFill (storeSet p k e) (k + 1) es

/-- The value of a 32-bit register that the engine writes (R141): the number itself below 2^32;
above, the spec states no value and the register holds a free one. -/
def regOf (n : Nat) : Word := if n < 2 ^ 32 then BitVec.ofNat 32 n else Config.wideValue n

/-! ### Errors -/

/-- `raise E(pos, row, col, value)` (R7, R302) with the stream cursor where it is raised. -/
structure ErrInfo where
  kind : ErrorKind
  pos : Nat
  row : Nat
  col : Nat
  value : Nat
  cursor : Nat
deriving DecidableEq, Repr, Inhabited

/-- What a unit of a command does: it ends with its effect on the state, or it raises and leaves
what R136 says. -/
inductive UnitOutcome where
  | done (s : State)
  | raised (s : State) (e : ErrInfo)
deriving DecidableEq, Repr

/-- The engine with no command: idle, no abort request, no dictionary (R125, R126, R302, R50). -/
def engineIdle (g : Engine) : Engine := { g with phase := .idle, abortReq := false, lzw := none }

/-- Error completion (R302): the error information and `ERR_CODE` are recorded, `ERR` is set, the
engine goes idle. The cursor registers, the results and the progress counters stay. -/
def raise (e : ErrInfo) (s : State) : State :=
  { s with
    errors := ⟨regOf e.pos, regOf e.row, regOf e.col, regOf e.value⟩
    status := flagsError s.status e.kind
    engine := { engineIdle s.engine with cursor := e.cursor }
    hazard := [] }

/-- Leaving the error state (R306): there is no return command; a host write of 1 to `STATUS.ERR`
clears `ERR` and `ERR_CODE` and keeps the error information. -/
def acknowledge (v : Word) (s : State) : State := { s with status := flagsWritten s.status v }

/-! ### Start and completion -/

/-- A `START` that is accepted (R120): `CMD` is latched, the flags, results, counters and error
information are cleared, and the engine is about to validate. -/
def startCommand (s : State) : State :=
  { s with
    status := StatusFlags.reset
    results := ResultRegs.reset
    errors := ErrorRegs.reset
    engine := { s.engine with phase := .validate, lcmd := s.regs.cmd, abortReq := false }
    hazard := [] }

/-- Cursor write-back (R132): the unread rest of the input. -/
def writeBack (s : State) : State :=
  { s with regs := { s.regs with
      srcAddr := regOf (s.engine.cursor / 8)
      inBit := BitVec.ofNat 3 (s.engine.cursor % 8)
      srcLen := regOf (s.engine.stop / 8 - s.engine.cursor / 8) } }

/-- Success completion, without the write-back (R125). -/
def finishSuccess (s : State) : State :=
  { s with status := flagsSuccess s.status, engine := engineIdle s.engine, hazard := [] }

/-- Abort completion, without the write-back (R126). -/
def finishAborted (s : State) : State :=
  { s with status := flagsAborted s.status, engine := engineIdle s.engine, hazard := [] }

/-! ### Reset -/

/-- Hardware reset (R330). The build stays; what is pending outside stays; BUF and the palette are
unspecified anew. -/
def hardwareReset (s : State) : State :=
  { State.resetOf s.cfg with
    pending := s.pending
    epoch := s.epoch + 1
    generation := s.generation + 1 }

/-- Soft reset (R331): the state of R330, except that BUF and the palette are kept. -/
def softReset (s : State) : State :=
  { State.resetOf s.cfg with
    pal := s.pal
    mem := s.mem
    pending := s.pending
    response := s.response
    epoch := s.epoch
    generation := s.generation }

end Sys2Proof.Machine
end

