-- ==== Sys2Proof/Machine/Stream.lean ====
section
/-! DEFINITION. The input stream of a command (40_command_cycle.md R127 to R131, R139) in the bit
orders of 20_memory.md R77 and R78. A read takes the cursor and answers the value with the cursor
after it, or `none` where it would need a bit at or past the end of the input window. -/

namespace Sys2Proof.Machine

/-- `ReadBitMSB()` (R128): bit 7 of a byte first (R77). -/
def readBitMSB (s : State) (b : Nat) : Option (Nat × Nat) :=
  if b + 1 > s.engine.stop then none
  else some (((readBuf s (b / 8)).toNat >>> (7 - b % 8)) % 2, b + 1)

/-- The `w` bits from position `b`, the first of them the least significant (R78). -/
def bitsLSB (s : State) (b : Nat) : Nat → Nat
  | 0 => 0
  | w + 1 => bitsLSB s b w + (((readBuf s ((b + w) / 8)).toNat >>> ((b + w) % 8)) % 2) <<< w

/-- `ReadBitsLSB(w)` (R129). -/
def readBitsLSB (s : State) (w b : Nat) : Option (Nat × Nat) :=
  if b + w > s.engine.stop then none else some (bitsLSB s b w, b + w)

/-- `ReadByte()` (R130). -/
def readByte (s : State) (b : Nat) : Option (Byte × Nat) :=
  if b + 8 > s.engine.stop then none else some (readBuf s (b / 8), b + 8)

/-- `n` calls of `ReadByte()`: the bytes and the cursor after them, or how many were read before
the input ended. -/
def readBytes (s : State) : Nat → Nat → Except Nat (List Byte × Nat)
  | 0, b => .ok ([], b)
  | n + 1, b =>
    match readByte s b with
    | none => .error 0
    | some (v, b') =>
      match readBytes s n b' with
      | .ok (vs, b'') => .ok (v :: vs, b'')
      | .error k => .error (k + 1)

/-- The next byte boundary at or after a bit position (R131, 41_huffman_mh.md R159). -/
def alignUp (b : Nat) : Nat := if b % 8 = 0 then b else 8 * (b / 8 + 1)

/-- The error of an input that ends (R139): `ERR_POS` is the end of the window and `ERR_VALUE` is
0xFFFFFFFF. -/
def endOfInput (s : State) (row col cursor : Nat) : ErrInfo :=
  ⟨.invalidStructure, s.engine.stop / 8, row, col, 0xFFFFFFFF, cursor⟩

/-- Cursor set-up (R127), with the alignment of the byte engines (R131). -/
def setupCursor (byteEngine : Bool) (s : State) : State :=
  let b := 8 * s.regs.srcAddr.toNat + s.regs.inBit.toNat
  { s with engine := { s.engine with
      cursor := if byteEngine then alignUp b else b
      stop := 8 * (s.regs.srcAddr.toNat + s.regs.srcLen.toNat) } }

end Sys2Proof.Machine
end

