-- ==== Sys2Proof/Machine/Operands.lean ====
section
/-! DEFINITION. The operands of the commands: the parameter fields (30_encoding.md R104), the
Adam7 geometry they select (45_adam7.md R240, R241, R244), the register offsets (10_state.md R23),
and for every command its row of the tables that the shared cycle reads (30_encoding.md R105,
40_command_cycle.md R122, R123, R131, R133). -/

namespace Sys2Proof.Machine

/-- `ceil(a / b)` for positive `b` (R6). -/
def ceilDiv (a b : Nat) : Nat := (a + b - 1) / b

/-! ### Parameter fields (R39, R104) -/

/-- `PARAM[3:0]`, the LZW minimum code size. -/
def minsizeOf (s : State) : Nat := (s.regs.param.extractLsb' 0 4).toNat

/-- `PARAM[3:0]`, the PNG pixel stride. -/
def bppOf (s : State) : Nat := (s.regs.param.extractLsb' 0 4).toNat

/-- `PARAM[2:0]`, the Adam7 pass. -/
def passOf (s : State) : Nat := (s.regs.param.extractLsb' 0 3).toNat

/-- `PARAM[15:8]`, the Adam7 pixel size in bits. -/
def bitsOf (s : State) : Nat := (s.regs.param.extractLsb' 8 8).toNat

/-- `PARAM[7:0]`, the palette index. -/
def indexOf (s : State) : Nat := (s.regs.param.extractLsb' 0 8).toNat

/-- `ARG[23:0]` as an entry (R40, R104). -/
def argRgb (s : State) : Rgb :=
  ⟨s.regs.arg.extractLsb' 16 8, s.regs.arg.extractLsb' 8 8, s.regs.arg.extractLsb' 0 8⟩

/-- `PAL_SIZE` (R41). -/
def palSizeOf (s : State) : Nat := s.palCfg.size.toNat

/-- The legal values of `minsize` (R104, R181). -/
def minsizeLegal (m : Nat) : Bool := decide (2 ≤ m) && decide (m ≤ 8)

/-- The legal values of `bpp` (R104, R221). -/
def bppLegal (n : Nat) : Bool := decide (1 ≤ n) && decide (n ≤ 8)

/-- The legal values of `pass` (R104). -/
def passLegal (p : Nat) : Bool := decide (1 ≤ p) && decide (p ≤ 7)

/-- The legal values of `bits` (R104). -/
def bitsLegal (d : Nat) : Bool := [1, 2, 4, 8, 16, 24, 32, 48, 64].contains d

/-! ### Adam7 geometry -/

/-- First row, first column, row increment, column increment of a pass (R240). -/
structure PassGeometry where
  sr : Nat
  sc : Nat
  ri : Nat
  ci : Nat
deriving DecidableEq, Repr, Inhabited

/-- The pass table (R240); there is no pass outside 1 to 7. -/
def adam7Pass : Nat → Option PassGeometry
  | 1 => some ⟨0, 0, 8, 8⟩
  | 2 => some ⟨0, 4, 8, 8⟩
  | 3 => some ⟨4, 0, 8, 4⟩
  | 4 => some ⟨0, 2, 4, 4⟩
  | 5 => some ⟨2, 0, 4, 2⟩
  | 6 => some ⟨0, 1, 2, 2⟩
  | 7 => some ⟨1, 0, 2, 1⟩
  | _ => none

/-- `cols_p` for an image of width `w` (R241). -/
def passCols (g : PassGeometry) (w : Nat) : Nat := if w > g.sc then ceilDiv (w - g.sc) g.ci else 0

/-- `rows_p` for an image of height `h` (R241). -/
def passRows (g : PassGeometry) (h : Nat) : Nat := if h > g.sr then ceilDiv (h - g.sr) g.ri else 0

/-- The bytes of a row of `pixels` pixels of `bits` bits (R244). -/
def pixelRowBytes (pixels bits : Nat) : Nat := ceilDiv (pixels * bits) 8

/-- `cols_p` of the pass the state's registers name. -/
def colsOf (s : State) : Nat :=
  match adam7Pass (passOf s) with
  | some g => passCols g s.regs.width.toNat
  | none => 0

/-- `rows_p` of the pass the state's registers name. -/
def rowsOf (s : State) : Nat :=
  match adam7Pass (passOf s) with
  | some g => passRows g s.regs.height.toNat
  | none => 0

/-- The pass is empty: no column or no row (R241). -/
def passEmpty (s : State) : Bool := colsOf s == 0 || rowsOf s == 0

/-! ### Rows of the output -/

/-- The bytes of one `MH_ROWS` output row (R133, R158). -/
def mhRowBytes (byteOut : Bool) (s : State) : Nat :=
  if byteOut then s.regs.width.toNat else ceilDiv s.regs.width.toNat 8

/-- Where output row `r` starts (R133, R142). -/
def rowAddr (s : State) (r : Nat) : Nat := s.regs.dstAddr.toNat + r * s.regs.dstStride.toNat

/-! ### Register offsets -/

/-- The offset of a register in the register region (R23). -/
def regOffset : Reg → Nat
  | .id => 0x000
  | .memsize => 0x004
  | .ctrl => 0x008
  | .status => 0x00C
  | .cmd => 0x010
  | .srcAddr => 0x014
  | .srcLen => 0x018
  | .inBit => 0x01C
  | .dstAddr => 0x020
  | .dstLen => 0x024
  | .dstStride => 0x028
  | .prvAddr => 0x02C
  | .width => 0x030
  | .height => 0x034
  | .rows => 0x038
  | .param => 0x03C
  | .arg => 0x040
  | .palCfg => 0x044
  | .result0 => 0x048
  | .result1 => 0x04C
  | .result2 => 0x050
  | .result3 => 0x054
  | .outCount => 0x058
  | .progDone => 0x05C
  | .progTotal => 0x060
  | .errPos => 0x064
  | .errRow => 0x068
  | .errCol => 0x06C
  | .errValue => 0x070

/-! ### What the shared cycle asks of a command -/

/-- A command's rows of the tables of R105, R122, R123, R131 and R133, filled in from the
registers. -/
structure Shape where
  /-- the "must be >= 1" registers in their order, with the value each holds (R105) -/
  required : List (Reg × Word) := []
  /-- the parameter checks in their order: the value and whether it is legal (R104, R105) -/
  params : List (Nat × Bool) := []
  /-- `ReadsInput(op)` (R122) -/
  input : Bool := false
  /-- it is a byte engine (R131) -/
  byteEngine : Bool := false
  /-- `RB` and `N` of the output window, where it has one (R133) -/
  output : Option (Nat × Nat) := none
  /-- the prior window `P` is used (R133) -/
  prior : Bool := false
  /-- the opcode, where the palette lock is checked (R122 step 5) -/
  lockCheck : Option Nat := none
  /-- `U(op)` (R123) -/
  units : Nat := 1
  /-- `Total(op)` (R123) -/
  total : Nat := 1
  /-- its one unit is the empty Adam7 unit (R123, R247) -/
  emptyUnit : Bool := false
  /-- the minimum code size of the dictionary it sets up (R50) -/
  lzwSize : Option Nat := none
  /-- how many palette entries it loads from its input (R273) -/
  loads : Nat := 0
deriving DecidableEq, Repr, Inhabited

/-- `MH_RUN` and `MH_CODE`: a bit input and nothing else (R105). -/
def mhRunShape : Shape := { input := true }

/-- `MH_ROWS` (R105, R123, R133). -/
def mhRowsShape (byteOut : Bool) (s : State) : Shape :=
  { required := [(.width, s.regs.width), (.rows, s.regs.rows)]
    input := true
    output := some (mhRowBytes byteOut s, s.regs.rows.toNat)
    units := s.regs.rows.toNat
    total := s.regs.rows.toNat }

/-- `LZW_DECODE` (R105, R133). -/
def lzwShape (s : State) : Shape :=
  { required := [(.dstLen, s.regs.dstLen)]
    params := [(minsizeOf s, minsizeLegal (minsizeOf s))]
    input := true
    output := some (s.regs.dstLen.toNat, 1)
    lzwSize := some (minsizeOf s) }

/-- The run-length commands (R105, R123, R133). -/
def runLengthShape (s : State) : Shape :=
  { required := [(.dstLen, s.regs.dstLen), (.rows, s.regs.rows)]
    input := true
    byteEngine := true
    output := some (s.regs.dstLen.toNat, s.regs.rows.toNat)
    units := s.regs.rows.toNat
    total := s.regs.rows.toNat }

/-- The PNG filter commands (R105, R123, R133). -/
def pngShape (first : Bool) (s : State) : Shape :=
  { required := [(.dstLen, s.regs.dstLen), (.rows, s.regs.rows)]
    params := [(bppOf s, bppLegal (bppOf s))]
    input := true
    byteEngine := true
    output := some (s.regs.dstLen.toNat, s.regs.rows.toNat)
    prior := !first
    units := s.regs.rows.toNat
    total := s.regs.rows.toNat }

/-- `ADAM7_GEOM` (R105). -/
def adam7GeomShape (s : State) : Shape :=
  { required := [(.width, s.regs.width), (.height, s.regs.height)]
    params := [(passOf s, passLegal (passOf s)), (bitsOf s, bitsLegal (bitsOf s))] }

/-- `ADAM7_SCATTER` (R105, R123, R133, R247). -/
def adam7ScatterShape (s : State) : Shape :=
  { required := [(.width, s.regs.width), (.height, s.regs.height)]
    params := [(passOf s, passLegal (passOf s)), (bitsOf s, bitsLegal (bitsOf s))]
    input := true
    byteEngine := true
    output := some (pixelRowBytes s.regs.width.toNat (bitsOf s), s.regs.height.toNat)
    units := if passEmpty s then 1 else rowsOf s
    total := rowsOf s
    emptyUnit := passEmpty s }

/-- `CMYK_TO_RGB` and `PAL_LOOKUP`: one input, `3 * WIDTH` output bytes (R105, R133). -/
def pixelShape (s : State) : Shape :=
  { required := [(.width, s.regs.width)]
    input := true
    byteEngine := true
    output := some (3 * s.regs.width.toNat, 1) }

/-- `PAL_LOAD` (R105, R122 step 5). -/
def palLoadShape (s : State) : Shape :=
  { input := true, byteEngine := true, lockCheck := some 0x73, loads := palSizeOf s }

/-- The row of every command. -/
def shapeOf (i : Instr) (s : State) : Shape :=
  match i with
  | .nop => {}
  | .mhRows byteOut _ => mhRowsShape byteOut s
  | .mhRun _ => mhRunShape
  | .mhCode _ => mhRunShape
  | .lzwDecode => lzwShape s
  | .packbits => runLengthShape s
  | .byterun1 => runLengthShape s
  | .palmRle => runLengthShape s
  | .pngUnfilter first => pngShape first s
  | .pngNone first => pngShape first s
  | .pngSub first => pngShape first s
  | .pngUp first => pngShape first s
  | .pngAvg first => pngShape first s
  | .pngPaeth first => pngShape first s
  | .adam7Geom => adam7GeomShape s
  | .adam7Scatter => adam7ScatterShape s
  | .cmykToRgb _ => pixelShape s
  | .palWrite => { lockCheck := some 0x70 }
  | .palRead => {}
  | .palLookup => pixelShape s
  | .palLoad => palLoadShape s
  | .palAttach => {}
  | .palReset => {}

/-! ### Windows (R133) -/

/-- A half-open range of BUF offsets; nothing wraps. -/
structure Window where
  lo : Nat
  hi : Nat
deriving DecidableEq, Repr, Inhabited

/-- The window holds no byte. -/
def windowEmpty (w : Window) : Bool := decide (w.hi ≤ w.lo)

/-- Both windows are non-empty and each starts before the other ends (R133). -/
def windowsOverlap (v w : Window) : Bool :=
  !windowEmpty v && !windowEmpty w && decide (v.lo < w.hi) && decide (w.lo < v.hi)

/-- The address is in the window. -/
def inWindow (w : Window) (a : Nat) : Bool := decide (w.lo ≤ a) && decide (a < w.hi)

/-- `I = [SRC_ADDR, SRC_ADDR + SRC_LEN)`. -/
def inputWindow (s : State) : Window :=
  ⟨s.regs.srcAddr.toNat, s.regs.srcAddr.toNat + s.regs.srcLen.toNat⟩

/-- `O = [DST_ADDR, DST_ADDR + (N-1) * DST_STRIDE + RB)`. For `N = 0`, which no validated command
has, `N-1` is taken as 0: a DESIGN CHOICE (safe, log entry 19) that only the hazard of R334 before
validation can see, and that makes `O` hold every byte the spec's `-1` does. -/
def outputWindow (s : State) (rb n : Nat) : Window :=
  ⟨s.regs.dstAddr.toNat, s.regs.dstAddr.toNat + (n - 1) * s.regs.dstStride.toNat + rb⟩

/-- `P = [PRV_ADDR, PRV_ADDR + DST_LEN)`. -/
def priorWindow (s : State) : Window :=
  ⟨s.regs.prvAddr.toNat, s.regs.prvAddr.toNat + s.regs.dstLen.toNat⟩

/-- The windows of a command: `I`, `O` and `P`, each where the command has it. -/
def windowsOf (sh : Shape) (s : State) : List Window :=
  (if sh.input then [inputWindow s] else [])
  ++ (match sh.output with
      | some (rb, n) => [outputWindow s rb n]
      | none => [])
  ++ (if sh.prior then [priorWindow s] else [])

/-- The address is in a window of the command (R334). -/
def touchesWindow (sh : Shape) (s : State) (a : Nat) : Bool := (windowsOf sh s).any (inWindow · a)

/-- The six window checks with their codes; each says whether it fails (R133). -/
def windowChecks (sh : Shape) (s : State) : List (Nat × Bool) :=
  let i := inputWindow s
  let p := priorWindow s
  let size := s.cfg.memSize
  let checkI := sh.input &&
    (decide (i.hi > size) || (s.regs.inBit != 0 && s.regs.srcLen == 0))
  match sh.output with
  | none => [(1, checkI), (4, sh.prior && decide (p.hi > size)),
      (6, sh.prior && sh.input && windowsOverlap p i)]
  | some (rb, n) =>
    let o := outputWindow s rb n
    [(1, checkI),
     (2, decide (n > 1) && decide (s.regs.dstStride.toNat < rb)),
     (3, decide (o.hi > size)),
     (4, sh.prior && decide (p.hi > size)),
     (5, sh.input && windowsOverlap i o),
     (6, sh.prior && ((sh.input && windowsOverlap p i) || windowsOverlap p o))]

end Sys2Proof.Machine
end

