-- ==== Sys2Proof/Machine/Cycle.lean ====
section
/-! DEFINITION. The command cycle that every command goes through (40_command_cycle.md R122 to
R126): the validation step, the unit step with its three ways on, the step of a command whose
window the host has written (70_reset_and_hazards.md R334), and the illegal command (30_encoding.md
R106). A meaning gives the cycle its tables and its unit. -/

namespace Sys2Proof.Machine

/-! ### Validation (R122) -/

/-- An error of the validation step: position, row and column are 0 (R303). -/
def validationError (s : State) (kind : ErrorKind) (value : Nat) : ErrInfo :=
  ⟨kind, 0, 0, 0, value, s.engine.cursor⟩

/-- Step 2: the first "must be >= 1" register that is 0 (R105, R135). -/
def missingParameter (sh : Shape) (s : State) : Option ErrInfo :=
  (sh.required.find? fun p => p.2 == 0).map fun p =>
    validationError s .missingParameter (regOffset p.1)

/-- Step 3: the first parameter out of range (R104). -/
def unsupportedParameter (sh : Shape) (s : State) : Option ErrInfo :=
  (sh.params.find? fun p => !p.2).map fun p => validationError s .unsupported p.1

/-- Step 4: the first window check that fails (R133). -/
def addressFault (sh : Shape) (s : State) : Option ErrInfo :=
  ((windowChecks sh s).find? fun p => p.2).map fun p => validationError s .addressFault p.1

/-- Step 5: the palette is attached (R269). -/
def paletteLocked (sh : Shape) (s : State) : Option ErrInfo :=
  if s.palCfg.locked then sh.lockCheck.map fun op => validationError s .paletteLocked op else none

/-- The error of steps 2 to 5 of the validation, the first that fails (R122, R304). -/
def firstError (sh : Shape) (s : State) : Option ErrInfo :=
  (((missingParameter sh s).or (unsupportedParameter sh s)).or (addressFault sh s)).or
    (paletteLocked sh s)

/-- Steps 6 and 7: the cursor of a command that reads input, the dictionary of one that decodes
LZW, and `PROG_TOTAL`. -/
def prepare (sh : Shape) (s : State) : State :=
  let s1 := if sh.input then setupCursor sh.byteEngine s else s
  { s1 with
    results := { s1.results with progTotal := regOf sh.total }
    engine := { s1.engine with lzw := sh.lzwSize.map fun m => ⟨m, [], m + 1, none⟩ } }

/-- The validation step of a legal command (R122 steps 2 to 8). -/
def validateStep (sh : Shape) (s : State) : State :=
  match firstError sh s with
  | some e => raise e s
  | none =>
    let s1 := prepare sh s
    if s1.engine.abortReq then finishAborted s1
    else { s1 with engine := { s1.engine with phase := .run 0 } }

/-- The validation step of an illegal command word: step 1, and nothing else (R106, R122). -/
def illegalStep (s : State) : State :=
  raise (validationError s .illegalCommand s.engine.lcmd.toNat) s

/-! ### Units (R124) -/

/-- Progress of a completed unit: one more, or all of it for the empty Adam7 unit (R123). -/
def bumpProgress (sh : Shape) (r : ResultRegs) : ResultRegs :=
  { r with progDone := if sh.emptyUnit then regOf sh.total else r.progDone + 1 }

/-- Cursor write-back where the command reads input (R125, R126). -/
def writeBackIf (sh : Shape) (s : State) : State := if sh.input then writeBack s else s

/-- What follows the completed unit `u` (R124): success, abort, or the next unit. -/
def afterUnit (sh : Shape) (u : Nat) (s : State) : State :=
  if u + 1 = sh.units then finishSuccess (writeBackIf sh s)
  else if s.engine.abortReq then finishAborted (writeBackIf sh s)
  else { s with engine := { s.engine with phase := .run (u + 1) } }

/-- The step of unit `u` (R124). A step that runs a unit ends its epoch. -/
def unitStep (sh : Shape) (unit : Nat → State → UnitOutcome) (u : Nat) (s : State) : State :=
  match unit u s with
  | .raised s1 e => raise e { s1 with epoch := s1.epoch + 1 }
  | .done s1 =>
    afterUnit sh u
      { s1 with epoch := s1.epoch + 1, results := bumpProgress sh s1.results }

/-! ### A command whose window the host has written (R334) -/

/-- The BUF addresses that hold unspecified bytes then: all of `O`, and what the host wrote. -/
def hazardAddrs (sh : Shape) (s : State) : List Nat :=
  (match sh.output with
    | some (rb, n) =>
      let o := outputWindow s rb n
      List.range' o.lo (min o.hi s.cfg.memSize - o.lo)
    | none => [])
  ++ s.hazard

/-- Everything R334 leaves open, but for the way the step ends: the bytes of `O`, the entries a
palette command loads, the results and `OUT_COUNT`. -/
def hazardEffects (sh : Shape) (d : HazardDraw) (s : State) : State :=
  { s with
    mem := freeAt s.epoch s.mem (hazardAddrs sh s)
    pal := if s.palCfg.locked then s.pal
      else palFill s.pal 0 ((List.range sh.loads).map fun k => Config.hazardRgb s.epoch k)
    results := { s.results with
      result0 := d.result0
      result1 := d.result1
      result2 := d.result2
      result3 := d.result3
      outCount := d.outCount }
    epoch := s.epoch + 1 }

/-- A completion drawn for such a command: its kind, the cursor registers and, for an error, the
error information (R334). Progress stays monotonic and within its total (R44). -/
def hazardComplete (sh : Shape) (d : HazardDraw) (validating : Bool) (s : State) : State :=
  let total := if validating && d.totalSet then regOf sh.total else s.results.progTotal
  { s with
    status := flagsCompleted s.status d.completion
    regs := { s.regs with srcAddr := d.srcAddr, srcLen := d.srcLen, inBit := d.inBit }
    errors := match d.completion with
      | .error _ => ⟨d.errPos, d.errRow, d.errCol, d.errValue⟩
      | _ => s.errors
    results := { s.results with
      progTotal := total
      progDone := if s.results.progDone ≤ d.progDone ∧ d.progDone ≤ total then d.progDone
        else s.results.progDone }
    engine := engineIdle s.engine
    hazard := [] }

/-- The step of a command whose window the host has written: it goes on to its next unit, where it
has one, or completes; which, is unspecified (R334). -/
def hazardStep (sh : Shape) (s : State) : State :=
  let d := Config.hazardDraw s.epoch
  let s1 := hazardEffects sh d s
  match s.engine.phase with
  | .run u =>
    if d.goesOn && decide (u + 1 < sh.units) then
      { s1 with
        results := bumpProgress sh s1.results
        engine := { s1.engine with phase := .run (u + 1) } }
    else hazardComplete sh d false s1
  | _ =>
    if d.goesOn && decide (0 < sh.units) then
      let s2 := prepare sh s1
      { s2 with engine := { s2.engine with phase := .run 0 } }
    else hazardComplete sh d true s1

/-! ### One engine step of a command -/

/-- Unit `u` may run: the command passes the validation on the registers as they stand and has such
a unit. It holds in every run (R22, R122). -/
def unitValidated (sh : Shape) (u : Nat) (s : State) : Bool :=
  (firstError sh s).isNone && decide (u < sh.units)

/-- One engine step of a command (R20, R122, R124). The engine runs only while `BUSY` is 1, so an
idle one stays as it is. -/
def commandStep (sh : Shape) (unit : Nat → State → UnitOutcome) (s : State) :
    Host.Outcome State Fault Refusal :=
  match s.engine.phase with
  | .idle => .next s
  | .validate => .next (if s.hazard = [] then validateStep sh s else hazardStep sh s)
  | .run u =>
    if s.hazard ≠ [] then .next (hazardStep sh s)
    else if unitValidated sh u s then .next (unitStep sh unit u s)
    else .fault .unitNotValidated

/-! ### Output rows -/

/-- Unit `u` has completed its output row (R137, R142): the row is stored, the cursor is after its
input, `OUT_COUNT` counts the row's bytes. -/
def storeRow (u rb : Nat) (row : List Byte) (cursor : Nat) (s : State) : State :=
  { s with
    mem := writeBytes s.mem (rowAddr s u) row
    results := { s.results with outCount := regOf (s.results.outCount.toNat + rb) }
    engine := { s.engine with cursor := cursor } }

/-- Unit `u` has raised an error: its row holds unspecified bytes (R136). -/
def spoilRow (u rb : Nat) (s : State) : State :=
  { s with mem := freeRegion s.epoch s.mem (rowAddr s u) rb }

/-- A unit that computes one whole row or raises: the row is stored, or spoiled (R124, R136). -/
def rowUnit (rb u : Nat) (row : Except ErrInfo (List Byte × Nat)) (s : State) : UnitOutcome :=
  match row with
  | .ok (bytes, cursor) => .done (storeRow u rb bytes cursor s)
  | .error e => .raised (spoilRow u rb s) e

end Sys2Proof.Machine
end

