-- ==== Sys2Proof/Machine/Adam7.lean ====
section
/-! DEFINITION. The Adam7 engine (45_adam7.md): the coordinate mapping R242, the pixel fields R244,
and the commands `ADAM7_GEOM` (R245) and `ADAM7_SCATTER` (R246, R247). The pass table and the
dimensions stand in Operands.lean, where the validation uses them. -/

namespace Sys2Proof.Machine

/-- `RESULT0` of `ADAM7_GEOM` (R240, R245). -/
def geometryWord (g : PassGeometry) : Nat := g.sc ||| g.sr <<< 8 ||| g.ci <<< 16 ||| g.ri <<< 24

/-- The unit of `ADAM7_GEOM` (R245). A pass that does not exist gets no results; it does not pass
the validation. -/
def geomUnit (_u : Nat) (s : State) : UnitOutcome :=
  match adam7Pass (passOf s) with
  | none => .done s
  | some g =>
    .done { s with results := { s.results with
      result0 := regOf (geometryWord g)
      result1 := regOf (colsOf s)
      result2 := regOf (rowsOf s)
      result3 := regOf (pixelRowBytes (colsOf s) (bitsOf s)) } }

/-- `ADAM7_GEOM` (R245). -/
def execAdam7Geom (s : State) : Host.Outcome State Fault Refusal :=
  commandStep (shapeOf .adam7Geom s) geomUnit s

/-- The lowest bit of pixel `x` in its byte, for pixels of `bits` < 8 bits (R79, R244). -/
def pixelShift (bits x : Nat) : Nat := 8 - bits - (x * bits) % 8

/-- Pixel `j` of a reduced row of pixels narrower than a byte (R244). -/
def subPixel (bits : Nat) (row : List Byte) (j : Nat) : Nat :=
  (((row[j * bits / 8]?).getD 0).toNat >>> pixelShift bits j) % 2 ^ bits

/-- A byte with the field of pixel `x` replaced by `v` (R246). -/
def putSubPixel (bits : Nat) (old : Byte) (x v : Nat) : Byte :=
  let mask : Byte := BitVec.ofNat 8 ((2 ^ bits - 1) <<< pixelShift bits x)
  (old &&& ~~~mask) ||| BitVec.ofNat 8 (v <<< pixelShift bits x)

/-- Write pixel `j` of the reduced row into pixel `x` of the full row at `line` (R246). -/
def scatterPixel (epoch bits line : Nat) (row : List Byte) (m : Memory) (j x : Nat) : Memory :=
  if 8 ≤ bits then
    writeBytes m (line + x * (bits / 8)) ((row.drop (j * (bits / 8))).take (bits / 8))
  else
    let a := line + x * bits / 8
    storeSet m a (putSubPixel bits (readMem epoch m a) x (subPixel bits row j))

/-- Write the pixels of reduced row `k` into the full image (R242, R246). -/
def scatterRow (g : PassGeometry) (s : State) (k : Nat) (row : List Byte) : Memory :=
  (List.range (colsOf s)).foldl
    (fun m j => scatterPixel s.epoch (bitsOf s) (rowAddr s (g.sr + k * g.ri)) row m j
      (g.sc + j * g.ci)) s.mem

/-- The unit of `ADAM7_SCATTER` (R246), or its empty unit (R247). Nothing is written before the
whole reduced row has been read. -/
def scatterUnit (u : Nat) (s : State) : UnitOutcome :=
  match adam7Pass (passOf s) with
  | none => .done s
  | some g =>
    if passEmpty s then .done s
    else
      let rrb := pixelRowBytes (colsOf s) (bitsOf s)
      match readBytes s rrb s.engine.cursor with
      | .error q => .raised s (endOfInput s u q (s.engine.cursor + 8 * q))
      | .ok (row, b) =>
        .done { s with
          mem := scatterRow g s u row
          results := { s.results with outCount := regOf (s.results.outCount.toNat + rrb) }
          engine := { s.engine with cursor := b } }

/-- `ADAM7_SCATTER` (R246). -/
def execAdam7Scatter (s : State) : Host.Outcome State Fault Refusal :=
  commandStep (shapeOf .adam7Scatter s) scatterUnit s

end Sys2Proof.Machine
end

