-- ==== Sys2Proof/Machine/Cmyk.lean ====
section
/-! DEFINITION. The CMYK-to-RGB converter (46_cmyk.md R255 to R257). -/

namespace Sys2Proof.Machine

/-- One sample from its ink and the black ink (R256). -/
def cmykSample (formula : CmykFormula) (ink key : Byte) : Byte :=
  match formula with
  | .subClamp => BitVec.ofNat 8 (255 - ink.toNat - key.toNat)
  | .mult => BitVec.ofNat 8 ((255 - ink.toNat) * (255 - key.toNat) / 255)

/-- One pixel (R256). -/
def cmykPixel (formula : CmykFormula) (c m y k : Byte) : List Byte :=
  [cmykSample formula c k, cmykSample formula m k, cmykSample formula y k]

/-- The inks of pixel `i` of `w`: interleaved, or in four planes C, M, Y, K (R257). -/
def cmykInks (planar : Bool) (w : Nat) (input : List Byte) (i : Nat) : Byte × Byte × Byte × Byte :=
  let ink (q : Nat) : Byte := (input[q]?).getD 0
  if planar then (ink i, ink (w + i), ink (2 * w + i), ink (3 * w + i))
  else (ink (4 * i), ink (4 * i + 1), ink (4 * i + 2), ink (4 * i + 3))

/-- The `3 * w` output bytes of `4 * w` input bytes (R257). -/
def cmykRow (formula : CmykFormula) (planar : Bool) (w : Nat) (input : List Byte) : List Byte :=
  (List.range w).flatMap fun i =>
    match cmykInks planar w input i with
    | (c, m, y, k) => cmykPixel formula c m y k

/-- The unit of `CMYK_TO_RGB` (R257): all input is read before anything is written. -/
def cmykUnit (planar : Bool) (_u : Nat) (s : State) : UnitOutcome :=
  let w := s.regs.width.toNat
  match readBytes s (4 * w) s.engine.cursor with
  | .error q => .raised s (endOfInput s 0 q (s.engine.cursor + 8 * q))
  | .ok (input, b) =>
    .done { s with
      mem := writeBytes s.mem s.regs.dstAddr.toNat (cmykRow s.cfg.cmykFormula planar w input)
      results := { s.results with outCount := regOf (3 * w) }
      engine := { s.engine with cursor := b } }

/-- `CMYK_TO_RGB` (R257). -/
def execCmykToRgb (planar : Bool) (s : State) : Host.Outcome State Fault Refusal :=
  commandStep (shapeOf (.cmykToRgb planar) s) (cmykUnit planar) s

end Sys2Proof.Machine
end

