-- ==== Sys2Proof/Machine/Control.lean ====
section
/-! DEFINITION. The control command `NOP` (40_command_cycle.md R138). -/

namespace Sys2Proof.Machine

/-- The unit of `NOP` does nothing. -/
def nopUnit (_u : Nat) (s : State) : UnitOutcome := .done s

/-- `NOP` (R138). -/
def execNop (s : State) : Host.Outcome State Fault Refusal := commandStep (shapeOf .nop s) nopUnit s

end Sys2Proof.Machine
end

