-- ==== Sys2Proof/Machine/Huffman.lean ====
section
/-! DEFINITION. The Modified-Huffman engine (41_huffman_mh.md): the code matcher R155, the run
assembler R156, the row assembler R157 with its packing R158 and alignment R159, and the commands
`MH_ROWS`, `MH_RUN`, `MH_CODE` (R160 to R162). -/

namespace Sys2Proof.Machine

/-- The entry of `T[c][len]` with this code (R151, R155). -/
def mhLookup (table : List MhEntry) (len code : Nat) : Option MhEntry :=
  table.find? fun x => x.len == len && x.code == code

/-- The matcher of R155 with `left` of its 16 bits still to read: one more bit, then the table of
that length. -/
def mhMatch (s : State) (table : List MhEntry) (row col : Nat) :
    Nat → Nat → Nat → Except ErrInfo (MhEntry × Nat)
  | 0, acc, b => .error ⟨.invalidStructure, b / 8, row, col, acc, b⟩
  | left + 1, acc, b =>
    match readBitMSB s b with
    | none => .error (endOfInput s row col b)
    | some (bit, b') =>
      match mhLookup table (16 - left) (2 * acc + bit) with
      | some entry => .ok (entry, b')
      | none => mhMatch s table row col left (2 * acc + bit) b'

/-- `DecodeCode(c)` (R155): the entry matched and the cursor after it. -/
def decodeCode (s : State) (colour : Colour) (row col b : Nat) :
    Except ErrInfo (MhEntry × Nat) :=
  mhMatch s (mhTable s.cfg colour) row col 16 0 b

/-- The loop of R156 after `n` codes of total `total`. Each code takes at least one bit, so a loop
that has used up its fuel, the bits left in the window, is at the end of the input. -/
def runLoop (s : State) (colour : Colour) (row col : Nat) :
    Nat → Nat → Nat → Nat → Except ErrInfo (Nat × Nat × Nat)
  | 0, _, _, b => .error (endOfInput s row col b)
  | fuel + 1, total, n, b =>
    match decodeCode s colour row col b with
    | .error e => .error e
    | .ok (entry, b') =>
      match entry.kind with
      | .term => .ok (total + entry.run, n + 1, b')
      | .makeup =>
        if n ≠ 0 ∧ s.cfg.makeupChain = .error then
          .error ⟨.invalidStructure, b' / 8, row, col, entry.run, b'⟩
        else runLoop s colour row col fuel (total + entry.run) (n + 1) b'

/-- `DecodeRun(c)` (R156): the run, the number of codes, and the cursor after them. -/
def decodeRun (s : State) (colour : Colour) (row col b : Nat) :
    Except ErrInfo (Nat × Nat × Nat) :=
  runLoop s colour row col (s.engine.stop - b) 0 0 b

/-- The other colour (R157). -/
def otherColour : Colour → Colour
  | .white => .black
  | .black => .white

/-- A white pixel is stored as 1, a black one as 0 (R158). -/
def pixelOf : Colour → Bool
  | .white => true
  | .black => false

/-- The loop of R157: `pix` are the pixels so far, in order, so the column is their number. Each
run takes at least one bit, so a loop without fuel is at the end of the input. -/
def rowLoop (s : State) (row : Nat) :
    Nat → List Bool → Colour → Nat → Except ErrInfo (List Bool × Nat)
  | fuel, pix, colour, b =>
    if s.regs.width.toNat ≤ pix.length then .ok (pix, b)
    else match fuel with
      | 0 => .error (endOfInput s row pix.length b)
      | fuel + 1 =>
        match decodeRun s colour row pix.length b with
        | .error e => .error e
        | .ok (run, _, b') =>
          if pix.length + run > s.regs.width.toNat then
            .error ⟨.invalidStructure, b' / 8, row, pix.length, run, b'⟩
          else
            rowLoop s row fuel (pix ++ List.replicate run (pixelOf colour)) (otherColour colour) b'

/-- Eight pixels as a byte, the leftmost in bit 7; a pixel that is not there is 0 (R79, R158). -/
def packByte (pix : List Bool) : Byte :=
  BitVec.ofNat 8 ((List.range 8).foldl (fun acc j => 2 * acc + ((pix[j]?).getD false).toNat) 0)

/-- `n` packed bytes of pixels (R158). -/
def packRow : Nat → List Bool → List Byte
  | 0, _ => []
  | n + 1, pix => packByte (pix.take 8) :: packRow n (pix.drop 8)

/-- One byte per pixel: 1 or 0 (R158). -/
def byteRow (pix : List Bool) : List Byte := pix.map fun p => if p then 1 else 0

/-- The output bytes of a row of pixels (R158). -/
def mhRowBytesOf (byteOut : Bool) (s : State) (pix : List Bool) : List Byte :=
  if byteOut then byteRow pix else packRow (mhRowBytes false s) pix

/-- `DecodeRow(r)` from cursor `b`: the pixels and the cursor after them (R157, R159). -/
def decodeRow (align : Bool) (s : State) (r b : Nat) : Except ErrInfo (List Bool × Nat) :=
  let b0 := if align then alignUp b else b
  rowLoop s r (s.engine.stop - b0) [] .white b0

/-- The unit of `MH_ROWS` (R160). -/
def mhRowsUnit (byteOut align : Bool) (u : Nat) (s : State) : UnitOutcome :=
  rowUnit (mhRowBytes byteOut s) u
    (match decodeRow align s u s.engine.cursor with
      | .ok (pix, b) => .ok (mhRowBytesOf byteOut s pix, b)
      | .error e => .error e) s

/-- `MH_ROWS` (R160). -/
def execMhRows (byteOut align : Bool) (s : State) : Host.Outcome State Fault Refusal :=
  commandStep (shapeOf (.mhRows byteOut align) s) (mhRowsUnit byteOut align) s

/-- The unit of `MH_RUN`: the run length, the bits it took, the code words it took (R161). -/
def mhRunUnit (colour : Colour) (_u : Nat) (s : State) : UnitOutcome :=
  match decodeRun s colour 0 0 s.engine.cursor with
  | .error e => .raised s e
  | .ok (total, n, b) =>
    .done { s with
      results := { s.results with
        result0 := regOf total
        result1 := regOf (b - s.engine.cursor)
        result2 := regOf n }
      engine := { s.engine with cursor := b } }

/-- `MH_RUN` (R161). -/
def execMhRun (colour : Colour) (s : State) : Host.Outcome State Fault Refusal :=
  commandStep (shapeOf (.mhRun colour) s) (mhRunUnit colour) s

/-- The unit of `MH_CODE`: the run of the one code word, its length, its kind (R162). -/
def mhCodeUnit (colour : Colour) (_u : Nat) (s : State) : UnitOutcome :=
  match decodeCode s colour 0 0 s.engine.cursor with
  | .error e => .raised s e
  | .ok (entry, b) =>
    .done { s with
      results := { s.results with
        result0 := regOf entry.run
        result1 := regOf entry.len
        result2 := match entry.kind with
          | .term => 0
          | .makeup => 1 }
      engine := { s.engine with cursor := b } }

/-- `MH_CODE` (R162). -/
def execMhCode (colour : Colour) (s : State) : Host.Outcome State Fault Refusal :=
  commandStep (shapeOf (.mhCode colour) s) (mhCodeUnit colour) s

end Sys2Proof.Machine
end

