-- ==== Sys2Proof/Machine/Lzw.lean ====
section
/-! DEFINITION. The LZW engine (42_lzw.md R180 to R188): the dictionary, the decode loop, and
`LZW_DECODE`. -/

namespace Sys2Proof.Machine

/-- `CLEAR = 2^m` (R181). -/
def clearCode (m : Nat) : Nat := 2 ^ m

/-- `EOI = 2^m + 1` (R181). -/
def eoiCode (m : Nat) : Nat := 2 ^ m + 1

/-- The dictionary after initialisation (R182). -/
def dictInit (m : Nat) : LzwDict := ⟨m, [], m + 1, none⟩

/-- The next free code (R181, R182): `2^m + 2`, and one more for each added string. -/
def dictNext (d : LzwDict) : Nat := 2 ^ d.minsize + 2 + d.added.length

/-- `D[code]`: the literal codes are one-byte strings, the added ones follow `EOI`; `CLEAR` and
`EOI` hold no string (R182). -/
def dictEntry (d : LzwDict) (code : Nat) : List Byte :=
  if code < 2 ^ d.minsize then [BitVec.ofNat 8 code]
  else if code < 2 ^ d.minsize + 2 then []
  else (d.added[code - (2 ^ d.minsize + 2)]?).getD []

/-- `D[next] <- string; next <- next + 1` (R184). -/
def dictAdd (d : LzwDict) (string : List Byte) : LzwDict := { d with added := d.added ++ [string] }

/-- The string a code stands for and the dictionary with the entry it adds, or `none` for a code
that cannot come from the encoder (R184, R186). `CLEAR` and `EOI` do not come here. -/
def dictStep (d : LzwDict) (code : Nat) : Option (List Byte × LzwDict) :=
  match d.prev with
  | none => if clearCode d.minsize ≤ code then none else some (dictEntry d code, d)
  | some p =>
    if code < dictNext d then
      let string := dictEntry d code
      some (string, if dictNext d < 4096 then dictAdd d (dictEntry d p ++ string.take 1) else d)
    else if code = dictNext d ∧ dictNext d < 4096 then
      let string := dictEntry d p ++ (dictEntry d p).take 1
      some (string, dictAdd d string)
    else none

/-- Width growth and `prev <- code`, after the code's string is emitted (R184, R185). -/
def dictAfter (d : LzwDict) (code : Nat) : LzwDict :=
  { d with
    width := if dictNext d = 2 ^ d.width ∧ d.width < 12 then d.width + 1 else d.width
    prev := some code }

/-- The decode loop's variables: dictionary, output so far, codes read, cursor (R184). -/
structure LzwRun where
  dict : LzwDict
  out : List Byte
  ncodes : Nat
  cursor : Nat
deriving DecidableEq, Repr, Inhabited

/-- How the decode loop ends: at `EOI` with the whole output, or with an error after the output it
has emitted. -/
inductive LzwEnd where
  | done (r : LzwRun)
  | raised (r : LzwRun) (e : ErrInfo)
deriving DecidableEq, Repr

/-- The LZW errors (R303): position after the code, column the output bytes so far. -/
def lzwError (b col value : Nat) : ErrInfo := ⟨.invalidStructure, b / 8, 0, col, value, b⟩

/-- The decode loop (R184 to R187) for `len` output bytes. Each code takes at least one bit, so a
loop without fuel is at the end of the input. -/
def lzwLoop (s : State) (m len : Nat) : Nat → LzwRun → LzwEnd
  | 0, r => .raised r (endOfInput s 0 r.out.length r.cursor)
  | fuel + 1, r =>
    match readBitsLSB s r.dict.width r.cursor with
    | none => .raised r (endOfInput s 0 r.out.length r.cursor)
    | some (code, b) =>
      let r1 := { r with ncodes := r.ncodes + 1, cursor := b }
      if code = clearCode m then lzwLoop s m len fuel { r1 with dict := dictInit m }
      else if code = eoiCode m then
        if r.out.length = len then .done r1
        else .raised r1 (lzwError b r.out.length r.out.length)
      else match dictStep r.dict code with
        | none => .raised r1 (lzwError b r.out.length code)
        | some (string, d) =>
          if r.out.length + string.length > len then
            .raised { r1 with out := r.out ++ string.take (len - r.out.length) }
              (lzwError b len code)
          else
            lzwLoop s m len fuel
              { r1 with dict := dictAfter d code, out := r.out ++ string }

/-- The whole decode from the cursor of the state (R184). -/
def lzwDecode (s : State) : LzwEnd :=
  lzwLoop s (minsizeOf s) s.regs.dstLen.toNat (s.engine.stop - s.engine.cursor)
    ⟨dictInit (minsizeOf s), [], 0, s.engine.cursor⟩

/-- The output of an LZW unit: the bytes emitted, which `OUT_COUNT` counts (R137, R184). -/
def lzwStore (out : List Byte) (s : State) : State :=
  { s with
    mem := writeBytes s.mem s.regs.dstAddr.toNat out
    results := { s.results with outCount := regOf out.length } }

/-- The unit of `LZW_DECODE` (R188). After an error the emitted prefix is exact and the rest of the
output window unspecified (R136, R137). -/
def lzwUnit (_u : Nat) (s : State) : UnitOutcome :=
  match lzwDecode s with
  | .done r =>
    let s1 := lzwStore r.out s
    .done { s1 with
      results := { s1.results with
        result0 := regOf r.ncodes
        result1 := regOf r.dict.width
        result2 := regOf (dictNext r.dict) }
      engine := { s1.engine with cursor := r.cursor } }
  | .raised r e =>
    let s1 := lzwStore r.out s
    .raised { s1 with
      mem := freeRegion s1.epoch s1.mem (s.regs.dstAddr.toNat + r.out.length)
        (s.regs.dstLen.toNat - r.out.length) } e

/-- `LZW_DECODE` (R188). -/
def execLzwDecode (s : State) : Host.Outcome State Fault Refusal :=
  commandStep (shapeOf .lzwDecode s) lzwUnit s

end Sys2Proof.Machine
end

