-- ==== Sys2Proof/Machine/Palette.lean ====
section
/-! DEFINITION. The palette commands (47_palette.md): clamping R267, the index check R268, and
`PAL_WRITE`, `PAL_READ`, `PAL_LOOKUP`, `PAL_LOAD`, `PAL_ATTACH`, `PAL_RESET` (R270 to R275). The
lock is checked by the shared validation (R122 step 5, R269). -/

namespace Sys2Proof.Machine

/-- A sample as it is stored: `min(v, PAL_MAX)` (R267). -/
def clampSample (max v : Byte) : Byte := if v.toNat ≤ max.toNat then v else max

/-- An entry as it is stored (R267). -/
def clampRgb (max : Byte) (e : Rgb) : Rgb :=
  ⟨clampSample max e.r, clampSample max e.g, clampSample max e.b⟩

/-- An entry as a 24-bit value (R266). -/
def rgbWord (e : Rgb) : Word := (e.r ++ e.g ++ e.b).setWidth 32

/-- The index check of `PAL_WRITE` and `PAL_READ` (R268). -/
def indexError (s : State) : ErrInfo :=
  ⟨.invalidStructure, 0, 0, 0, indexOf s, s.engine.cursor⟩

/-- The unit of `PAL_WRITE` (R270). -/
def palWriteUnit (_u : Nat) (s : State) : UnitOutcome :=
  if palSizeOf s ≤ indexOf s then .raised s (indexError s)
  else .done { s with pal := storeSet s.pal (indexOf s) (clampRgb s.palCfg.max (argRgb s)) }

/-- `PAL_WRITE` (R270). -/
def execPalWrite (s : State) : Host.Outcome State Fault Refusal :=
  commandStep (shapeOf .palWrite s) palWriteUnit s

/-- The unit of `PAL_READ` (R271). -/
def palReadUnit (_u : Nat) (s : State) : UnitOutcome :=
  if palSizeOf s ≤ indexOf s then .raised s (indexError s)
  else .done { s with results := { s.results with result0 := rgbWord (palGet s (indexOf s)) } }

/-- `PAL_READ` (R271). -/
def execPalRead (s : State) : Host.Outcome State Fault Refusal :=
  commandStep (shapeOf .palRead s) palReadUnit s

/-- The entries of the next `n` index bytes as r, g, b bytes; `i` is the next pixel (R272). -/
def lookupLoop (s : State) : Nat → Nat → Nat → Except ErrInfo (List Byte × Nat)
  | 0, _, b => .ok ([], b)
  | n + 1, i, b =>
    match readByte s b with
    | none => .error (endOfInput s 0 i b)
    | some (k, b') =>
      if palSizeOf s ≤ k.toNat then .error ⟨.invalidStructure, b / 8, 0, i, k.toNat, b'⟩
      else match lookupLoop s n (i + 1) b' with
        | .error e => .error e
        | .ok (bytes, b'') =>
          let e := palGet s k.toNat
          .ok (e.r :: e.g :: e.b :: bytes, b'')

/-- The unit of `PAL_LOOKUP` (R272). After an error the output window is unspecified (R136). -/
def palLookupUnit (_u : Nat) (s : State) : UnitOutcome :=
  let w := s.regs.width.toNat
  match lookupLoop s w 0 s.engine.cursor with
  | .error e =>
    .raised { s with mem := freeRegion s.epoch s.mem s.regs.dstAddr.toNat (3 * w) } e
  | .ok (bytes, b) =>
    .done { s with
      mem := writeBytes s.mem s.regs.dstAddr.toNat bytes
      results := { s.results with outCount := regOf (3 * w) }
      engine := { s.engine with cursor := b } }

/-- `PAL_LOOKUP` (R272). -/
def execPalLookup (s : State) : Host.Outcome State Fault Refusal :=
  commandStep (shapeOf .palLookup s) palLookupUnit s

/-- Bytes in r, g, b order as `n` clamped entries (R266, R267, R273). -/
def entriesOf (max : Byte) : Nat → List Byte → List Rgb
  | 0, _ => []
  | n + 1, bytes =>
    clampRgb max ⟨(bytes[0]?).getD 0, (bytes[1]?).getD 0, (bytes[2]?).getD 0⟩
      :: entriesOf max n (bytes.drop 3)

/-- The unit of `PAL_LOAD` (R273): the whole input is there, or no entry is written. -/
def palLoadUnit (_u : Nat) (s : State) : UnitOutcome :=
  match readBytes s (3 * palSizeOf s) s.engine.cursor with
  | .error _ => .raised s (endOfInput s 0 0 s.engine.cursor)
  | .ok (bytes, b) =>
    .done { s with
      pal := palFill s.pal 0 (entriesOf s.palCfg.max (palSizeOf s) bytes)
      engine := { s.engine with cursor := b } }

/-- `PAL_LOAD` (R273). -/
def execPalLoad (s : State) : Host.Outcome State Fault Refusal :=
  commandStep (shapeOf .palLoad s) palLoadUnit s

/-- The unit of `PAL_ATTACH` (R274). -/
def palAttachUnit (_u : Nat) (s : State) : UnitOutcome :=
  .done { s with palCfg := { s.palCfg with locked := true } }

/-- `PAL_ATTACH` (R274). -/
def execPalAttach (s : State) : Host.Outcome State Fault Refusal :=
  commandStep (shapeOf .palAttach s) palAttachUnit s

/-- The unit of `PAL_RESET` (R275): every one of the 256 entries is black, and the lock is off. -/
def palResetUnit (_u : Nat) (s : State) : UnitOutcome :=
  .done { s with
    pal := (List.range 256).map fun k => (k, ⟨0, 0, 0⟩)
    palCfg := { s.palCfg with locked := false } }

/-- `PAL_RESET` (R275). -/
def execPalReset (s : State) : Host.Outcome State Fault Refusal :=
  commandStep (shapeOf .palReset s) palResetUnit s

end Sys2Proof.Machine
end

