-- ==== Sys2Proof/Machine/Png.lean ====
section
/-! DEFINITION. The PNG scanline filter engine (44_png_filter.md): the predictors R224 to R228, the
row R222, R223, R230, R231, the filter type byte R229, and the commands `PNG_UNFILTER`, `PNG_NONE`,
`PNG_SUB`, `PNG_UP`, `PNG_AVG`, `PNG_PAETH` (R232 to R237). -/

namespace Sys2Proof.Machine

/-- The filter types 0 to 4 (R224 to R228). -/
inductive PngFilter where
  | none
  | sub
  | up
  | average
  | paeth
deriving DecidableEq, Repr, Inhabited

/-- The filter of a type byte, where there is one (R229). -/
def filterOfType (t : Nat) : Option PngFilter :=
  match t with
  | 0 => some .none
  | 1 => some .sub
  | 2 => some .up
  | 3 => some .average
  | 4 => some .paeth
  | _ => Option.none

/-- The Paeth predictor: the neighbour nearest to `a + b - c`, ties to `a`, then `b` (R228). -/
def paeth (a b c : Nat) : Nat :=
  let p : Int := (a : Int) + b - c
  let pa := (p - a).natAbs
  let pb := (p - b).natAbs
  let pc := (p - c).natAbs
  if pa ≤ pb ∧ pa ≤ pc then a else if pb ≤ pc then b else c

/-- `Pred(t, a, b, c)` (R224 to R228). -/
def pngPred (t : PngFilter) (a b c : Byte) : Nat :=
  match t with
  | .none => 0
  | .sub => a.toNat
  | .up => b.toNat
  | .average => (a.toNat + b.toNat) / 2
  | .paeth => paeth a.toNat b.toNat c.toNat

/-- `Recon(t, x, a, b, c) = (x + Pred(t, a, b, c)) mod 256` (R223). -/
def pngRecon (t : PngFilter) (x a b c : Byte) : Byte :=
  BitVec.ofNat 8 ((x.toNat + pngPred t a b c) % 256)

/-- The byte `bpp` places back among the bytes already seen, latest first; 0 before the row's start
(R222). `bpp` is at least 1 (R221). -/
def bytesBack (bpp : Nat) (seen : List Byte) : Byte := (seen[bpp - 1]?).getD 0

/-- The reconstruction of a row, byte by byte in rising order (R222, R231): filtered bytes, the
prior row, and the reconstructed and the prior bytes already passed, latest first. -/
def reconRow (t : PngFilter) (bpp : Nat) : List Byte → List Byte → List Byte → List Byte → List Byte
  | [], _, _, _ => []
  | x :: xs, prior, seen, priorSeen =>
    let b := prior.headD 0
    let y := pngRecon t x (bytesBack bpp seen) b (bytesBack bpp priorSeen)
    y :: reconRow t bpp xs prior.tail (y :: seen) (b :: priorSeen)

/-- `Prior(r)` (R230): zeros, the bytes at `PRV_ADDR`, or the output row before. -/
def priorRow (first : Bool) (s : State) (r : Nat) : List Byte :=
  if r = 0 then
    if first then List.replicate s.regs.dstLen.toNat 0
    else readRange s s.regs.prvAddr.toNat s.regs.dstLen.toNat
  else readRange s (rowAddr s (r - 1)) s.regs.dstLen.toNat

/-- The row unit with a filter that is known, from cursor `b` (R231). -/
def filterRow (t : PngFilter) (first : Bool) (s : State) (r b : Nat) :
    Except ErrInfo (List Byte × Nat) :=
  match readBytes s s.regs.dstLen.toNat b with
  | .error i => .error (endOfInput s r i (b + 8 * i))
  | .ok (xs, b') => .ok (reconRow t (bppOf s) xs (priorRow first s r) [] [], b')

/-- The row unit that reads its filter type byte first (R229, R231). Where the input ends at the
type byte itself no rule states `ERR_COL`: the column is a free value, a DESIGN CHOICE (safe, log
entry 18). -/
def typedRow (first : Bool) (s : State) (r b : Nat) : Except ErrInfo (List Byte × Nat) :=
  match readByte s b with
  | none => .error (endOfInput s r (Config.typeByteCol s.epoch).toNat b)
  | some (t, b') =>
    match filterOfType t.toNat with
    | none => .error ⟨.invalidStructure, b / 8, r, 0, t.toNat, b'⟩
    | some filter => filterRow filter first s r b'

/-- The unit of the fixed-filter commands (R233). -/
def fixedFilterUnit (t : PngFilter) (first : Bool) (u : Nat) (s : State) : UnitOutcome :=
  rowUnit s.regs.dstLen.toNat u (filterRow t first s u s.engine.cursor) s

/-- The unit of `PNG_UNFILTER` (R232). -/
def unfilterUnit (first : Bool) (u : Nat) (s : State) : UnitOutcome :=
  rowUnit s.regs.dstLen.toNat u (typedRow first s u s.engine.cursor) s

/-- `PNG_UNFILTER` (R232). -/
def execPngUnfilter (first : Bool) (s : State) : Host.Outcome State Fault Refusal :=
  commandStep (shapeOf (.pngUnfilter first) s) (unfilterUnit first) s

/-- `PNG_NONE` (R233). -/
def execPngNone (first : Bool) (s : State) : Host.Outcome State Fault Refusal :=
  commandStep (shapeOf (.pngNone first) s) (fixedFilterUnit .none first) s

/-- `PNG_SUB` (R234). -/
def execPngSub (first : Bool) (s : State) : Host.Outcome State Fault Refusal :=
  commandStep (shapeOf (.pngSub first) s) (fixedFilterUnit .sub first) s

/-- `PNG_UP` (R235). -/
def execPngUp (first : Bool) (s : State) : Host.Outcome State Fault Refusal :=
  commandStep (shapeOf (.pngUp first) s) (fixedFilterUnit .up first) s

/-- `PNG_AVG` (R236). -/
def execPngAvg (first : Bool) (s : State) : Host.Outcome State Fault Refusal :=
  commandStep (shapeOf (.pngAvg first) s) (fixedFilterUnit .average first) s

/-- `PNG_PAETH` (R237). -/
def execPngPaeth (first : Bool) (s : State) : Host.Outcome State Fault Refusal :=
  commandStep (shapeOf (.pngPaeth first) s) (fixedFilterUnit .paeth first) s

end Sys2Proof.Machine
end

