-- ==== Sys2Proof/Machine/RunLength.lean ====
section
/-! DEFINITION. The run-length engine (43_run_length.md): the row framework R200, the packets R201,
R202, R204, and the commands `PACKBITS`, `BYTERUN1`, `PALM_RLE` (R205 to R207). -/

namespace Sys2Proof.Machine

/-- What a control byte asks for (R201, R202, R204). -/
inductive Packet where
  | literal (length : Nat)
  | repeated (length : Nat)
  | noop
  | refused
deriving DecidableEq, Repr, Inhabited

/-- A PackBits control byte, read as a two's-complement number (R201). -/
def packbitsPacket (n : Byte) : Packet :=
  if 0 ≤ n.toInt then .literal (n.toInt + 1).toNat
  else if n.toInt = -128 then .noop
  else .repeated (1 - n.toInt).toNat

/-- An IFF ByteRun1 control byte, read unsigned (R202). -/
def byterun1Packet (n : Byte) : Packet :=
  if n.toNat < 128 then .literal (n.toNat + 1)
  else if n.toNat = 128 then .noop
  else .repeated (257 - n.toNat)

/-- A Palm count byte (R204). -/
def palmPacket (n : Byte) : Packet := if n.toNat = 0 then .refused else .repeated n.toNat

/-- A run-length error: the control byte's address, the bytes of the row so far, the control
byte (R200, R204). -/
def packetError (b row count : Nat) (control : Byte) (cursor : Nat) : ErrInfo :=
  ⟨.invalidStructure, b / 8, row, count, control.toNat, cursor⟩

/-- The row loop of R200 for `rb` bytes: `out` are the row's bytes so far. A packet that does not
fit is refused before its data is read. Each packet takes at least one byte, so a loop without
fuel is at the end of the input. -/
def packetLoop (s : State) (packet : Byte → Packet) (rb row : Nat) :
    Nat → List Byte → Nat → Except ErrInfo (List Byte × Nat)
  | fuel, out, b =>
    if rb ≤ out.length then .ok (out, b)
    else match fuel with
      | 0 => .error (endOfInput s row out.length b)
      | fuel + 1 =>
        match readByte s b with
        | none => .error (endOfInput s row out.length b)
        | some (control, b1) =>
          match packet control with
          | .noop => packetLoop s packet rb row fuel out b1
          | .refused => .error (packetError b row out.length control b1)
          | .literal length =>
            if out.length + length > rb then .error (packetError b row out.length control b1)
            else match readBytes s length b1 with
              | .error k => .error (endOfInput s row out.length (b1 + 8 * k))
              | .ok (bytes, b2) => packetLoop s packet rb row fuel (out ++ bytes) b2
          | .repeated length =>
            if out.length + length > rb then .error (packetError b row out.length control b1)
            else match readByte s b1 with
              | none => .error (endOfInput s row out.length b1)
              | some (v, b2) =>
                packetLoop s packet rb row fuel (out ++ List.replicate length v) b2

/-- One row of a run-length command (R200). -/
def runLengthRow (s : State) (packet : Byte → Packet) (row b : Nat) :
    Except ErrInfo (List Byte × Nat) :=
  packetLoop s packet s.regs.dstLen.toNat row (s.engine.stop - b) [] b

/-- The unit of the run-length commands (R200). -/
def runLengthUnit (packet : Byte → Packet) (u : Nat) (s : State) : UnitOutcome :=
  rowUnit s.regs.dstLen.toNat u (runLengthRow s packet u s.engine.cursor) s

/-- `PACKBITS` (R205). -/
def execPackbits (s : State) : Host.Outcome State Fault Refusal :=
  commandStep (shapeOf .packbits s) (runLengthUnit packbitsPacket) s

/-- `BYTERUN1` (R206). -/
def execByterun1 (s : State) : Host.Outcome State Fault Refusal :=
  commandStep (shapeOf .byterun1 s) (runLengthUnit byterun1Packet) s

/-- `PALM_RLE` (R207). -/
def execPalmRle (s : State) : Host.Outcome State Fault Refusal :=
  commandStep (shapeOf .palmRle s) (runLengthUnit palmPacket) s

end Sys2Proof.Machine
end

