-- ==== Sys2Proof/Machine/Dispatch.lean ====
section
/-! DEFINITION. The meaning of every command, by constructor: one engine step of the command in the
phase the engine is in (10_state.md R20, 40_command_cycle.md R122, R124). -/

namespace Sys2Proof.Machine

def exec (i : Instr) (s : State) : Host.Outcome State Fault Refusal :=
  match i with
  | .nop => Sys2Proof.Machine.execNop s
  | .mhRows byteOut align => Sys2Proof.Machine.execMhRows byteOut align s
  | .mhRun colour => Sys2Proof.Machine.execMhRun colour s
  | .mhCode colour => Sys2Proof.Machine.execMhCode colour s
  | .lzwDecode => Sys2Proof.Machine.execLzwDecode s
  | .packbits => Sys2Proof.Machine.execPackbits s
  | .byterun1 => Sys2Proof.Machine.execByterun1 s
  | .palmRle => Sys2Proof.Machine.execPalmRle s
  | .pngUnfilter first => Sys2Proof.Machine.execPngUnfilter first s
  | .pngNone first => Sys2Proof.Machine.execPngNone first s
  | .pngSub first => Sys2Proof.Machine.execPngSub first s
  | .pngUp first => Sys2Proof.Machine.execPngUp first s
  | .pngAvg first => Sys2Proof.Machine.execPngAvg first s
  | .pngPaeth first => Sys2Proof.Machine.execPngPaeth first s
  | .adam7Geom => Sys2Proof.Machine.execAdam7Geom s
  | .adam7Scatter => Sys2Proof.Machine.execAdam7Scatter s
  | .cmykToRgb planar => Sys2Proof.Machine.execCmykToRgb planar s
  | .palWrite => Sys2Proof.Machine.execPalWrite s
  | .palRead => Sys2Proof.Machine.execPalRead s
  | .palLookup => Sys2Proof.Machine.execPalLookup s
  | .palLoad => Sys2Proof.Machine.execPalLoad s
  | .palAttach => Sys2Proof.Machine.execPalAttach s
  | .palReset => Sys2Proof.Machine.execPalReset s

end Sys2Proof.Machine
end

