-- ==== Sys2Proof/WellFormed.lean ====
section
/-! DEFINITION. When a command word, and when an instruction, is well-formed: the opcode is one of
R101, every `MODE` bit it does not name is 0 (R102) and bits [31:12] are 0 (R103). A word that
fails one of the three checks is illegal (R106). -/

namespace Sys2Proof

/-- Why a command word is illegal (30_encoding.md R106), one name per check. -/
inductive Illegal where
  /-- bits [31:12] are not all 0 (R103) -/
  | reservedBits
  /-- the opcode is not in the map (R101) -/
  | reservedOpcode
  /-- a `MODE` bit the opcode does not name is 1 (R102) -/
  | reservedMode
deriving DecidableEq, Repr, Inhabited

/-- The `MODE` bits each opcode names (R102), `none` for a reserved opcode (R101, R106). -/
def modeMask (op : Nat) : Option (BitVec 4) :=
  if op = 0x10 then some 0b0011
  else if op = 0x11 ∨ op = 0x12 then some 0b0001
  else if 0x40 ≤ op ∧ op ≤ 0x45 then some 0b0001
  else if op = 0x60 then some 0b0001
  else if op = 0x00 ∨ op = 0x20 ∨ (0x30 ≤ op ∧ op ≤ 0x32) ∨ (0x50 ≤ op ∧ op ≤ 0x51)
      ∨ (0x70 ≤ op ∧ op ≤ 0x75) then some 0b0000
  else none

/-- The first check of R106 that a command word fails. -/
def wordFault (w : Word) : Option Illegal :=
  if w.extractLsb' 12 20 ≠ 0 then some .reservedBits
  else match modeMask (w.extractLsb' 0 8).toNat with
    | none => some .reservedOpcode
    | some mask =>
      if w.extractLsb' 8 4 &&& ~~~mask ≠ 0 then some .reservedMode else none

/-- A legal command word (R106, R107). -/
def legalWord (w : Word) : Bool := (wordFault w).isNone

/-- The opcode of each command (R101). -/
def Instr.opcode : Instr → BitVec 8
  | .nop => 0x00
  | .mhRows _ _ => 0x10
  | .mhRun _ => 0x11
  | .mhCode _ => 0x12
  | .lzwDecode => 0x20
  | .packbits => 0x30
  | .byterun1 => 0x31
  | .palmRle => 0x32
  | .pngUnfilter _ => 0x40
  | .pngNone _ => 0x41
  | .pngSub _ => 0x42
  | .pngUp _ => 0x43
  | .pngAvg _ => 0x44
  | .pngPaeth _ => 0x45
  | .adam7Geom => 0x50
  | .adam7Scatter => 0x51
  | .cmykToRgb _ => 0x60
  | .palWrite => 0x70
  | .palRead => 0x71
  | .palLookup => 0x72
  | .palLoad => 0x73
  | .palAttach => 0x74
  | .palReset => 0x75

/-- The `COLOUR` flag: 0 white, 1 black (R102). -/
def Colour.flag : Colour → Bool
  | .white => false
  | .black => true

/-- The `MODE` nibble of each command (R102): `MODE[0]` and, for `MH_ROWS` alone, `MODE[1]`. -/
def Instr.mode : Instr → BitVec 4
  | .nop => 0
  | .mhRows byteOut align => BitVec.ofBool align ++ BitVec.ofBool byteOut |>.setWidth 4
  | .mhRun colour => (BitVec.ofBool colour.flag).setWidth 4
  | .mhCode colour => (BitVec.ofBool colour.flag).setWidth 4
  | .lzwDecode => 0
  | .packbits => 0
  | .byterun1 => 0
  | .palmRle => 0
  | .pngUnfilter first => (BitVec.ofBool first).setWidth 4
  | .pngNone first => (BitVec.ofBool first).setWidth 4
  | .pngSub first => (BitVec.ofBool first).setWidth 4
  | .pngUp first => (BitVec.ofBool first).setWidth 4
  | .pngAvg first => (BitVec.ofBool first).setWidth 4
  | .pngPaeth first => (BitVec.ofBool first).setWidth 4
  | .adam7Geom => 0
  | .adam7Scatter => 0
  | .cmykToRgb planar => (BitVec.ofBool planar).setWidth 4
  | .palWrite => 0
  | .palRead => 0
  | .palLookup => 0
  | .palLoad => 0
  | .palAttach => 0
  | .palReset => 0

/-- A well-formed instruction: its opcode is in the map and its `MODE` nibble has only bits that
the opcode names. Every term of `Instr` is one, because the flags are its only operands
(R104: commands take no immediates). -/
def Instr.wf (i : Instr) : Bool :=
  match modeMask i.opcode.toNat with
  | none => false
  | some mask => i.mode &&& ~~~mask == 0

end Sys2Proof
end

