-- ==== Sys2Proof/Decode.lean ====
section
/-! DEFINITION. The decoder of the 32-bit command word (30_encoding.md R100 to R103, R106) and the
encoder beside it (R108: the word is `OP | (MODE << 8)`). The only command format is the word in
`CMD`; nothing is fetched from memory (20_memory.md R70). -/

namespace Sys2Proof

/-- A command that names no `MODE` bit. -/
def decodeNoFlags (mode : BitVec 4) (i : Instr) : Except Illegal Instr :=
  if mode = 0 then .ok i else .error .reservedMode

/-- A command that names `MODE[0]` alone. -/
def decodeOneFlag (mode : BitVec 4) (make : Bool → Instr) : Except Illegal Instr :=
  if mode.extractLsb' 1 3 = 0 then .ok (make (mode.getLsbD 0)) else .error .reservedMode

/-- A command that names `MODE[0]` and `MODE[1]`. -/
def decodeTwoFlags (mode : BitVec 4) (make : Bool → Bool → Instr) : Except Illegal Instr :=
  if mode.extractLsb' 2 2 = 0 then .ok (make (mode.getLsbD 0) (mode.getLsbD 1))
  else .error .reservedMode

/-- `COLOUR`: 0 white, 1 black (R102). -/
def colourOf (flag : Bool) : Colour := if flag then .black else .white

/-- The opcode map R101 with the flags of R102. -/
def decodeOp (op : Nat) (mode : BitVec 4) : Except Illegal Instr :=
  match op with
  | 0x00 => decodeNoFlags mode .nop
  | 0x10 => decodeTwoFlags mode .mhRows
  | 0x11 => decodeOneFlag mode fun f => .mhRun (colourOf f)
  | 0x12 => decodeOneFlag mode fun f => .mhCode (colourOf f)
  | 0x20 => decodeNoFlags mode .lzwDecode
  | 0x30 => decodeNoFlags mode .packbits
  | 0x31 => decodeNoFlags mode .byterun1
  | 0x32 => decodeNoFlags mode .palmRle
  | 0x40 => decodeOneFlag mode .pngUnfilter
  | 0x41 => decodeOneFlag mode .pngNone
  | 0x42 => decodeOneFlag mode .pngSub
  | 0x43 => decodeOneFlag mode .pngUp
  | 0x44 => decodeOneFlag mode .pngAvg
  | 0x45 => decodeOneFlag mode .pngPaeth
  | 0x50 => decodeNoFlags mode .adam7Geom
  | 0x51 => decodeNoFlags mode .adam7Scatter
  | 0x60 => decodeOneFlag mode .cmykToRgb
  | 0x70 => decodeNoFlags mode .palWrite
  | 0x71 => decodeNoFlags mode .palRead
  | 0x72 => decodeNoFlags mode .palLookup
  | 0x73 => decodeNoFlags mode .palLoad
  | 0x74 => decodeNoFlags mode .palAttach
  | 0x75 => decodeNoFlags mode .palReset
  | _ => .error .reservedOpcode

/-- Decode any 32-bit word: one command, or illegal under the name of the check it fails
(R106, R107). -/
def decode (w : Word) : Except Illegal Instr :=
  if w.extractLsb' 12 20 ≠ 0 then .error .reservedBits
  else decodeOp (w.extractLsb' 0 8).toNat (w.extractLsb' 8 4)

/-- The command word of an instruction: `OP` in [7:0], `MODE` in [11:8], the rest 0 (R100). -/
def encode (i : Instr) : Word := (i.mode ++ i.opcode).setWidth 32

/-- The instruction that the decoder reads from the low `nbits` bits of `w`; every bit above them
is 0. The block has one 32-bit word and no byte order for it: it is a register value (R74). -/
def decodeTableWord (nbits w : Nat) : Option Instr :=
  match decode (BitVec.ofNat 32 (w % 2 ^ nbits)) with
  | .ok i => some i
  | .error _ => none

end Sys2Proof
end

