-- ==== Sys2Proof/Machine/HostPort.lean ====
section
/-! DEFINITION. The host port: the address map and the access rules (20_memory.md R71 to R75), the
registers as the host reads and writes them (10_state.md R22 to R45), and the hazard of a write
into a window of the running command (70_reset_and_hazards.md R334). One host access is one atomic
step (20_memory.md R80). -/

namespace Sys2Proof.Machine

/-! ### Registers -/

/-- The registers of the map R23, in offset order. -/
def allRegs : List Reg :=
  [.id, .memsize, .ctrl, .status, .cmd, .srcAddr, .srcLen, .inBit, .dstAddr, .dstLen,
   .dstStride, .prvAddr, .width, .height, .rows]
  ++ [.param, .arg, .palCfg, .result0, .result1, .result2, .result3, .outCount, .progDone,
   .progTotal, .errPos, .errRow, .errCol, .errValue]

/-- The register at an offset; `none` at a reserved offset (R22). -/
def regAt (off : Nat) : Option Reg := allRegs.find? fun r => regOffset r == off

/-- What a read of `PAL_CFG` returns: [8:0] PAL_SIZE, [23:16] PAL_MAX, [31] PAL_LOCKED (R41). -/
def palCfgWord (p : PaletteConfig) : Word :=
  p.size.setWidth 32 ||| (p.max.setWidth 32 <<< 16) ||| ((BitVec.ofBool p.locked).setWidth 32 <<< 31)

/-- What a host read of a register returns (R22 to R45). No read has a side effect (R81). -/
def readReg (s : State) : Reg → Word
  | .id => 0x46434442
  | .memsize => BitVec.ofNat 32 s.cfg.memSize
  | .ctrl => ctrlWord s
  | .status => statusWord s
  | .cmd => s.regs.cmd
  | .srcAddr => s.regs.srcAddr
  | .srcLen => s.regs.srcLen
  | .inBit => s.regs.inBit.setWidth 32
  | .dstAddr => s.regs.dstAddr
  | .dstLen => s.regs.dstLen
  | .dstStride => s.regs.dstStride
  | .prvAddr => s.regs.prvAddr
  | .width => s.regs.width
  | .height => s.regs.height
  | .rows => s.regs.rows
  | .param => s.regs.param
  | .arg => s.regs.arg
  | .palCfg => palCfgWord s.palCfg
  | .result0 => s.results.result0
  | .result1 => s.results.result1
  | .result2 => s.results.result2
  | .result3 => s.results.result3
  | .outCount => s.results.outCount
  | .progDone => s.results.progDone
  | .progTotal => s.results.progTotal
  | .errPos => s.errors.pos
  | .errRow => s.errors.row
  | .errCol => s.errors.col
  | .errValue => s.errors.value

/-- A host write to `CTRL` (R26): a soft reset alone, or `IRQ_EN`, then `ABORT`, then `START`. -/
def writeCtrl (v : Word) (s : State) : State :=
  if v.getLsbD 3 then softReset s
  else
    let s1 := { s with irqEn := v.getLsbD 2 }
    let s2 := if v.getLsbD 1 && s1.busy then
        { s1 with engine := { s1.engine with abortReq := true } }
      else s1
    if v.getLsbD 0 && !s2.busy then startCommand s2 else s2

/-- A host write to the fields of `PAL_CFG`, where it is not ignored (R41): an illegal size leaves
`PAL_SIZE` unchanged; `PAL_LOCKED` is read-only. -/
def palCfgWritten (p : PaletteConfig) (v : Word) : PaletteConfig where
  size := if 1 ≤ v.extractLsb' 0 9 ∧ v.extractLsb' 0 9 ≤ 256 then v.extractLsb' 0 9 else p.size
  max := v.extractLsb' 16 8
  locked := p.locked

/-- A host write to `CMD` or an operand register, where it is not ignored (R23); reserved bits are
dropped (R22). Every other register is left as it is. -/
def operandWritten (o : OperandRegs) (r : Reg) (v : Word) : OperandRegs :=
  match r with
  | .cmd => { o with cmd := v }
  | .srcAddr => { o with srcAddr := v }
  | .srcLen => { o with srcLen := v }
  | .inBit => { o with inBit := v.extractLsb' 0 3 }
  | .dstAddr => { o with dstAddr := v }
  | .dstLen => { o with dstLen := v }
  | .dstStride => { o with dstStride := v }
  | .prvAddr => { o with prvAddr := v }
  | .width => { o with width := v }
  | .height => { o with height := v }
  | .rows => { o with rows := v }
  | .param => { o with param := v }
  | .arg => { o with arg := v }
  | _ => o

/-- A host write to a register (R22, R23): `CTRL` and `STATUS` at all times; `CMD`, the operands and
`PAL_CFG` only while `BUSY` is 0, `PAL_CFG` only while it is not locked; a read-only register
ignores the write. -/
def writeReg (r : Reg) (v : Word) (s : State) : State :=
  match r with
  | .ctrl => writeCtrl v s
  | .status => acknowledge v s
  | .palCfg =>
    if s.busy || s.palCfg.locked then s else { s with palCfg := palCfgWritten s.palCfg v }
  | _ => if s.busy then s else { s with regs := operandWritten s.regs r v }

/-! ### BUF -/

/-- The bytes of an access width. -/
def widthBytes : AccessWidth → Nat
  | .w8 => 1
  | .w16 => 2
  | .w32 => 4

/-- The host offset of BUF (R71). -/
def bufBase : Nat := 0x10000

/-- The access is to BUF: naturally aligned and inside it (R71, R73). -/
def bufAccessOk (s : State) (w : AccessWidth) (off : Nat) : Bool :=
  decide (bufBase ≤ off) && decide (off % widthBytes w = 0) &&
  decide (off - bufBase + widthBytes w ≤ s.cfg.memSize)

/-- The access is to the register region: 32 bits wide and aligned (R71, R72). -/
def regAccessOk (w : AccessWidth) (off : Nat) : Bool :=
  decide (off < 0x100) && decide (w = .w32) && decide (off % 4 = 0)

/-- The value of bytes in address order, the lowest address in bits [7:0] (R74). -/
def littleEndian : List Byte → Nat
  | [] => 0
  | b :: bs => b.toNat + 256 * littleEndian bs

/-- The low `n` bytes of a value, the least significant first (R74). -/
def bytesOfWord (v : Word) (n : Nat) : List Byte :=
  (List.range n).map fun k => v.extractLsb' (8 * k) 8

/-- What the command in the engine asks of the cycle, where it is a legal one. -/
def runningShape (s : State) : Option Shape :=
  match decode s.engine.lcmd with
  | .ok i => some (shapeOf i s)
  | .error _ => none

/-- The address is in a window of the running command (R334). -/
def inRunningWindow (s : State) (a : Nat) : Bool :=
  s.busy && (match runningShape s with
    | some sh => touchesWindow sh s a
    | none => false)

/-- A host write of bytes to BUF; a byte in a window of the running command is a hazard (R334). -/
def hostWriteBuf (a : Nat) (bytes : List Byte) (s : State) : State :=
  { s with
    mem := writeBytes s.mem a bytes
    hazard := s.hazard ++ (List.range' a bytes.length).filter (inRunningWindow s) }

/-! ### Accesses -/

/-- A host read of the offset: the register or the bytes of BUF, or a bus error with data 0 (R72 to
R75). A read of BUF ends its epoch, as it may draw bytes nothing has written (R82). -/
def hostRead (w : AccessWidth) (off : Nat) (s : State) : State :=
  if regAccessOk w off then
    let v := match regAt off with
      | some r => readReg s r
      | none => 0
    { s with response := some (.read v false) }
  else if bufAccessOk s w off then
    { s with
      response := some (.read
        (BitVec.ofNat 32 (littleEndian (readRange s (off - bufBase) (widthBytes w)))) false)
      epoch := s.epoch + 1 }
  else { s with response := some (.read 0 true) }

/-- A host write to the offset, or a bus error with no effect (R72 to R75). -/
def hostWrite (w : AccessWidth) (off : Nat) (v : Word) (s : State) : State :=
  if regAccessOk w off then
    let s1 := match regAt off with
      | some r => writeReg r v s
      | none => s
    { s1 with response := some (.write false) }
  else if bufAccessOk s w off then
    { hostWriteBuf (off - bufBase) (bytesOfWord v (widthBytes w)) s with
      response := some (.write false) }
  else { s with response := some (.write true) }

/-- The block's offset of a bus address (R71). -/
def hostOffset (s : State) (addr : Word) : Nat := (addr - s.cfg.base).toNat

/-- One host access (R80). -/
def hostAccess (a : Access) (s : State) : State :=
  match a.kind with
  | .read => hostRead a.width (hostOffset s a.addr) s
  | .write v => hostWrite a.width (hostOffset s a.addr) v s

/-- The bus address of a register. -/
def regBusAddr (cfg : Config) (r : Reg) : Word := cfg.base + BitVec.ofNat 32 (regOffset r)

/-- One turn of the host's `WAIT` (R110): a read of `STATUS`; while it reads `BUSY` = 1, the engine
moves and the host reads again (R339). `rest` is what the host does after the `WAIT`. -/
def hostPoll (rest : List HostEvent) (s : State) : State :=
  let s1 := hostAccess ⟨.w32, regBusAddr s.cfg .status, .read⟩ s
  { s1 with pending := if s.busy then .engine :: .poll :: rest else rest }

end Sys2Proof.Machine
end

