-- ==== Sys2Proof/Machine/Engine.lean ====
section
/-! DEFINITION. The turn of the engine (10_state.md R20): it decodes the word latched at `START`
(20_memory.md R88) and does one step of that command. -/

namespace Sys2Proof.Machine

/-- The engine's turn. An idle engine does nothing (R20); an illegal word completes with
`ILLEGAL_COMMAND` (R106, R122). -/
def engineTurn (s : State) : Host.Outcome State Fault Refusal :=
  match s.engine.phase with
  | .idle => .next s
  | _ =>
    match decode s.engine.lcmd with
    | .ok i => exec i s
    | .error _ => .next (illegalStep s)

/-- What happens at the block in one step, given what stands at the head of `pending`; with nothing
pending the engine moves (R20, R80, R339). -/
def turn (s : State) : Host.Outcome State Fault Refusal :=
  match s.pending with
  | [] => engineTurn s
  | .engine :: rest => engineTurn { s with pending := rest }
  | .access a :: rest => .next (hostAccess a { s with pending := rest })
  | .poll :: rest => .next (hostPoll rest s)
  | .hardReset :: rest => .next (hardwareReset { s with pending := rest })

/-- The word `w` is in `CMD`, and the host has just started it (R120): the engine's next step is the
first step of that command. -/
def startWord (w : Word) (s : State) : State :=
  startCommand { s with regs := { s.regs with cmd := w }, pending := [] }

end Sys2Proof.Machine
end

