-- ==== Sys2Proof/Machine/HostProgram.lean ====
section
/-! DEFINITION. The assembler of the command syntax (30_encoding.md R108) and the host-program
syntax with its pseudo-instructions (R109, R110), as the host events they stand for. -/

namespace Sys2Proof.Machine

/-- A command with the flags written, where each flag is one its opcode lists (R108). -/
def withFlags (flags allowed : List String) (i : Instr) : Option Instr :=
  if flags.all allowed.contains then some i else none

/-- The command `MNEMONIC[.flag]...`, given as the mnemonic and its flags in any order; a flag not
listed for the opcode is a syntax error (R108). -/
def assemble (mnemonic : String) (flags : List String) : Option Instr :=
  match mnemonic with
  | "NOP" => withFlags flags [] .nop
  | "MH_ROWS" =>
    withFlags flags ["byte", "align"] (.mhRows (flags.contains "byte") (flags.contains "align"))
  | "MH_RUN" => withFlags flags ["black"] (.mhRun (colourOf (flags.contains "black")))
  | "MH_CODE" => withFlags flags ["black"] (.mhCode (colourOf (flags.contains "black")))
  | "LZW_DECODE" => withFlags flags [] .lzwDecode
  | "PACKBITS" => withFlags flags [] .packbits
  | "BYTERUN1" => withFlags flags [] .byterun1
  | "PALM_RLE" => withFlags flags [] .palmRle
  | "PNG_UNFILTER" => withFlags flags ["first"] (.pngUnfilter (flags.contains "first"))
  | "PNG_NONE" => withFlags flags ["first"] (.pngNone (flags.contains "first"))
  | "PNG_SUB" => withFlags flags ["first"] (.pngSub (flags.contains "first"))
  | "PNG_UP" => withFlags flags ["first"] (.pngUp (flags.contains "first"))
  | "PNG_AVG" => withFlags flags ["first"] (.pngAvg (flags.contains "first"))
  | "PNG_PAETH" => withFlags flags ["first"] (.pngPaeth (flags.contains "first"))
  | "ADAM7_GEOM" => withFlags flags [] .adam7Geom
  | "ADAM7_SCATTER" => withFlags flags [] .adam7Scatter
  | "CMYK_TO_RGB" => withFlags flags ["planar"] (.cmykToRgb (flags.contains "planar"))
  | "PAL_WRITE" => withFlags flags [] .palWrite
  | "PAL_READ" => withFlags flags [] .palRead
  | "PAL_LOOKUP" => withFlags flags [] .palLookup
  | "PAL_LOAD" => withFlags flags [] .palLoad
  | "PAL_ATTACH" => withFlags flags [] .palAttach
  | "PAL_RESET" => withFlags flags [] .palReset
  | _ => none

/-- A line of a host program (R109, R110). -/
inductive HostLine where
  | wr (reg : Reg) (value : Word)
  | rd (reg : Reg)
  | wb (offset : Nat) (bytes : List Byte)
  | rb (offset n : Nat)
  | run (command : Word)
  | runi (command : Word)
  | wait
  | ack
  | abort
  | sreset
deriving DecidableEq, Repr, Inhabited

/-- A 32-bit host write to a register. -/
def writeEvent (cfg : Config) (r : Reg) (v : Word) : HostEvent :=
  .access ⟨.w32, regBusAddr cfg r, .write v⟩

/-- The bus address of a BUF byte (R71). -/
def bufBusAddr (cfg : Config) (a : Nat) : Word := cfg.base + BitVec.ofNat 32 (bufBase + a)

/-- The 8-bit writes of a byte list to consecutive BUF offsets. -/
def byteWrites (cfg : Config) (a : Nat) : List Byte → List HostEvent
  | [] => []
  | v :: vs => .access ⟨.w8, bufBusAddr cfg a, .write (v.setWidth 32)⟩ :: byteWrites cfg (a + 1) vs

/-- The host events a line stands for (R109, R110). -/
def lineEvents (cfg : Config) : HostLine → List HostEvent
  | .wr r v => [writeEvent cfg r v]
  | .rd r => [.access ⟨.w32, regBusAddr cfg r, .read⟩]
  | .wb a bytes => byteWrites cfg a bytes
  | .rb a n => (List.range n).map fun i => .access ⟨.w8, bufBusAddr cfg (a + i), .read⟩
  | .run c => [writeEvent cfg .cmd c, writeEvent cfg .ctrl 0x1]
  | .runi c => [writeEvent cfg .cmd c, writeEvent cfg .ctrl 0x5]
  | .wait => [.poll]
  | .ack => [writeEvent cfg .status 0xE]
  | .abort => [writeEvent cfg .ctrl 0x2]
  | .sreset => [writeEvent cfg .ctrl 0x8]

/-- The host events of a program. -/
def programEvents (cfg : Config) (lines : List HostLine) : List HostEvent :=
  lines.flatMap (lineEvents cfg)

end Sys2Proof.Machine
end

