-- ==== Sys2Proof/Machine/Step.lean ====
section
/-! DEFINITION. One step of the machine: a host access or an engine step, one at a time
(10_state.md R20, 20_memory.md R80). -/

namespace Sys2Proof.Machine

/-- One step of the machine. -/
def step (s : State) : Host.Outcome State Fault Refusal := turn s

/-- The state in which the command word `w` (its low `nbits` bits) is the very next thing to run:
the two host writes of `RUN` (30_encoding.md R110), to `CMD` and of `START` to `CTRL`, have been
made, and the engine has its turn. -/
def State.withFetchWord (s : State) (nbits w : Nat) : State :=
  startWord (BitVec.ofNat 32 (w % 2 ^ nbits)) s

end Sys2Proof.Machine
end

