-- ==== Sys2Proof/Safety.lean ====
section
/-! DEFINITION. The words that statements about the block use: when a step of a command is due, what
an input spells, what a command leaves, and which states are sound. Nothing of the machine depends
on this file. -/

namespace Sys2Proof.Machine

/-! ### When a step is due -/

/-- The validation step of a command is due, and the host has written into none of its windows. -/
structure AtValidation (s : State) : Prop where
  phase : s.engine.phase = .validate
  quiet : s.hazard = []

/-- Unit `u` of command `i` is due: the command is in `RUN(u)`, its registers pass the validation of
R122, it has such a unit (R123), and the host has written into none of its windows (R334). -/
structure AtUnit (i : Instr) (u : Nat) (s : State) : Prop where
  phase : s.engine.phase = .run u
  quiet : s.hazard = []
  valid : firstError (shapeOf i s) s = none
  due : u < (shapeOf i s).units

/-- The engine moves next (R20, R339). -/
def engineNext (s : State) : Prop := s.pending = [] ∨ ∃ rest, s.pending = .engine :: rest

/-! ### Host accesses to registers -/

/-- A 32-bit host write to a register. -/
def hostWriteReg (r : Reg) (v : Word) (s : State) : State :=
  hostAccess ⟨.w32, regBusAddr s.cfg r, .write v⟩ s

/-- A 32-bit host read of a register. -/
def hostReadReg (r : Reg) (s : State) : State :=
  hostAccess ⟨.w32, regBusAddr s.cfg r, .read⟩ s

/-- The value a register has after a reset (the reset column of R23, R332). -/
def resetValue (cfg : Config) : Reg → Word
  | .id => 0x46434442
  | .memsize => BitVec.ofNat 32 cfg.memSize
  | .palCfg => 0x00FF0100
  | _ => 0

/-- The registers that a host can write only while `BUSY` is 0 (R22). -/
def commandRegs : List Reg :=
  [.cmd, .srcAddr, .srcLen, .inBit, .dstAddr, .dstLen, .dstStride, .prvAddr, .width, .height,
   .rows, .param, .arg, .palCfg]

/-- The registers that ignore every host write (R23). -/
def readOnlyRegs : List Reg :=
  [.id, .memsize, .result0, .result1, .result2, .result3, .outCount, .progDone, .progTotal,
   .errPos, .errRow, .errCol, .errValue]

/-- The host access is refused (R71, R72, R73): in the register region it is not a 32-bit access at
a multiple of 4; between the regions nothing is mapped; in BUF it is not naturally aligned or
reaches past the last byte. -/
def accessRefused (s : State) (a : Access) : Prop :=
  let off := hostOffset s a.addr
  (off < 0x100 ∧ ¬(a.width = .w32 ∧ off % 4 = 0)) ∨ (0x100 ≤ off ∧ off < 0x10000) ∨
    (0x10000 ≤ off ∧ (off % widthBytes a.width ≠ 0 ∨
      0x10000 + s.cfg.memSize < off + widthBytes a.width))

/-! ### What a command asks for -/

/-- The "must be >= 1" registers of a command, in their order (R105). -/
def mustBeOne : Instr → List Reg
  | .mhRows _ _ => [.width, .rows]
  | .lzwDecode => [.dstLen]
  | .packbits | .byterun1 | .palmRle => [.dstLen, .rows]
  | .pngUnfilter _ | .pngNone _ | .pngSub _ | .pngUp _ | .pngAvg _ | .pngPaeth _ => [.dstLen, .rows]
  | .adam7Geom | .adam7Scatter => [.width, .height]
  | .cmykToRgb _ | .palLookup => [.width]
  | .nop | .mhRun _ | .mhCode _ | .palWrite | .palRead | .palLoad | .palAttach | .palReset => []

/-- `ReadsInput(op)` (R122). -/
def readsInput : Instr → Bool
  | .mhRows _ _ | .mhRun _ | .mhCode _ | .lzwDecode | .packbits | .byterun1 | .palmRle => true
  | .pngUnfilter _ | .pngNone _ | .pngSub _ | .pngUp _ | .pngAvg _ | .pngPaeth _ => true
  | .adam7Scatter | .cmykToRgb _ | .palLookup | .palLoad => true
  | .nop | .adam7Geom | .palWrite | .palRead | .palAttach | .palReset => false

/-- The byte engines, which align the cursor (R131). -/
def alignsCursor : Instr → Bool
  | .mhRows _ _ | .mhRun _ | .mhCode _ | .lzwDecode => false
  | i => readsInput i

/-- Window check `code` of R133 fails for a command with these windows. -/
def windowFails (sh : Shape) (s : State) (code : Nat) : Prop :=
  let src := s.regs.srcAddr.toNat
  let srcEnd := src + s.regs.srcLen.toNat
  let prv := s.regs.prvAddr.toNat
  let prvEnd := prv + s.regs.dstLen.toNat
  let dst := s.regs.dstAddr.toNat
  let stride := s.regs.dstStride.toNat
  let overlap (lo hi lo' hi' : Nat) : Prop := lo < hi ∧ lo' < hi' ∧ lo < hi' ∧ lo' < hi
  match code with
  | 1 => sh.input = true ∧ (s.cfg.memSize < srcEnd ∨ (s.regs.inBit ≠ 0 ∧ s.regs.srcLen = 0))
  | 2 => ∃ rb n, sh.output = some (rb, n) ∧ 1 < n ∧ stride < rb
  | 3 => ∃ rb n, sh.output = some (rb, n) ∧ s.cfg.memSize < dst + (n - 1) * stride + rb
  | 4 => sh.prior = true ∧ s.cfg.memSize < prvEnd
  | 5 => ∃ rb n, sh.output = some (rb, n) ∧ sh.input = true ∧
      overlap src srcEnd dst (dst + (n - 1) * stride + rb)
  | 6 => sh.prior = true ∧ ((sh.input = true ∧ overlap prv prvEnd src srcEnd) ∨
      ∃ rb n, sh.output = some (rb, n) ∧ overlap prv prvEnd dst (dst + (n - 1) * stride + rb))
  | _ => False

/-- The parameter checks of a command pass (R104, R105). -/
def paramsLegal (i : Instr) (s : State) : Prop :=
  let low := (s.regs.param.extractLsb' 0 4).toNat
  match i with
  | .lzwDecode => 2 ≤ low ∧ low ≤ 8
  | .pngUnfilter _ | .pngNone _ | .pngSub _ | .pngUp _ | .pngAvg _ | .pngPaeth _ =>
    1 ≤ low ∧ low ≤ 8
  | .adam7Geom | .adam7Scatter =>
    s.regs.param.extractLsb' 0 3 ≠ 0 ∧
      (s.regs.param.extractLsb' 8 8).toNat ∈ [1, 2, 4, 8, 16, 24, 32, 48, 64]
  | _ => True

/-- Every "must be >= 1" register of the command is so (R105). -/
def requiredPresent (i : Instr) (s : State) : Prop := ∀ r ∈ mustBeOne i, readReg s r ≠ 0

/-! ### How a command ends -/

/-- The validation has failed with this code and value (R122, R302, R303): the error is recorded,
`ERR` is set, the engine is idle, and nothing else has changed. -/
def failedValidation (code : BitVec 4) (value : Word) (s : State) : State :=
  { s with
    errors := ⟨0, 0, 0, value⟩
    status := { s.status with err := true, errCode := code }
    engine := { s.engine with phase := .idle, abortReq := false, lzw := none } }

/-- The registers after the cursor write-back of a command whose cursor and end are `b` and `e`
(R132). -/
def writtenBack (b e : Nat) (o : OperandRegs) : OperandRegs :=
  { o with
    srcAddr := regOf (b / 8)
    inBit := BitVec.ofNat 3 (b % 8)
    srcLen := regOf (e / 8 - b / 8) }

/-- A one-unit command whose unit leaves `s` has completed with success: one unit of progress,
`DONE`, the engine idle, and the cursor written back where the command reads input (R124, R125). -/
def completed (reads : Bool) (s : State) : State :=
  { s with
    regs := if reads then writtenBack s.engine.cursor s.engine.stop s.regs else s.regs
    results := { s.results with progDone := s.results.progDone + 1 }
    status := { s.status with done := true }
    engine := { s.engine with phase := .idle, abortReq := false, lzw := none }
    epoch := s.epoch + 1
    hazard := [] }

/-- Unit `u` of a row command has stored the row `bytes` and moved the cursor to `cursor`; what
follows is the end of the unit step (R124, R137). -/
def rowDone (i : Instr) (u : Nat) (bytes : List Byte) (cursor : Nat) (s : State) : State :=
  afterUnit (shapeOf i s) u
    { s with
      mem := writeBytes s.mem (rowAddr s u) bytes
      results := { s.results with
        outCount := regOf (s.results.outCount.toNat + bytes.length)
        progDone := s.results.progDone + 1 }
      engine := { s.engine with cursor := cursor }
      epoch := s.epoch + 1 }

/-- Unit `u` of a row command of `rb`-byte rows has raised an error: its row is unspecified (R136),
and the command completes with the error (R302). -/
def rowFailed (u rb : Nat) (e : ErrInfo) (s : State) : State :=
  raise e { s with mem := freeRegion s.epoch s.mem (rowAddr s u) rb, epoch := s.epoch + 1 }

/-- Every byte whose address satisfies `p` was last written with the same value in both states, or
in neither: then it reads the same in any one epoch. -/
def sameBytes (s t : State) (p : Nat → Prop) : Prop :=
  ∀ a, p a → storeGet t.mem a = storeGet s.mem a

/-- The BUF addresses of the output window of a command (R133). -/
def inOutput (i : Instr) (s : State) (a : Nat) : Prop :=
  ∃ rb n, (shapeOf i s).output = some (rb, n) ∧
    s.regs.dstAddr.toNat ≤ a ∧ a < s.regs.dstAddr.toNat + (n - 1) * s.regs.dstStride.toNat + rb

/-- The addresses of output row `r` of `rb` bytes (R133). -/
def inRow (rb r : Nat) (s : State) (a : Nat) : Prop := rowAddr s r ≤ a ∧ a < rowAddr s r + rb

/-- The commands that write no byte of BUF. -/
def storesNothing : Instr → Bool
  | .nop | .mhRun _ | .mhCode _ | .adam7Geom => true
  | .palWrite | .palRead | .palLoad | .palAttach | .palReset => true
  | _ => false

/-- The row commands, and the bytes of one of their rows (R133, R137). -/
def rowBytes (s : State) : Instr → Option Nat
  | .mhRows byteOut _ => some (mhRowBytes byteOut s)
  | .packbits | .byterun1 | .palmRle => some s.regs.dstLen.toNat
  | .pngUnfilter _ | .pngNone _ | .pngSub _ | .pngUp _ | .pngAvg _ | .pngPaeth _ =>
    some s.regs.dstLen.toNat
  | _ => none

/-! ### What an input spells -/

/-- Bit `q` of a stream read MSB-first (R77). -/
def streamBitMSB (s : State) (q : Nat) : Bool := (readBuf s (q / 8)).getLsbD (7 - q % 8)

/-- Bit `q` of a stream read LSB-first (R78). -/
def streamBitLSB (s : State) (q : Nat) : Bool := (readBuf s (q / 8)).getLsbD (q % 8)

/-- The number that bits spell, the first the most significant (R155). -/
def bitsValue (bits : List Bool) : Nat := bits.foldl (fun acc bit => 2 * acc + bit.toNat) 0

/-- The input from bit `b` on begins with these bits, MSB-first, all of them inside the window. -/
def spellsMSB (s : State) (b : Nat) (bits : List Bool) : Prop :=
  b + bits.length ≤ s.engine.stop ∧
    ∀ k, k < bits.length → bits[k]? = some (streamBitMSB s (b + k))

/-- The input from bit `b` on begins with these bits, LSB-first, all of them inside the window. -/
def spellsLSB (s : State) (b : Nat) (bits : List Bool) : Prop :=
  b + bits.length ≤ s.engine.stop ∧
    ∀ k, k < bits.length → bits[k]? = some (streamBitLSB s (b + k))

/-- The input from bit `b` on begins with these bytes, all of them inside the window. -/
def spellsBytes (s : State) (b : Nat) (bytes : List Byte) : Prop :=
  b + 8 * bytes.length ≤ s.engine.stop ∧
    ∀ k, k < bytes.length → bytes[k]? = some (readBuf s (b / 8 + k))

/-- The error information of an end of input (R139): the end of the window and 0xFFFFFFFF, with the
row and the column where it came; `b` is where the read fell short. -/
def inputEnded (s : State) (row col b : Nat) : ErrInfo :=
  ⟨.invalidStructure, s.engine.stop / 8, row, col, 0xFFFFFFFF, b⟩

/-! ### Modified Huffman streams -/

/-- The bits of a code word, first-read bit first (R151). -/
def codeBits (entry : MhEntry) : List Bool :=
  (List.range entry.len).map fun k => entry.code.testBit (entry.len - 1 - k)

/-- A run as an encoder writes it: make-up codes, then a terminating code (R156). -/
structure CodedRun where
  makeups : List MhEntry
  term : MhEntry
deriving DecidableEq, Repr, Inhabited

/-- The code words of a run. -/
def CodedRun.codes (r : CodedRun) : List MhEntry := r.makeups ++ [r.term]

/-- The length of a run: the sum of its codes (R156). -/
def CodedRun.length (r : CodedRun) : Nat := (r.codes.map MhEntry.run).sum

/-- The bits of a run. -/
def CodedRun.bits (r : CodedRun) : List Bool := r.codes.flatMap codeBits

/-- The run is written with codes of the colour's table; two make-up codes stand in it only under
`MH_MAKEUP_CHAIN = ACCUMULATE` (R156). -/
def CodedRun.legal (cfg : Config) (colour : Colour) (r : CodedRun) : Prop :=
  (∀ x ∈ r.makeups, x ∈ mhTable cfg colour ∧ x.kind = .makeup) ∧
    r.term ∈ mhTable cfg colour ∧ r.term.kind = .term ∧
    (cfg.makeupChain = .error → r.makeups.length ≤ 1)

/-- Runs of alternating colours, the first of the given colour, are all legal (R157). -/
def runsLegal (cfg : Config) : Colour → List CodedRun → Prop
  | _, [] => True
  | colour, r :: rest => r.legal cfg colour ∧ runsLegal cfg (otherColour colour) rest

/-- The pixels of runs of alternating colours: white is 1, black is 0 (R157, R158). -/
def runPixels : Colour → List CodedRun → List Bool
  | _, [] => []
  | colour, r :: rest =>
    List.replicate r.length (pixelOf colour) ++ runPixels (otherColour colour) rest

/-- The colour that follows runs of alternating colours, the first of the given colour (R157). -/
def colourAfter : Colour → List CodedRun → Colour
  | colour, [] => colour
  | colour, _ :: rest => colourAfter (otherColour colour) rest

/-- Make-up codes that a run of the colour may begin with: under `MH_MAKEUP_CHAIN = ERROR` one at
most (R156). -/
def makeupsLegal (cfg : Config) (colour : Colour) (makeups : List MhEntry) : Prop :=
  (∀ x ∈ makeups, x ∈ mhTable cfg colour ∧ x.kind = .makeup) ∧
    (cfg.makeupChain = .error → makeups.length ≤ 1)

/-- The total length of runs. -/
def runsLength (runs : List CodedRun) : Nat := (runs.map CodedRun.length).sum

/-- The bits of runs. -/
def runsBits (runs : List CodedRun) : List Bool := runs.flatMap CodedRun.bits

/-- No code word of the colour's table begins at bit `b`. -/
def noCodeAt (s : State) (colour : Colour) (b : Nat) : Prop :=
  ∀ entry ∈ mhTable s.cfg colour, ¬spellsMSB s b (codeBits entry)

/-- The input ends inside the code word that begins at bit `b` (R139, R155): fewer than the 16 bits
that the matcher reads are left, and no code word is among them. -/
def codeCutOff (s : State) (colour : Colour) (b : Nat) : Prop :=
  b ≤ s.engine.stop ∧ s.engine.stop < b + 16 ∧ noCodeAt s colour b

/-- The bits of the runs of a row so far and of the make-up codes of its next run. -/
def rowBits (runs : List CodedRun) (makeups : List MhEntry) : List Bool :=
  runsBits runs ++ makeups.flatMap codeBits

/-- The input from bit `b` on begins with whole runs of an `MH_ROWS` row that they do not fill, and
with make-up codes of the run after them (R156, R157). -/
def rowPending (s : State) (runs : List CodedRun) (makeups : List MhEntry) (b : Nat) : Prop :=
  runsLegal s.cfg .white runs ∧ runsLength runs < s.regs.width.toNat ∧
    makeupsLegal s.cfg (colourAfter .white runs) makeups ∧ spellsMSB s b (rowBits runs makeups)

/-- The bytes that a row of pixels is stored as (R158): a byte per pixel, or pixel `x` in bit
`7 - x mod 8` of byte `x div 8` with the padding bits 0. -/
def storesPixels (byteOut : Bool) (pix : List Bool) (bytes : List Byte) : Prop :=
  if byteOut then bytes = pix.map fun p => if p then 1 else 0
  else bytes.length = ceilDiv pix.length 8 ∧
    ∀ x, x < 8 * bytes.length →
      (bytes[x / 8]?).map (fun v => v.getLsbD (7 - x % 8)) = some ((pix[x]?).getD false)

/-! ### LZW streams -/

/-- What an LZW encoder writes, before `EOI`: `CLEAR`, or a code for a string of its table. -/
inductive LzwToken where
  | clear
  | string (code : Nat) (w : List Byte)
deriving DecidableEq, Repr, Inhabited

/-- The encoder's table after the string `w` has followed the string `prev`: it gains `prev` with
the first byte of `w`, unless it is full (R182, R184, R186). `added` holds the strings of the codes
from `2^m + 2` on. -/
def lzwGrow (m : Nat) (added : List (List Byte)) (prev : Option (List Byte)) (w : List Byte) :
    List (List Byte) :=
  match prev with
  | none => added
  | some p => if 2 ^ m + 2 + added.length < 4096 then added ++ [p ++ w.take 1] else added

/-- `code` stands for the string `w`: a one-byte string, or one that was added. -/
def lzwCodeFor (m : Nat) (added : List (List Byte)) (code : Nat) (w : List Byte) : Prop :=
  (code < 2 ^ m ∧ w = [BitVec.ofNat 8 code]) ∨
    ∃ j, added[j]? = some w ∧ code = 2 ^ m + 2 + j

/-- The width of a code when the table has `n` added strings: what the next free code needs, 12 bits
at most (R181, R185). -/
def lzwWidth (m n : Nat) : Nat := min 12 (Nat.log2 (2 ^ m + 2 + n) + 1)

/-- Every code of the stream stands for its string in the table of that moment; a `CLEAR` empties the
table. -/
def lzwStreamLegal (m : Nat) :
    List (List Byte) → Option (List Byte) → List LzwToken → Prop
  | _, _, [] => True
  | _, _, .clear :: ts => lzwStreamLegal m [] none ts
  | added, prev, .string code w :: ts =>
    lzwCodeFor m (lzwGrow m added prev w) code w ∧
      lzwStreamLegal m (lzwGrow m added prev w) (some w) ts

/-- The bits of a code, least significant first (R183). -/
def lzwCodeBits (width code : Nat) : List Bool := (List.range width).map code.testBit

/-- The bits of a stream, without the `EOI` that ends it. -/
def lzwTokenBits (m : Nat) :
    List (List Byte) → Option (List Byte) → List LzwToken → List Bool
  | _, _, [] => []
  | added, _, .clear :: ts =>
    lzwCodeBits (lzwWidth m added.length) (clearCode m) ++ lzwTokenBits m [] none ts
  | added, prev, .string code w :: ts =>
    lzwCodeBits (lzwWidth m added.length) code ++
      lzwTokenBits m (lzwGrow m added prev w) (some w) ts

/-- The strings the stream stands for, in a row. -/
def lzwStreamBytes : List LzwToken → List Byte
  | [] => []
  | .clear :: ts => lzwStreamBytes ts
  | .string _ w :: ts => w ++ lzwStreamBytes ts

/-- The number of added strings at the end of the stream. -/
def lzwTokenAdded (m : Nat) : List (List Byte) → Option (List Byte) → List LzwToken → Nat
  | added, _, [] => added.length
  | _, _, .clear :: ts => lzwTokenAdded m [] none ts
  | added, prev, .string _ w :: ts => lzwTokenAdded m (lzwGrow m added prev w) (some w) ts

/-- The next free code at the end of a stream that starts with an empty table. -/
def lzwStreamNext (m : Nat) (tokens : List LzwToken) : Nat :=
  2 ^ m + 2 + lzwTokenAdded m [] none tokens

/-- The width of the code that follows a stream that starts with an empty table. -/
def lzwStreamWidth (m : Nat) (tokens : List LzwToken) : Nat :=
  lzwWidth m (lzwTokenAdded m [] none tokens)

/-- The bits of a stream that starts with an empty table, with one more code at its end. -/
def lzwStreamBits (m : Nat) (tokens : List LzwToken) (last : Nat) : List Bool :=
  lzwTokenBits m [] none tokens ++ lzwCodeBits (lzwStreamWidth m tokens) last

/-! ### Run-length streams -/

/-- A PackBits or ByteRun1 packet as an encoder writes it (R201, R202). -/
inductive RunPacket where
  | literal (bytes : List Byte)
  | repeated (n : Nat) (v : Byte)
  | noop
deriving DecidableEq, Repr, Inhabited

/-- The lengths a packet may have. -/
def RunPacket.legal : RunPacket → Prop
  | .literal bytes => 1 ≤ bytes.length ∧ bytes.length ≤ 128
  | .repeated n _ => 2 ≤ n ∧ n ≤ 128
  | .noop => True

/-- The bytes of a packet: the control byte, then its data. -/
def RunPacket.encoding : RunPacket → List Byte
  | .literal bytes => BitVec.ofNat 8 (bytes.length - 1) :: bytes
  | .repeated n v => [BitVec.ofNat 8 (257 - n), v]
  | .noop => [0x80]

/-- What a packet stands for. -/
def RunPacket.output : RunPacket → List Byte
  | .literal bytes => bytes
  | .repeated n v => List.replicate n v
  | .noop => []

/-- The bytes of a Palm stream of (count, value) pairs (R204). -/
def palmEncoding (pairs : List (Byte × Byte)) : List Byte := pairs.flatMap fun p => [p.1, p.2]

/-- What a Palm stream stands for. -/
def palmOutput (pairs : List (Byte × Byte)) : List Byte :=
  pairs.flatMap fun p => List.replicate p.1.toNat p.2

/-! ### PNG rows -/

/-- The filter of the commands that have a fixed one (R229, R233 to R237). -/
def fixedFilter : Instr → Option (PngFilter × Bool)
  | .pngNone first => some (.none, first)
  | .pngSub first => some (.sub, first)
  | .pngUp first => some (.up, first)
  | .pngAvg first => some (.average, first)
  | .pngPaeth first => some (.paeth, first)
  | _ => none

/-- Byte `i` of a row of bytes, 0 where `i` is less than the stride (R222). -/
def neighbour (row : List Byte) (bpp i : Nat) : Byte :=
  if bpp ≤ i then (row[i - bpp]?).getD 0 else 0

/-- `out` is the reconstruction of the filtered bytes `xs` with the prior row `prior`: byte for byte
R222 and R223. -/
def reconstructs (t : PngFilter) (bpp : Nat) (xs prior out : List Byte) : Prop :=
  out.length = xs.length ∧
    ∀ i, i < xs.length →
      ((out[i]?).getD 0).toNat =
        (((xs[i]?).getD 0).toNat +
          pngPred t (neighbour out bpp i) ((prior[i]?).getD 0) (neighbour prior bpp i)) % 256

/-- The forward filter of R238: `f[i] = (raw[i] - Pred(t, a, b, c)) mod 256`. -/
def pngFilt (t : PngFilter) (bpp : Nat) (raw prior : List Byte) : List Byte :=
  (List.range raw.length).map fun i =>
    BitVec.ofInt 8 ((((raw[i]?).getD 0).toNat : Int) -
      pngPred t (neighbour raw bpp i) ((prior[i]?).getD 0) (neighbour prior bpp i))

/-! ### Adam7 rows -/

/-- The full-image row that reduced row `k` of a pass goes to (R242). -/
def fullRow (g : PassGeometry) (k : Nat) : Nat := g.sr + k * g.ri

/-! ### Sound states -/

/-- The invariant of the block: what holds at reset and what every step keeps. -/
structure Inv (s : State) : Prop where
  /-- BUF is in its canonical form, inside `MEM_SIZE` (R70) -/
  buf : Memory.wf s.cfg.memSize s.mem
  /-- the palette is in its canonical form, inside its 256 entries (R46) -/
  pal : PaletteRam.wf s.pal
  /-- `PAL_SIZE` is legal (R41) -/
  palSize : 1 ≤ palSizeOf s ∧ palSizeOf s ≤ 256
  /-- `DONE` and `ERR` are never both 1 (R27) -/
  oneFlag : ¬(s.status.done = true ∧ s.status.err = true)
  /-- while `BUSY` is 1 the other flags are 0 (R120) -/
  busyFlags : s.busy = true → s.status = StatusFlags.reset
  /-- the error code is 0 without an error, and one of 2 to 7 with one (R301) -/
  code : (s.status.err = true → 2 ≤ s.status.errCode ∧ s.status.errCode ≤ 7) ∧
    (s.status.err = false → s.status.errCode = 0)
  /-- an abort is requested only of a running command (R49) -/
  abortBusy : s.engine.abortReq = true → s.busy = true
  /-- `CMD` equals the latched word while a command runs (R28) -/
  latched : s.busy = true → s.engine.lcmd = s.regs.cmd
  /-- the dictionary exists only during an `LZW_DECODE` (R50) -/
  dictionary : s.engine.lzw ≠ none →
    decode s.engine.lcmd = .ok .lzwDecode ∧ ∃ u, s.engine.phase = .run u
  /-- what the host has written under a command lies in BUF, and no command is running without -/
  hazard : (∀ a ∈ s.hazard, a < s.cfg.memSize) ∧ (s.hazard ≠ [] → s.busy = true)
  /-- the results are clear until a unit has run (R120, R124) -/
  validating : s.engine.phase = .validate → s.results = ResultRegs.reset
  /-- `PROG_DONE` does not exceed `PROG_TOTAL` (R44) -/
  progress : s.results.progDone ≤ s.results.progTotal
  /-- in `RUN(u)` the latched word is a command with such a unit, `PROG_DONE` is `u` and `PROG_TOTAL`
  its total (R47, R123), and it has passed the validation (R122) -/
  running : ∀ u, s.engine.phase = .run u → ∃ i, decode s.engine.lcmd = .ok i ∧
    u < (shapeOf i s).units ∧ s.results.progDone = BitVec.ofNat 32 u ∧
    s.results.progTotal = regOf (shapeOf i s).total ∧
    (s.hazard = [] → firstError (shapeOf i s) s = none)

/-- The block does not stop: the step answers a next state. -/
def Moves (s : State) : Prop := ∃ t, step s = .next t

end Sys2Proof.Machine
end

