-- ==== Sys2Proof/Certificates/Slice0/Obligations.lean ====
section
/-! DEFINITION. The statements about the block, for the provers. A statement that gives a whole next
state speaks of fields that are the model's own too, or of a value the model had to fix: its
docstring names the log entries. `completed`, `rowDone`, `rowFailed`, `failedValidation` and the
words for streams stand in Safety.lean. -/

open Sys2Proof Sys2Proof.Machine

/-! ### Decoding -/

/-- A few command words, written out from R100 to R102 and the examples of R108. -/
def Obligations.SampleWordsDecode : Prop :=
  decode 0x00000000 = .ok .nop ∧ decode 0x00000210 = .ok (.mhRows false true) ∧
    decode 0x00000111 = .ok (.mhRun .black) ∧ decode 0x00000012 = .ok (.mhCode .white) ∧
    decode 0x00000020 = .ok .lzwDecode ∧ decode 0x00000031 = .ok .byterun1 ∧
    decode 0x00000145 = .ok (.pngPaeth true) ∧ decode 0x00000051 = .ok .adam7Scatter ∧
    decode 0x00000160 = .ok (.cmykToRgb true) ∧ decode 0x00000073 = .ok .palLoad ∧
    decode 0x00000100 = .error .reservedMode ∧ decode 0x00000013 = .error .reservedOpcode ∧
    decode 0x00001000 = .error .reservedBits

/-- Decoding and encoding agree: a word decodes to an instruction exactly when it is that
instruction's word, so no bit of a word is dropped and no two words mean the same. That every word
is one command or illegal is the spec's own inference (R107). -/
def Obligations.DecodeIsInverseOfEncode : Prop :=
  ∀ (w : Word) (i : Instr), decode w = .ok i ↔ w = encode i

/-- The decoder refuses exactly the illegal words, by the check of R106 they fail first, and every
instruction is well-formed. Bits [31:12] must be 0 (R103): a word with any of them set is illegal,
and the word of an instruction has none. -/
def Obligations.DecodeRefusesIllegalWords : Prop :=
  (∀ (w : Word) (e : Illegal), decode w = .error e ↔ wordFault w = some e) ∧
  (∀ w : Word, (∃ k, 12 ≤ k ∧ k ≤ 31 ∧ w.getLsbD k = true) →
    decode w = .error .reservedBits ∧ legalWord w = false) ∧
  ∀ i : Instr, i.wf = true ∧ legalWord (encode i) = true ∧
    ∀ k, 12 ≤ k → k ≤ 31 → (encode i).getLsbD k = false

/-! ### Steps -/

/-- The engine's turn runs the decoded command, whatever stands behind it in the list of events; an
idle engine does nothing; a host access is one step; a `WAIT` reads `STATUS` and, while it reads
`BUSY`, lets the engine move and reads again. The model's own here: the list of events, the port's
answer and the `WAIT` (log entries 4, 12, 14). -/
def Obligations.StepRunsDecodedCommand : Prop :=
  (∀ (s : State) (i : Instr), s.pending = [] → s.busy = true → decode s.engine.lcmd = .ok i →
    step s = exec i s) ∧
  (∀ (s : State) (i : Instr) (rest : List HostEvent), s.pending = .engine :: rest →
    s.busy = true → decode s.engine.lcmd = .ok i → step s = exec i { s with pending := rest }) ∧
  (∀ s : State, s.pending = [] → s.busy = false → step s = .next s) ∧
  (∀ (s : State) (a : Access) (rest : List HostEvent), s.pending = .access a :: rest →
    step s = .next (hostAccess a { s with pending := rest })) ∧
  ∀ (s : State) (rest : List HostEvent), s.pending = .poll :: rest →
    step s = .next { s with
      response := some (.read (readReg s .status) false)
      pending := if s.busy then .engine :: .poll :: rest else rest }

/-- A command word put where the machine takes its next one is what the next step runs. The model's
own here: how a word is put there (log entry 5). -/
def Obligations.StartedWordRuns : Prop :=
  ∀ (s : State) (i : Instr),
    step (s.withFetchWord 32 (encode i).toNat) = exec i (s.withFetchWord 32 (encode i).toNat) ∧
      AtValidation (s.withFetchWord 32 (encode i).toNat)

/-- Starting an illegal word (R106: a bit of [31:12] is 1, the opcode is reserved, or a `MODE` bit
that its opcode does not name is 1) completes it at once with `ILLEGAL_COMMAND` and the word, and
does nothing else. -/
def Obligations.IllegalWordCompletesAtOnce : Prop :=
  ∀ s : State, s.pending = [] → AtValidation s →
    let op := (s.engine.lcmd.extractLsb' 0 8).toNat
    let reserved := [(0x01, 0x0F), (0x13, 0x1F), (0x21, 0x2F), (0x33, 0x3F), (0x46, 0x4F),
      (0x52, 0x5F), (0x61, 0x6F), (0x76, 0xFF)]
    (s.engine.lcmd.extractLsb' 12 20 ≠ 0 ∨ (∃ r ∈ reserved, r.1 ≤ op ∧ op ≤ r.2) ∨
      ∃ mask, modeMask op = some mask ∧ s.engine.lcmd.extractLsb' 8 4 &&& ~~~mask ≠ 0) →
    step s = .next (failedValidation 5 s.engine.lcmd s)

/-! ### The host port -/

/-- While `BUSY` is 0 a command register other than `PAL_CFG` reads back what the host writes,
without its reserved bits, and nothing else changes; while `BUSY` is 1 the host's writes to `CMD`,
the operands and `PAL_CFG` are ignored, with no error. The model's own here: the port's answer (log
entry 12). -/
def Obligations.CommandRegisterWrites : Prop :=
  (∀ (s : State) (r : Reg) (v : Word), s.busy = false → r ∈ commandRegs → r ≠ .palCfg →
    readReg (hostWriteReg r v s) r = (if r = .inBit then v &&& 7 else v) ∧
    (∀ q, q ≠ r → readReg (hostWriteReg r v s) q = readReg s q) ∧
    (hostReadReg r (hostWriteReg r v s)).response =
      some (.read (if r = .inBit then v &&& 7 else v) false) ∧
    hostWriteReg r v s =
      { s with regs := (hostWriteReg r v s).regs, response := some (.write false) }) ∧
  ∀ (s : State) (r : Reg) (v : Word), s.busy = true → r ∈ commandRegs →
    hostWriteReg r v s = { s with response := some (.write false) }

/-- `ID` always reads 0x46434442 and `MEMSIZE` the size of BUF, and neither can be written. The
model's own here: the port's answer (log entry 12). -/
def Obligations.IdAndMemsizeAreFixed : Prop :=
  ∀ (s : State) (v : Word),
    (hostReadReg .id s).response = some (.read 0x46434442 false) ∧
    (hostReadReg .memsize s).response = some (.read (BitVec.ofNat 32 s.cfg.memSize) false) ∧
    hostWriteReg .id v s = { s with response := some (.write false) } ∧
    hostWriteReg .memsize v s = { s with response := some (.write false) }

/-- A read-only register and a reserved offset ignore the host's writes at all times; a reserved
offset reads 0. The model's own here: the port's answer (log entry 12). -/
def Obligations.ReadOnlyAndReservedIgnoreWrites : Prop :=
  (∀ (s : State) (r : Reg) (v : Word), r ∈ readOnlyRegs →
    hostWriteReg r v s = { s with response := some (.write false) }) ∧
  ∀ (s : State) (addr v : Word), 0x074 ≤ hostOffset s addr → hostOffset s addr < 0x100 →
    hostOffset s addr % 4 = 0 →
    hostAccess ⟨.w32, addr, .write v⟩ s = { s with response := some (.write false) } ∧
    hostAccess ⟨.w32, addr, .read⟩ s = { s with response := some (.read 0 false) }

/-- An access gets a bus error exactly when R71 to R73 refuse it, and then only the port's answer
changes: a read returns 0 with an error. The model's own here: the port's answer, the offset of a
bus address, and that an access is 8, 16 or 32 bits wide (log entries 2, 12, 17). -/
def Obligations.BusErrorExactlyWhenRefused : Prop :=
  ∀ (s : State) (a : Access),
    (accessRefused s a → hostAccess a s = { s with response := some (match a.kind with
      | .read => .read 0 true
      | .write _ => .write true) }) ∧
    (¬accessRefused s a → match (hostAccess a s).response with
      | some (.read _ busError) => busError = false
      | some (.write busError) => busError = false
      | none => False)

/-- A host write to BUF stores the data little-endian at exactly the bytes of its width, and a read
of the same bytes returns it. The model's own here: the port's answer (log entry 12). -/
def Obligations.BufIsLittleEndian : Prop :=
  ∀ (s : State) (width : AccessWidth) (addr v : Word),
    ¬accessRefused s ⟨width, addr, .write v⟩ → 0x10000 ≤ hostOffset s addr →
    (∀ k, k < widthBytes width →
      storeGet (hostAccess ⟨width, addr, .write v⟩ s).mem (hostOffset s addr - 0x10000 + k) =
        some (v.extractLsb' (8 * k) 8)) ∧
    sameBytes s (hostAccess ⟨width, addr, .write v⟩ s) (fun a =>
      a < hostOffset s addr - 0x10000 ∨ hostOffset s addr - 0x10000 + widthBytes width ≤ a) ∧
    (hostAccess ⟨width, addr, .read⟩ (hostAccess ⟨width, addr, .write v⟩ s)).response =
      some (.read (BitVec.ofNat 32 (v.toNat % 2 ^ (8 * widthBytes width))) false)

/-- A host read changes nothing but the model's own answer and draw counter. The model's own here:
the draw counter and the port's answer (log entries 6, 12). -/
def Obligations.ReadsHaveNoSideEffect : Prop :=
  ∀ (s : State) (width : AccessWidth) (addr : Word),
    hostAccess ⟨width, addr, .read⟩ s =
      { s with
        response := (hostAccess ⟨width, addr, .read⟩ s).response
        epoch := (hostAccess ⟨width, addr, .read⟩ s).epoch }

/-- An accepted `START` (R120): everything it clears and sets, and nothing else but `IRQ_EN`, which
the same write sets. The model's own here: the hazard list, the port's answer and the old cursor
(log entries 10, 12, 13). -/
def Obligations.StartBeginsCommand : Prop :=
  ∀ (s : State) (v : Word), v.getLsbD 0 = true → v.getLsbD 3 = false → s.busy = false →
    hostWriteReg .ctrl v s =
      { s with
        irqEn := v.getLsbD 2
        status := ⟨false, false, false, 0⟩
        results := ⟨0, 0, 0, 0, 0, 0, 0⟩
        errors := ⟨0, 0, 0, 0⟩
        engine := { s.engine with phase := .validate, lcmd := s.regs.cmd, abortReq := false }
        hazard := []
        response := some (.write false) }

/-- A `START` while `BUSY` is 1 is ignored and the running command is not affected (R121); an
`ABORT` in the same write makes its request, which one while `BUSY` is 0 does not (R26). The model's
own here: the port's answer (log entry 12). -/
def Obligations.StartWhileBusyIsIgnored : Prop :=
  (∀ (s : State) (v : Word), v.getLsbD 3 = false → s.busy = true →
    hostWriteReg .ctrl v s =
      { s with
        irqEn := v.getLsbD 2
        engine := { s.engine with abortReq := s.engine.abortReq || v.getLsbD 1 }
        response := some (.write false) }) ∧
  ∀ (s : State) (v : Word), v.getLsbD 3 = false → v.getLsbD 0 = false → s.busy = false →
    hostWriteReg .ctrl v s = { s with irqEn := v.getLsbD 2, response := some (.write false) }

/-- Soft reset (R331): every register at its reset value, the engine idle with nothing latched, BUF
and the palette kept; no completion is signalled. That the rest is the state of a hardware reset is
the spec's own inference (R331). The model's own here: the latched word and the cursor become 0 too
(log entry 15). -/
def Obligations.SoftResetKeepsBufAndPalette : Prop :=
  ∀ (s : State) (v : Word), v.getLsbD 3 = true →
    (∀ r, readReg (hostWriteReg .ctrl v s) r = resetValue s.cfg r) ∧
    (hostWriteReg .ctrl v s).engine = ⟨.idle, 0, 0, 0, false, none⟩ ∧
    (hostWriteReg .ctrl v s).mem = s.mem ∧ (hostWriteReg .ctrl v s).pal = s.pal ∧
    (hostWriteReg .ctrl v s).cfg = s.cfg ∧ (hostWriteReg .ctrl v s).generation = s.generation

/-- Hardware reset (R330), as the platform's reset input and as the reset state: every register at
its reset value, the engine idle with nothing latched, the interrupt output low, and every byte of
BUF and every palette entry unspecified. The model's own here: the form of the unspecified bytes and
entries (log entries 6, 7, 15). -/
def Obligations.HardwareResetState : Prop :=
  (∀ (s : State) (rest : List HostEvent), s.pending = .hardReset :: rest →
    ∃ t, step s = .next t ∧ (∀ r, readReg t r = resetValue s.cfg r) ∧ t.irq = false ∧
      t.engine = ⟨.idle, 0, 0, 0, false, none⟩ ∧
      (∀ a, readBuf t a = Config.freeByte t.epoch a) ∧
      (∀ k, palGet t k = Config.freeRgb (s.generation + 1) k) ∧ t.cfg = s.cfg) ∧
  (∀ r, readReg State.reset r = resetValue State.reset.cfg r) ∧ State.reset.irq = false ∧
    State.reset.engine = ⟨.idle, 0, 0, 0, false, none⟩ ∧
    (∀ a, readBuf State.reset a = Config.freeByte State.reset.epoch a) ∧
    ∀ k, palGet State.reset k = Config.freeRgb State.reset.generation k

/-- The bits of `STATUS`, the interrupt level among them, and the three ways it falls (R52). How it
falls is the spec's own inference. -/
def Obligations.InterruptLevelAndStatusBits : Prop :=
  (∀ s : State, readReg s .status =
    (0 : BitVec 20) ++ s.status.errCode ++ (0 : BitVec 3) ++
      BitVec.ofBool (s.irqEn && (s.status.done || s.status.err)) ++
      BitVec.ofBool s.status.aborted ++ BitVec.ofBool s.status.err ++
      BitVec.ofBool s.status.done ++ BitVec.ofBool (decide (s.engine.phase ≠ .idle))) ∧
  (∀ (s : State) (v : Word), v.getLsbD 1 = true → v.getLsbD 2 = true →
    (hostWriteReg .status v s).irq = false) ∧
  (∀ (s : State) (v : Word), v.getLsbD 2 = false → (hostWriteReg .ctrl v s).irq = false) ∧
  (∀ (s : State) (v : Word), v.getLsbD 0 = true → s.busy = false →
    (hostWriteReg .ctrl v s).irq = false) ∧
  ∀ s : State, s.irq = (s.irqEn && (s.status.done || s.status.err))

/-- A host write to `STATUS` clears the flags whose bit is 1, `ERR_CODE` with `ERR`, and nothing
else: the error information stays (R27, R306). The model's own here: the port's answer (log entry
12). -/
def Obligations.StatusWriteClearsFlags : Prop :=
  ∀ (s : State) (v : Word),
    hostWriteReg .status v s =
      { s with
        status :=
          { done := s.status.done && !v.getLsbD 1
            err := s.status.err && !v.getLsbD 2
            aborted := s.status.aborted && !v.getLsbD 3
            errCode := if v.getLsbD 2 then 0 else s.status.errCode }
        response := some (.write false) }

/-- A host write to `PAL_CFG` while `BUSY` is 0: ignored in whole while the palette is locked; else
`PAL_MAX` is written, and `PAL_SIZE` where the value is 1 to 256 (R41). The model's own here: the
port's answer (log entry 12). -/
def Obligations.PaletteConfigWrite : Prop :=
  ∀ (s : State) (v : Word), s.busy = false →
    hostWriteReg .palCfg v s =
      if s.palCfg.locked then { s with response := some (.write false) }
      else
        { s with
          palCfg :=
            { size := if v.toNat % 512 = 0 ∨ 256 < v.toNat % 512 then s.palCfg.size
                else v.extractLsb' 0 9
              max := v.extractLsb' 16 8
              locked := false }
          response := some (.write false) }

/-! ### Validation -/

/-- A command whose first zero "must be >= 1" register is `r` completes with `MISSING_PARAMETER` and
that register's offset, whatever else is wrong (R135). The model's own here: the hidden cursor stays
where it is (log entry 13). -/
def Obligations.MissingParameterFirst : Prop :=
  ∀ (i : Instr) (s : State) (pre : List Reg) (r : Reg) (post : List Reg), AtValidation s →
    mustBeOne i = pre ++ r :: post → (∀ q ∈ pre, readReg s q ≠ 0) → readReg s r = 0 →
    exec i s = .next (failedValidation 4 (BitVec.ofNat 32 (regOffset r)) s)

/-- A parameter out of its range completes the command with `UNSUPPORTED` and the value: `minsize`,
`bpp`, and `pass` before `bits` (R104, R105). The model's own here: the hidden cursor stays where it
is (log entry 13). -/
def Obligations.ParameterOutOfRange : Prop :=
  ∀ (i : Instr) (s : State), AtValidation s → requiredPresent i s →
    ((i = .lzwDecode ∨ fixedFilter i ≠ none ∨ ∃ first, i = .pngUnfilter first) →
      ¬paramsLegal i s →
      exec i s = .next (failedValidation 3 ((s.regs.param.extractLsb' 0 4).setWidth 32) s)) ∧
    ((i = .adam7Geom ∨ i = .adam7Scatter) → s.regs.param.extractLsb' 0 3 = 0 →
      exec i s = .next (failedValidation 3 0 s)) ∧
    ((i = .adam7Geom ∨ i = .adam7Scatter) → s.regs.param.extractLsb' 0 3 ≠ 0 →
      ¬paramsLegal i s →
      exec i s = .next (failedValidation 3 ((s.regs.param.extractLsb' 8 8).setWidth 32) s))

/-- The windows of every command (R122, R133): its row bytes `RB` and its row count `N`, whether it
reads input, and whether it has a prior window. The first window check that fails completes the
command with `ADDRESS_FAULT` and its code. The model's own here: the hidden cursor stays where it is
(log entry 13). -/
def Obligations.AddressFaultFirst : Prop :=
  (∀ (i : Instr) (s : State),
    let w := s.regs.width.toNat
    let len := s.regs.dstLen.toNat
    let rows := s.regs.rows.toNat
    (shapeOf i s).output = (match i with
      | .mhRows byteOut _ => some (if byteOut then w else (w + 7) / 8, rows)
      | .packbits | .byterun1 | .palmRle => some (len, rows)
      | .pngUnfilter _ | .pngNone _ | .pngSub _ | .pngUp _ | .pngAvg _ | .pngPaeth _ =>
        some (len, rows)
      | .lzwDecode => some (len, 1)
      | .adam7Scatter =>
        some ((w * (s.regs.param.extractLsb' 8 8).toNat + 7) / 8, s.regs.height.toNat)
      | .cmykToRgb _ | .palLookup => some (3 * w, 1)
      | .nop | .mhRun _ | .mhCode _ | .adam7Geom => none
      | .palWrite | .palRead | .palLoad | .palAttach | .palReset => none) ∧
    (shapeOf i s).input = readsInput i ∧
    ((shapeOf i s).prior = true ↔ i ∈ [.pngUnfilter false, .pngNone false, .pngSub false,
      .pngUp false, .pngAvg false, .pngPaeth false])) ∧
  ∀ (i : Instr) (s : State) (code : Nat), AtValidation s → requiredPresent i s →
    paramsLegal i s → windowFails (shapeOf i s) s code →
    (∀ c, c < code → ¬windowFails (shapeOf i s) s c) →
    exec i s = .next (failedValidation 6 (BitVec.ofNat 32 code) s)

/-- While the palette is attached, `PAL_WRITE` and `PAL_LOAD` complete with `PALETTE_LOCKED` and the
opcode, and change nothing (R269). The model's own here: the hidden cursor stays where it is (log
entry 13). -/
def Obligations.AttachedPaletteRefusesWrites : Prop :=
  (∀ s : State, AtValidation s → s.palCfg.locked = true →
    exec .palWrite s = .next (failedValidation 7 0x70 s)) ∧
  ∀ s : State, AtValidation s → s.palCfg.locked = true →
    ¬windowFails (shapeOf .palLoad s) s 1 → exec .palLoad s = .next (failedValidation 7 0x73 s)

/-- The units and the total of every command (R123), with the columns and rows of each Adam7 pass
(R240, R241). A command whose checks all pass (R122): its cursor, end, dictionary and total are set
up, and it goes to its first unit, or completes as aborted where an abort is requested. The model's
own here: when the dictionary is made (log entry 13). -/
def Obligations.ValidationPasses : Prop :=
  (∀ (i : Instr) (s : State),
    let units := (shapeOf i s).units
    let total := (shapeOf i s).total
    match i with
    | .mhRows _ _ | .packbits | .byterun1 | .palmRle | .pngUnfilter _ | .pngNone _ | .pngSub _
    | .pngUp _ | .pngAvg _ | .pngPaeth _ =>
      units = s.regs.rows.toNat ∧ total = s.regs.rows.toNat ∧ (shapeOf i s).emptyUnit = false
    | .adam7Scatter => ∀ pass sr sc ri ci : Nat,
      (pass, sr, sc, ri, ci) ∈ [(1, 0, 0, 8, 8), (2, 0, 4, 8, 8), (3, 4, 0, 8, 4), (4, 0, 2, 4, 4),
        (5, 2, 0, 4, 2), (6, 0, 1, 2, 2), (7, 1, 0, 2, 1)] →
      (s.regs.param.extractLsb' 0 3).toNat = pass →
      let w := s.regs.width.toNat
      let h := s.regs.height.toNat
      let cols := if sc < w then (w - sc + ci - 1) / ci else 0
      let rows := if sr < h then (h - sr + ri - 1) / ri else 0
      colsOf s = cols ∧ rowsOf s = rows ∧ total = rows ∧
        units = (if cols = 0 ∨ rows = 0 then 1 else rows) ∧
        ((shapeOf i s).emptyUnit = true ↔ cols = 0 ∨ rows = 0)
    | .nop | .mhRun _ | .mhCode _ | .lzwDecode | .adam7Geom | .cmykToRgb _ | .palWrite | .palRead
    | .palLookup | .palLoad | .palAttach | .palReset =>
      units = 1 ∧ total = 1 ∧ (shapeOf i s).emptyUnit = false) ∧
  ∀ (i : Instr) (s : State), AtValidation s → requiredPresent i s → paramsLegal i s →
    (∀ c, ¬windowFails (shapeOf i s) s c) →
    ((i = .palWrite ∨ i = .palLoad) → s.palCfg.locked = false) →
    let b := 8 * s.regs.srcAddr.toNat + s.regs.inBit.toNat
    let ready : State :=
      { s with
        results := { s.results with progTotal := BitVec.ofNat 32 (shapeOf i s).total }
        engine := { s.engine with
          cursor := if readsInput i then
              (if alignsCursor i ∧ b % 8 ≠ 0 then 8 * (b / 8 + 1) else b)
            else s.engine.cursor
          stop := if readsInput i then 8 * (s.regs.srcAddr.toNat + s.regs.srcLen.toNat)
            else s.engine.stop
          lzw := if i = .lzwDecode then
              some ⟨(s.regs.param.extractLsb' 0 4).toNat, [],
                (s.regs.param.extractLsb' 0 4).toNat + 1, none⟩
            else none } }
    exec i s = .next (if s.engine.abortReq then
        { ready with
          status := { s.status with done := true, aborted := true }
          engine := { ready.engine with phase := .idle, abortReq := false, lzw := none } }
      else { ready with engine := { ready.engine with phase := .run 0 } })

/-! ### Units -/

/-- A unit step has four ends (R124, R125, R126, R302): an error, which every unit reports as
`INVALID_STRUCTURE`; success after the last unit; an abort after another unit, where one is
requested; or the next unit. Success and abort write the cursor back where the command reads input;
the other two leave the registers. The model's own here: values of 2^32 or more (log entry 9). -/
def Obligations.UnitStepEndsInOneOfFourWays : Prop :=
  ∀ (i : Instr) (u : Nat) (s : State), AtUnit i u s → ∃ t, exec i s = .next t ∧
    ((t.status = { s.status with err := true, errCode := 2 } ∧
        t.engine.phase = .idle ∧ t.engine.abortReq = false ∧ t.regs = s.regs ∧ t.pal = s.pal ∧
        t.palCfg = s.palCfg ∧
        t.results = { s.results with outCount := t.results.outCount } ∧
        (i ≠ .lzwDecode → t.results.outCount = s.results.outCount)) ∨
      (t.errors = s.errors ∧
        t.results.progDone = (if (shapeOf i s).emptyUnit then regOf (shapeOf i s).total
          else s.results.progDone + 1) ∧ t.results.progTotal = s.results.progTotal ∧
        ((u + 1 = (shapeOf i s).units ∧ t.engine.phase = .idle ∧ t.engine.abortReq = false ∧
            t.status = { s.status with done := true } ∧
            t.regs = if readsInput i then writtenBack t.engine.cursor t.engine.stop s.regs
              else s.regs) ∨
          (u + 1 < (shapeOf i s).units ∧ s.engine.abortReq = true ∧ t.engine.phase = .idle ∧
            t.engine.abortReq = false ∧
            t.status = { s.status with done := true, aborted := true } ∧
            t.regs = if readsInput i then writtenBack t.engine.cursor t.engine.stop s.regs
              else s.regs) ∨
          (u + 1 < (shapeOf i s).units ∧ s.engine.abortReq = false ∧
            t.engine.phase = .run (u + 1) ∧ t.status = s.status ∧ t.regs = s.regs))))

/-- Every legal command completes after at most `U + 1` engine steps, and is busy until then (R140).
The bound is the spec's own inference. -/
def Obligations.CommandCompletesWithinItsUnits : Prop :=
  ∀ (i : Instr) (s : State), AtValidation s → s.pending = [] → decode s.engine.lcmd = .ok i →
    ∃ (k : Nat) (t : State), 1 ≤ k ∧ k ≤ (shapeOf i s).units + 1 ∧
      Host.Core.run Sys2Proof.core k s = .next t ∧ t.busy = false ∧
      ∀ (j : Nat) (r : State), j < k → Host.Core.run Sys2Proof.core j s = .next r → r.busy = true

/-- An input that ends inside a unit (R139), for every command that reads input:
`INVALID_STRUCTURE` at the end of the window with 0xFFFFFFFF, and the row and the element where the
input ended: the byte of a PNG, CMYK or Adam7 row, the column of an MH row, the bytes put out by
`LZW_DECODE`, the bytes of a run-length row before the packet, the pixel of `PAL_LOOKUP`. No rule
names the column where the input ends at a `PNG_UNFILTER` type byte: it is a free value (log entry
18). The model's own here too: the draw counter, the drawn bytes and the cursor after an error (log
entries 6, 8, 13). -/
def Obligations.InputEndsEarly : Prop :=
  -- `PNG_NONE` to `PNG_PAETH`
  (∀ (i : Instr) (filter : PngFilter) (first : Bool) (u : Nat) (s : State),
    fixedFilter i = some (filter, first) → AtUnit i u s →
    s.engine.stop < s.engine.cursor + 8 * s.regs.dstLen.toNat →
    exec i s = .next (rowFailed u s.regs.dstLen.toNat
      (inputEnded s u ((s.engine.stop - s.engine.cursor) / 8)
        (s.engine.cursor + 8 * ((s.engine.stop - s.engine.cursor) / 8))) s)) ∧
  -- `PNG_UNFILTER`, at the type byte and behind it
  (∀ (first : Bool) (u : Nat) (s : State), AtUnit (.pngUnfilter first) u s →
    s.engine.stop < s.engine.cursor + 8 →
    exec (.pngUnfilter first) s = .next (rowFailed u s.regs.dstLen.toNat
      (inputEnded s u (Config.typeByteCol s.epoch).toNat s.engine.cursor) s)) ∧
  (∀ (first : Bool) (type : Byte) (u : Nat) (s : State), AtUnit (.pngUnfilter first) u s →
    type.toNat ≤ 4 → spellsBytes s s.engine.cursor [type] →
    let b := s.engine.cursor + 8
    s.engine.stop < b + 8 * s.regs.dstLen.toNat →
    exec (.pngUnfilter first) s = .next (rowFailed u s.regs.dstLen.toNat
      (inputEnded s u ((s.engine.stop - b) / 8) (b + 8 * ((s.engine.stop - b) / 8))) s)) ∧
  -- `CMYK_TO_RGB`, `ADAM7_SCATTER` and `PAL_LOAD`, which leave their output
  (∀ (planar : Bool) (s : State), AtUnit (.cmykToRgb planar) 0 s →
    s.engine.stop < s.engine.cursor + 32 * s.regs.width.toNat →
    exec (.cmykToRgb planar) s = .next (raise
      (inputEnded s 0 ((s.engine.stop - s.engine.cursor) / 8)
        (s.engine.cursor + 8 * ((s.engine.stop - s.engine.cursor) / 8)))
      { s with epoch := s.epoch + 1 })) ∧
  (∀ (u : Nat) (s : State), AtUnit .adam7Scatter u s → passEmpty s = false →
    s.engine.stop < s.engine.cursor + 8 * pixelRowBytes (colsOf s) (bitsOf s) →
    exec .adam7Scatter s = .next (raise
      (inputEnded s u ((s.engine.stop - s.engine.cursor) / 8)
        (s.engine.cursor + 8 * ((s.engine.stop - s.engine.cursor) / 8)))
      { s with epoch := s.epoch + 1 })) ∧
  (∀ s : State, AtUnit .palLoad 0 s → 1 ≤ palSizeOf s →
    s.engine.stop < s.engine.cursor + 24 * palSizeOf s →
    exec .palLoad s = .next (raise (inputEnded s 0 0 s.engine.cursor)
      { s with epoch := s.epoch + 1 })) ∧
  -- `PAL_LOOKUP`, behind legal index bytes
  (∀ (s : State) (indices : List Byte), AtUnit .palLookup 0 s →
    indices.length < s.regs.width.toNat → (∀ k ∈ indices, k.toNat < s.palCfg.size.toNat) →
    spellsBytes s s.engine.cursor indices →
    let b := s.engine.cursor + 8 * indices.length
    s.engine.stop < b + 8 →
    exec .palLookup s = .next (raise (inputEnded s 0 indices.length b)
      { s with
        mem := freeRegion s.epoch s.mem s.regs.dstAddr.toNat (3 * s.regs.width.toNat)
        epoch := s.epoch + 1 })) ∧
  -- `MH_CODE`, `MH_RUN` behind make-up codes, `MH_ROWS` behind runs and make-up codes
  (∀ (colour : Colour) (s : State), AtUnit (.mhCode colour) 0 s →
    codeCutOff s colour s.engine.cursor →
    exec (.mhCode colour) s = .next (raise (inputEnded s 0 0 s.engine.stop)
      { s with epoch := s.epoch + 1 })) ∧
  (∀ (colour : Colour) (s : State) (makeups : List MhEntry), AtUnit (.mhRun colour) 0 s →
    configLegal s.cfg = true → makeupsLegal s.cfg colour makeups →
    spellsMSB s s.engine.cursor (makeups.flatMap codeBits) →
    codeCutOff s colour (s.engine.cursor + (makeups.flatMap codeBits).length) →
    exec (.mhRun colour) s = .next (raise (inputEnded s 0 0 s.engine.stop)
      { s with epoch := s.epoch + 1 })) ∧
  (∀ (byteOut align : Bool) (u : Nat) (s : State) (runs : List CodedRun) (makeups : List MhEntry),
    AtUnit (.mhRows byteOut align) u s → configLegal s.cfg = true →
    let b := if align then 8 * ((s.engine.cursor + 7) / 8) else s.engine.cursor
    rowPending s runs makeups b →
    codeCutOff s (colourAfter .white runs) (b + (rowBits runs makeups).length) →
    exec (.mhRows byteOut align) s = .next (rowFailed u (mhRowBytes byteOut s)
      (inputEnded s u (runsLength runs) s.engine.stop) s)) ∧
  -- `LZW_DECODE`, behind the codes of an encoder; what it has put out is kept
  (∀ (s : State) (tokens : List LzwToken), AtUnit .lzwDecode 0 s →
    let m := minsizeOf s
    let out := lzwStreamBytes tokens
    let b := s.engine.cursor + (lzwTokenBits m [] none tokens).length
    lzwStreamLegal m [] none tokens → out.length ≤ s.regs.dstLen.toNat →
    spellsLSB s s.engine.cursor (lzwTokenBits m [] none tokens) →
    s.engine.stop < b + lzwStreamWidth m tokens →
    ∃ mem, exec .lzwDecode s = .next (raise (inputEnded s 0 out.length b)
        { s with
          mem := mem
          results := { s.results with outCount := BitVec.ofNat 32 out.length }
          epoch := s.epoch + 1 }) ∧
      (∀ k, k < out.length → storeGet mem (s.regs.dstAddr.toNat + k) = out[k]?) ∧
      ∀ a, a < s.regs.dstAddr.toNat ∨ s.regs.dstAddr.toNat + s.regs.dstLen.toNat ≤ a →
        storeGet mem a = storeGet s.mem a) ∧
  -- `PACKBITS` and `BYTERUN1`: at a control byte, in a literal's bytes, at a repeat's value byte
  (∀ (i : Instr) (u : Nat) (s : State) (ps : List RunPacket) (rest : List Byte) (fellShort : Nat),
    (i = .packbits ∨ i = .byterun1) → AtUnit i u s → (∀ p ∈ ps, p.legal) →
    let count := (ps.flatMap RunPacket.output).length
    let b := s.engine.cursor + 8 * (ps.flatMap RunPacket.encoding).length
    count < s.regs.dstLen.toNat →
    ((rest = [] ∧ s.engine.stop < b + 8 ∧ fellShort = b) ∨
      (∃ n : Byte, rest = [n] ∧ n.toNat < 128 ∧ count + n.toNat + 1 ≤ s.regs.dstLen.toNat ∧
        s.engine.stop < b + 8 + 8 * (n.toNat + 1) ∧
        fellShort = b + 8 + 8 * ((s.engine.stop - (b + 8)) / 8)) ∨
      ∃ n : Byte, rest = [n] ∧ 128 < n.toNat ∧ count + (257 - n.toNat) ≤ s.regs.dstLen.toNat ∧
        s.engine.stop < b + 16 ∧ fellShort = b + 8) →
    spellsBytes s s.engine.cursor (ps.flatMap RunPacket.encoding ++ rest) →
    exec i s = .next (rowFailed u s.regs.dstLen.toNat (inputEnded s u count fellShort) s)) ∧
  -- `PALM_RLE`: at a count byte, at a value byte
  ∀ (u : Nat) (s : State) (pairs : List (Byte × Byte)) (rest : List Byte) (fellShort : Nat),
    AtUnit .palmRle u s → (∀ p ∈ pairs, p.1 ≠ 0) →
    let count := (palmOutput pairs).length
    let b := s.engine.cursor + 16 * pairs.length
    count < s.regs.dstLen.toNat →
    ((rest = [] ∧ s.engine.stop < b + 8 ∧ fellShort = b) ∨
      ∃ n : Byte, rest = [n] ∧ n ≠ 0 ∧ count + n.toNat ≤ s.regs.dstLen.toNat ∧
        s.engine.stop < b + 16 ∧ fellShort = b + 8) →
    spellsBytes s s.engine.cursor (palmEncoding pairs ++ rest) →
    exec .palmRle s = .next (rowFailed u s.regs.dstLen.toNat (inputEnded s u count fellShort) s)

/-! ### Frames -/

/-- What no step of a command changes: the build, `IRQ_EN`, the latched word, the operand registers
but for the three of the cursor, and what the world does; a command that reads no input leaves those
three too; only the palette commands that write it change the palette, only `PAL_ATTACH` and
`PAL_RESET` the palette configuration, and only five commands `RESULT0` to `RESULT3`. The model's
own here: the hazard list (log entry 10). -/
def Obligations.CommandStepRegisterFrame : Prop :=
  ∀ (i : Instr) (s t : State), exec i s = .next t →
    t.cfg = s.cfg ∧ t.irqEn = s.irqEn ∧ t.engine.lcmd = s.engine.lcmd ∧ t.pending = s.pending ∧
    t.response = s.response ∧ t.generation = s.generation ∧
    t.regs = { s.regs with
      srcAddr := t.regs.srcAddr, srcLen := t.regs.srcLen, inBit := t.regs.inBit } ∧
    (readsInput i = false → s.hazard = [] → t.regs = s.regs) ∧
    (i ≠ .palWrite → i ≠ .palLoad → i ≠ .palReset → t.pal = s.pal) ∧
    (i ≠ .palAttach → i ≠ .palReset → t.palCfg = s.palCfg) ∧
    (s.hazard = [] → (∀ colour, i ≠ .mhRun colour) → (∀ colour, i ≠ .mhCode colour) →
      i ≠ .lzwDecode → i ≠ .adam7Geom → i ≠ .palRead →
      t.results.result0 = s.results.result0 ∧ t.results.result1 = s.results.result1 ∧
      t.results.result2 = s.results.result2 ∧ t.results.result3 = s.results.result3)

/-- `NOP`, `MH_RUN`, `MH_CODE`, `ADAM7_GEOM` and the palette commands but `PAL_LOOKUP` store to no
byte of BUF, and a validation step stores to none; `LZW_DECODE` stores to no byte outside its
`DST_LEN` bytes at `DST_ADDR`, and `CMYK_TO_RGB` and `PAL_LOOKUP` to none outside their `3 * WIDTH`
bytes there. The model's own here: the hazard list (log entry 10). -/
def Obligations.SingleUnitStoreFrame : Prop :=
  (∀ (i : Instr) (s t : State), storesNothing i = true → s.hazard = [] → exec i s = .next t →
    sameBytes s t fun _ => True) ∧
  (∀ (i : Instr) (s t : State), AtValidation s → exec i s = .next t →
    sameBytes s t fun _ => True) ∧
  ∀ (i : Instr) (rb : Nat) (s t : State),
    ((i = .lzwDecode ∧ rb = s.regs.dstLen.toNat) ∨
      ((i = .palLookup ∨ ∃ planar, i = .cmykToRgb planar) ∧ rb = 3 * s.regs.width.toNat)) →
    s.hazard = [] → exec i s = .next t →
    sameBytes s t fun a => ¬(s.regs.dstAddr.toNat ≤ a ∧ a < s.regs.dstAddr.toNat + rb)

/-- Unit `u` of a row command, whether it completes or raises, stores to no byte outside output row
`u`, which starts at `DST_ADDR + u * DST_STRIDE`. The model's own here: the hazard list (log entry
10). -/
def Obligations.RowCommandFrame : Prop :=
  ∀ (i : Instr) (u rb : Nat) (s t : State), rowBytes s i = some rb → s.engine.phase = .run u →
    s.hazard = [] → exec i s = .next t → sameBytes s t fun a => ¬inRow rb u s a

/-- Unit `k` of `ADAM7_SCATTER` stores to no byte outside the full-image row `sr + k * ri`. The
model's own here: the hazard list (log entry 10). -/
def Obligations.ScatterFrame : Prop :=
  ∀ (k : Nat) (g : PassGeometry) (s t : State), adam7Pass (passOf s) = some g →
    s.engine.phase = .run k → s.hazard = [] → exec .adam7Scatter s = .next t →
    sameBytes s t fun a =>
      ¬inRow (pixelRowBytes s.regs.width.toNat (bitsOf s)) (fullRow g k) s a

/-- No engine step writes a byte outside the output window of its command, but for bytes the host
has itself written into a window while the command ran (R134, R334). The bound is the spec's own
inference (R134). The model's own here: the hazard list (log entry 10). -/
def Obligations.EngineStaysInsideOutputWindow : Prop :=
  ∀ (s t : State) (i : Instr), engineNext s → decode s.engine.lcmd = .ok i → step s = .next t →
    sameBytes s t fun a => ¬inOutput i s a ∧ a ∉ s.hazard

/-! ### Modified Huffman -/

/-- `MH_CODE` (R155, R162): a code word of the colour's table gives its run, length and kind; 16
bits that begin with no code word are an `INVALID_STRUCTURE` with those bits. The model's own here:
the draw counter, values of 2^32 or more and the cursor after an error (log entries 6, 9, 13). -/
def Obligations.MhCodeDecodesTable : Prop :=
  (∀ (colour : Colour) (s : State) (entry : MhEntry), AtUnit (.mhCode colour) 0 s →
    configLegal s.cfg = true → entry ∈ mhTable s.cfg colour →
    spellsMSB s s.engine.cursor (codeBits entry) →
    exec (.mhCode colour) s = .next (completed true
      { s with
        results := { s.results with
          result0 := regOf entry.run
          result1 := regOf entry.len
          result2 := if entry.kind = .makeup then 1 else 0 }
        engine := { s.engine with cursor := s.engine.cursor + entry.len } })) ∧
  ∀ (colour : Colour) (s : State) (bits : List Bool), AtUnit (.mhCode colour) 0 s →
    configLegal s.cfg = true → bits.length = 16 → spellsMSB s s.engine.cursor bits →
    (∀ entry ∈ mhTable s.cfg colour, ¬spellsMSB s s.engine.cursor (codeBits entry)) →
    exec (.mhCode colour) s = .next (raise
      ⟨.invalidStructure, (s.engine.cursor + 16) / 8, 0, 0, bitsValue bits, s.engine.cursor + 16⟩
      { s with epoch := s.epoch + 1 })

/-- `MH_RUN` (R156, R161): make-up codes and a terminating code give the sum of their runs, the bits
and the code words they took; under `MH_MAKEUP_CHAIN = ERROR` a second make-up code is an
`INVALID_STRUCTURE` with its run, and so are, with those bits, 16 bits that begin with no code word
where one is due (R155). The model's own here: the draw counter, values of 2^32 or more and
the cursor after an error (log entries 6, 9, 13). -/
def Obligations.MhRunAddsCodes : Prop :=
  (∀ (colour : Colour) (s : State) (r : CodedRun), AtUnit (.mhRun colour) 0 s →
    configLegal s.cfg = true → r.legal s.cfg colour → spellsMSB s s.engine.cursor r.bits →
    exec (.mhRun colour) s = .next (completed true
      { s with
        results := { s.results with
          result0 := regOf r.length
          result1 := regOf r.bits.length
          result2 := regOf r.codes.length }
        engine := { s.engine with cursor := s.engine.cursor + r.bits.length } })) ∧
  (∀ (colour : Colour) (s : State) (x y : MhEntry), AtUnit (.mhRun colour) 0 s →
    configLegal s.cfg = true → s.cfg.makeupChain = .error → x ∈ mhTable s.cfg colour →
    x.kind = .makeup → y ∈ mhTable s.cfg colour → y.kind = .makeup →
    spellsMSB s s.engine.cursor (codeBits x ++ codeBits y) →
    exec (.mhRun colour) s = .next (raise
      ⟨.invalidStructure, (s.engine.cursor + x.len + y.len) / 8, 0, 0, y.run,
        s.engine.cursor + x.len + y.len⟩
      { s with epoch := s.epoch + 1 })) ∧
  ∀ (colour : Colour) (s : State) (makeups : List MhEntry) (bits : List Bool),
    AtUnit (.mhRun colour) 0 s → configLegal s.cfg = true → makeupsLegal s.cfg colour makeups →
    let b := s.engine.cursor + (makeups.flatMap codeBits).length
    bits.length = 16 → spellsMSB s s.engine.cursor (makeups.flatMap codeBits ++ bits) →
    noCodeAt s colour b →
    exec (.mhRun colour) s = .next (raise
      ⟨.invalidStructure, (b + 16) / 8, 0, 0, bitsValue bits, b + 16⟩
      { s with epoch := s.epoch + 1 })

/-- `MH_ROWS` (R157 to R160): a row written as alternating runs, white first, that reach `WIDTH`
with the last of them is stored as its pixels, a white one as 1; the row starts at a byte boundary
where `ALIGN` is set. The model's own here: the draw counter and values of 2^32 or more (log entries
6, 9). -/
def Obligations.MhRowsStoreRuns : Prop :=
  ∀ (byteOut align : Bool) (u : Nat) (s : State) (runs : List CodedRun),
    AtUnit (.mhRows byteOut align) u s → configLegal s.cfg = true →
    runsLegal s.cfg .white runs → runsLength runs = s.regs.width.toNat →
    runsLength runs.dropLast < s.regs.width.toNat →
    let b := if align then 8 * ((s.engine.cursor + 7) / 8) else s.engine.cursor
    spellsMSB s b (runsBits runs) →
    ∃ bytes, storesPixels byteOut (runPixels .white runs) bytes ∧
      bytes.length = mhRowBytes byteOut s ∧
      exec (.mhRows byteOut align) s =
        .next (rowDone (.mhRows byteOut align) u bytes (b + (runsBits runs).length) s)

/-- The errors inside an `MH_ROWS` row, each at the column where its run starts: a run that passes
`WIDTH`, with its length (R157); 16 bits that begin with no code word where one is due, with those
bits (R155); under `MH_MAKEUP_CHAIN = ERROR` a make-up code after a make-up code, with its run
(R156). The model's own here: the draw counter, the drawn bytes and the cursor after an error (log
entries 6, 8, 13). -/
def Obligations.MhRowsRefuseOverrun : Prop :=
  (∀ (byteOut align : Bool) (u : Nat) (s : State) (runs : List CodedRun) (r : CodedRun),
    AtUnit (.mhRows byteOut align) u s → configLegal s.cfg = true →
    runsLegal s.cfg .white (runs ++ [r]) → runsLength runs < s.regs.width.toNat →
    s.regs.width.toNat < runsLength runs + r.length →
    let b := if align then 8 * ((s.engine.cursor + 7) / 8) else s.engine.cursor
    let b' := b + (runsBits (runs ++ [r])).length
    spellsMSB s b (runsBits (runs ++ [r])) →
    exec (.mhRows byteOut align) s = .next (rowFailed u (mhRowBytes byteOut s)
      ⟨.invalidStructure, b' / 8, u, runsLength runs, r.length, b'⟩ s)) ∧
  (∀ (byteOut align : Bool) (u : Nat) (s : State) (runs : List CodedRun) (makeups : List MhEntry)
    (bits : List Bool),
    AtUnit (.mhRows byteOut align) u s → configLegal s.cfg = true →
    let b := if align then 8 * ((s.engine.cursor + 7) / 8) else s.engine.cursor
    let b' := b + (rowBits runs makeups).length
    rowPending s runs makeups b → bits.length = 16 → spellsMSB s b' bits →
    noCodeAt s (colourAfter .white runs) b' →
    exec (.mhRows byteOut align) s = .next (rowFailed u (mhRowBytes byteOut s)
      ⟨.invalidStructure, (b' + 16) / 8, u, runsLength runs, bitsValue bits, b' + 16⟩ s)) ∧
  ∀ (byteOut align : Bool) (u : Nat) (s : State) (runs : List CodedRun) (x y : MhEntry),
    AtUnit (.mhRows byteOut align) u s → configLegal s.cfg = true →
    s.cfg.makeupChain = .error →
    let b := if align then 8 * ((s.engine.cursor + 7) / 8) else s.engine.cursor
    let b' := b + (rowBits runs [x, y]).length
    rowPending s runs [x] b → y ∈ mhTable s.cfg (colourAfter .white runs) → y.kind = .makeup →
    spellsMSB s b (rowBits runs [x, y]) →
    exec (.mhRows byteOut align) s = .next (rowFailed u (mhRowBytes byteOut s)
      ⟨.invalidStructure, b' / 8, u, runsLength runs, y.run, b'⟩ s)

/-! ### LZW -/

/-- `LZW_DECODE` inverts every LZW encoder (R184 to R189): a stream of `CLEAR`s and of codes that
each stand for a string of the encoder's table, with the widths R185 gives, ended by `EOI`, is
decoded to its strings. That the encoder's streams decode is the spec's own inference (R189). The
model's own here: the draw counter and values of 2^32 or more (log entries 6, 9). -/
def Obligations.LzwDecodesEncoderStreams : Prop :=
  ∀ (s : State) (tokens : List LzwToken), AtUnit .lzwDecode 0 s →
    lzwStreamLegal (minsizeOf s) [] none tokens →
    (lzwStreamBytes tokens).length = s.regs.dstLen.toNat →
    let m := minsizeOf s
    let bits := lzwStreamBits m tokens (2 ^ m + 1)
    spellsLSB s s.engine.cursor bits →
    exec .lzwDecode s = .next (completed true
      { s with
        mem := writeBytes s.mem s.regs.dstAddr.toNat (lzwStreamBytes tokens)
        results := { s.results with
          result0 := regOf (tokens.length + 1)
          result1 := regOf (lzwStreamWidth m tokens)
          result2 := regOf (lzwStreamNext m tokens)
          outCount := s.regs.dstLen }
        engine := { s.engine with cursor := s.engine.cursor + bits.length } })

/-- Streams that no encoder writes are an `INVALID_STRUCTURE`: an `EOI` before `DST_LEN` bytes, with
the number of bytes so far (R187); a code above the next free one, and at the start or right after a
`CLEAR` a code that is not a literal, with the code (R184); and a string that does not fit, with its
code, at column `DST_LEN` (R184, R187). The bytes so far, of a string that does not fit those that
do, stand in the output and in `OUT_COUNT`; the rest of the output is unspecified (R136, R137). The
model's own here: the draw counter, the drawn bytes and the cursor after an error (log entries 6, 8,
13). -/
def Obligations.LzwRefusesBadStreams : Prop :=
  ∀ (s : State) (tokens : List LzwToken) (code value : Nat) (kept : List Byte),
    AtUnit .lzwDecode 0 s → lzwStreamLegal (minsizeOf s) [] none tokens →
    let m := minsizeOf s
    let len := s.regs.dstLen.toNat
    let out := lzwStreamBytes tokens
    let bits := lzwStreamBits m tokens code
    let b := s.engine.cursor + bits.length
    ((code = 2 ^ m + 1 ∧ value = out.length ∧ out.length < len ∧ kept = out) ∨
      (lzwStreamNext m tokens < code ∧ code < 2 ^ lzwStreamWidth m tokens ∧ value = code ∧
        out.length ≤ len ∧ kept = out) ∨
      ((tokens = [] ∨ tokens.getLast? = some .clear) ∧ 2 ^ m + 1 < code ∧
        code < 2 ^ lzwStreamWidth m tokens ∧ value = code ∧ out.length ≤ len ∧ kept = out) ∨
      ∃ w, lzwStreamLegal m [] none (tokens ++ [.string code w]) ∧ value = code ∧
        out.length ≤ len ∧ len < out.length + w.length ∧ kept = (out ++ w).take len) →
    spellsLSB s s.engine.cursor bits →
    ∃ mem, exec .lzwDecode s = .next (raise ⟨.invalidStructure, b / 8, 0, kept.length, value, b⟩
        { s with
          mem := mem
          results := { s.results with outCount := BitVec.ofNat 32 kept.length }
          epoch := s.epoch + 1 }) ∧
      (∀ k, k < kept.length → storeGet mem (s.regs.dstAddr.toNat + k) = kept[k]?) ∧
      ∀ a, a < s.regs.dstAddr.toNat ∨ s.regs.dstAddr.toNat + len ≤ a →
        storeGet mem a = storeGet s.mem a

/-! ### Run lengths -/

/-- `PACKBITS` and `BYTERUN1` read every control byte as the same packet, and every step of the one
is a step of the other (R203). The spec marks the equivalence as its own inference. -/
def Obligations.PackbitsIsByterun1 : Prop :=
  (∀ n : Byte, packbitsPacket n = byterun1Packet n ∧
    byterun1Packet n = (if n.toNat < 128 then .literal (n.toNat + 1)
      else if n.toNat = 128 then .noop else .repeated (257 - n.toNat))) ∧
  ∀ s : State, exec .packbits s = exec .byterun1 s

/-- `PACKBITS` and `BYTERUN1` (R200 to R202): packets whose outputs fill the row exactly are stored
as it, and the cursor stands after the packet that fills it. The model's own here: the draw counter
and values of 2^32 or more (log entries 6, 9). -/
def Obligations.PackbitsRowStoresPackets : Prop :=
  ∀ (i : Instr) (u : Nat) (s : State) (ps : List RunPacket),
    (i = .packbits ∨ i = .byterun1) → AtUnit i u s → (∀ p ∈ ps, p.legal) →
    (ps.flatMap RunPacket.output).length = s.regs.dstLen.toNat →
    ps.getLast? ≠ some .noop →
    spellsBytes s s.engine.cursor (ps.flatMap RunPacket.encoding) →
    exec i s = .next (rowDone i u (ps.flatMap RunPacket.output)
      (s.engine.cursor + 8 * (ps.flatMap RunPacket.encoding).length) s)

/-- `PALM_RLE` (R200, R204): pairs with counts that are not 0 and fill the row exactly are stored as
it. The model's own here: the draw counter and values of 2^32 or more (log entries 6, 9). -/
def Obligations.PalmRowStoresPairs : Prop :=
  ∀ (u : Nat) (s : State) (pairs : List (Byte × Byte)), AtUnit .palmRle u s →
    (∀ p ∈ pairs, p.1 ≠ 0) → (palmOutput pairs).length = s.regs.dstLen.toNat →
    spellsBytes s s.engine.cursor (palmEncoding pairs) →
    exec .palmRle s = .next (rowDone .palmRle u (palmOutput pairs)
      (s.engine.cursor + 16 * pairs.length) s)

/-- A packet that does not fit its row, and a Palm count of 0, is refused before its data is read:
`INVALID_STRUCTURE` at the control byte, with the bytes of the row so far and the control byte
(R200, R204). The model's own here: the draw counter, the drawn bytes and the cursor after an error
(log entries 6, 8, 13). -/
def Obligations.RunLengthOverrunRefused : Prop :=
  (∀ (i : Instr) (u : Nat) (s : State) (ps : List RunPacket) (n : Byte),
    (i = .packbits ∨ i = .byterun1) → AtUnit i u s → (∀ p ∈ ps, p.legal) →
    let count := (ps.flatMap RunPacket.output).length
    let b := s.engine.cursor + 8 * (ps.flatMap RunPacket.encoding).length
    count < s.regs.dstLen.toNat →
    ((n.toNat < 128 ∧ s.regs.dstLen.toNat < count + n.toNat + 1) ∨
      (128 < n.toNat ∧ s.regs.dstLen.toNat < count + (257 - n.toNat))) →
    spellsBytes s s.engine.cursor (ps.flatMap RunPacket.encoding ++ [n]) →
    exec i s = .next (rowFailed u s.regs.dstLen.toNat
      ⟨.invalidStructure, b / 8, u, count, n.toNat, b + 8⟩ s)) ∧
  ∀ (u : Nat) (s : State) (pairs : List (Byte × Byte)) (n : Byte), AtUnit .palmRle u s →
    (∀ p ∈ pairs, p.1 ≠ 0) →
    let count := (palmOutput pairs).length
    let b := s.engine.cursor + 16 * pairs.length
    count < s.regs.dstLen.toNat → (n = 0 ∨ s.regs.dstLen.toNat < count + n.toNat) →
    spellsBytes s s.engine.cursor (palmEncoding pairs ++ [n]) →
    exec .palmRle s = .next (rowFailed u s.regs.dstLen.toNat
      ⟨.invalidStructure, b / 8, u, count, n.toNat, b + 8⟩ s)

/-! ### PNG filters -/

/-- The five predictors (R224 to R228): Average is the floor of half the 9-bit sum, and Paeth the
neighbour nearest to `a + b - c`, ties to the left, then to the upper one. The fixed-filter commands
(R222 to R231): the row is reconstructed byte by byte from the filtered bytes and the prior row,
which is zeros, the bytes at `PRV_ADDR`, or the output row before. The model's own here: the draw
counter and values of 2^32 or more (log entries 6, 9). -/
def Obligations.PngFixedFilterRow : Prop :=
  (∀ a b c : Byte,
    pngPred .none a b c = 0 ∧
    pngPred .sub a b c = a.toNat ∧
    pngPred .up a b c = b.toNat ∧
    pngPred .average a b c = (a.toNat + b.toNat) / 2 ∧
    let p : Int := (a.toNat : Int) + b.toNat - c.toNat
    pngPred .paeth a b c =
      if (p - a.toNat).natAbs ≤ (p - b.toNat).natAbs ∧
          (p - a.toNat).natAbs ≤ (p - c.toNat).natAbs then a.toNat
      else if (p - b.toNat).natAbs ≤ (p - c.toNat).natAbs then b.toNat
      else c.toNat) ∧
  ∀ (i : Instr) (t : PngFilter) (first : Bool) (u : Nat) (s : State) (xs : List Byte),
    fixedFilter i = some (t, first) → AtUnit i u s → xs.length = s.regs.dstLen.toNat →
    spellsBytes s s.engine.cursor xs →
    let prior := if u = 0 then
        (if first then List.replicate s.regs.dstLen.toNat 0
          else readRange s s.regs.prvAddr.toNat s.regs.dstLen.toNat)
      else readRange s (s.regs.dstAddr.toNat + (u - 1) * s.regs.dstStride.toNat)
        s.regs.dstLen.toNat
    ∃ out, reconstructs t (s.regs.param.extractLsb' 0 4).toNat xs prior out ∧
      exec i s = .next (rowDone i u out (s.engine.cursor + 8 * s.regs.dstLen.toNat) s)

/-- `PNG_UNFILTER` (R229, R231): the type byte selects the filter of the row; one above 4 is an
`INVALID_STRUCTURE` at its address. The model's own here: the draw counter, the drawn bytes and the
cursor after an error (log entries 6, 8, 13). -/
def Obligations.PngUnfilterRow : Prop :=
  (∀ (first : Bool) (t : PngFilter) (type : Byte) (u : Nat) (s : State) (xs : List Byte),
    AtUnit (.pngUnfilter first) u s →
    (type, t) ∈ [(0, .none), (1, .sub), (2, .up), (3, .average), (4, .paeth)] →
    xs.length = s.regs.dstLen.toNat → spellsBytes s s.engine.cursor (type :: xs) →
    let prior := if u = 0 then
        (if first then List.replicate s.regs.dstLen.toNat 0
          else readRange s s.regs.prvAddr.toNat s.regs.dstLen.toNat)
      else readRange s (s.regs.dstAddr.toNat + (u - 1) * s.regs.dstStride.toNat)
        s.regs.dstLen.toNat
    ∃ out, reconstructs t (s.regs.param.extractLsb' 0 4).toNat xs prior out ∧
      exec (.pngUnfilter first) s = .next (rowDone (.pngUnfilter first) u out
        (s.engine.cursor + 8 + 8 * s.regs.dstLen.toNat) s)) ∧
  ∀ (first : Bool) (type : Byte) (u : Nat) (s : State), AtUnit (.pngUnfilter first) u s →
    4 < type.toNat → spellsBytes s s.engine.cursor [type] →
    exec (.pngUnfilter first) s = .next (rowFailed u s.regs.dstLen.toNat
      ⟨.invalidStructure, s.engine.cursor / 8, u, 0, type.toNat, s.engine.cursor + 8⟩ s)

/-- Reconstructing a filtered row with the same prior row and stride gives the row back, for every
filter (R238). The spec marks it as its own inference. -/
def Obligations.PngFilterIsInvertible : Prop :=
  ∀ (t : PngFilter) (bpp : Nat) (raw prior : List Byte), 1 ≤ bpp → prior.length = raw.length →
    reconRow t bpp (pngFilt t bpp raw prior) prior [] [] = raw

/-! ### Adam7 -/

/-- `ADAM7_GEOM` (R240, R241, R244, R245): the pass's word of the table, its columns and rows, and
the bytes of a reduced row. The model's own here: the draw counter and values of 2^32 or more (log
entries 6, 9). -/
def Obligations.Adam7GeometryResults : Prop :=
  ∀ s : State, AtUnit .adam7Geom 0 s → ∃ sr sc ri ci : Nat,
    (passOf s, sr, sc, ri, ci) ∈ [(1, 0, 0, 8, 8), (2, 0, 4, 8, 8), (3, 4, 0, 8, 4),
      (4, 0, 2, 4, 4), (5, 2, 0, 4, 2), (6, 0, 1, 2, 2), (7, 1, 0, 2, 1)] ∧
    let w := s.regs.width.toNat
    let h := s.regs.height.toNat
    let cols := if sc < w then (w - sc + ci - 1) / ci else 0
    let rows := if sr < h then (h - sr + ri - 1) / ri else 0
    exec .adam7Geom s = .next (completed false
      { s with results := { s.results with
          result0 := BitVec.ofNat 32 (sc + 2 ^ 8 * sr + 2 ^ 16 * ci + 2 ^ 24 * ri)
          result1 := BitVec.ofNat 32 cols
          result2 := BitVec.ofNat 32 rows
          result3 := regOf ((cols * (s.regs.param.extractLsb' 8 8).toNat + 7) / 8) } })

/-- Every pixel of an image is one pixel of one pass, and every pixel of a pass is in the image
(R243). The spec marks it as its own inference. -/
def Obligations.Adam7CoversEveryPixelOnce : Prop :=
  (∀ w h x y : Nat, x < w → y < h →
    ∃! pjk : Nat × Nat × Nat, ∃ g, adam7Pass pjk.1 = some g ∧
      pjk.2.1 < passCols g w ∧ pjk.2.2 < passRows g h ∧
      x = g.sc + pjk.2.1 * g.ci ∧ y = g.sr + pjk.2.2 * g.ri) ∧
  ∀ (w h p j k : Nat) (g : PassGeometry), adam7Pass p = some g → j < passCols g w →
    k < passRows g h → g.sc + j * g.ci < w ∧ g.sr + k * g.ri < h

/-- `ADAM7_SCATTER` with pixels of whole bytes (R244, R246): pixel `j` of reduced row `k` goes to
column `sc + j * ci` of row `sr + k * ri`, and every other byte stays. The model's own here: the
draw counter and values of 2^32 or more (log entries 6, 9). -/
def Obligations.ScatterWholeBytePixels : Prop :=
  ∀ (k : Nat) (g : PassGeometry) (s : State) (row : List Byte), AtUnit .adam7Scatter k s →
    adam7Pass (passOf s) = some g → passEmpty s = false → 8 ≤ bitsOf s →
    row.length = pixelRowBytes (colsOf s) (bitsOf s) → spellsBytes s s.engine.cursor row →
    let size := bitsOf s / 8
    let line := rowAddr s (fullRow g k)
    ∃ m, exec .adam7Scatter s = .next (afterUnit (shapeOf .adam7Scatter s) k
        { s with
          mem := m
          results := { s.results with
            outCount := regOf (s.results.outCount.toNat + row.length)
            progDone := s.results.progDone + 1 }
          engine := { s.engine with cursor := s.engine.cursor + 8 * row.length }
          epoch := s.epoch + 1 }) ∧
      (∀ j q, j < colsOf s → q < size →
        storeGet m (line + (g.sc + j * g.ci) * size + q) = row[j * size + q]?) ∧
      ∀ a, (∀ j q, j < colsOf s → q < size → a ≠ line + (g.sc + j * g.ci) * size + q) →
        storeGet m a = storeGet s.mem a

/-- `ADAM7_SCATTER` with pixels narrower than a byte (R79, R244, R246): bit `i` of pixel `j` goes to
bit `i` of the pixel in column `sc + j * ci`, and every other bit of the full row, and every byte
outside it, stays. Bits are counted from the left. The model's own here: the draw counter and values
of 2^32 or more (log entries 6, 9). -/
def Obligations.ScatterSubBytePixels : Prop :=
  ∀ (k : Nat) (g : PassGeometry) (s : State) (row : List Byte), AtUnit .adam7Scatter k s →
    adam7Pass (passOf s) = some g → passEmpty s = false → bitsOf s < 8 →
    row.length = pixelRowBytes (colsOf s) (bitsOf s) → spellsBytes s s.engine.cursor row →
    let d := bitsOf s
    let line := rowAddr s (fullRow g k)
    let leftBit := fun (v : Byte) (n : Nat) => v.getLsbD (7 - n % 8)
    ∃ m, exec .adam7Scatter s = .next (afterUnit (shapeOf .adam7Scatter s) k
        { s with
          mem := m
          results := { s.results with
            outCount := regOf (s.results.outCount.toNat + row.length)
            progDone := s.results.progDone + 1 }
          engine := { s.engine with cursor := s.engine.cursor + 8 * row.length }
          epoch := s.epoch + 1 }) ∧
      (∀ j i, j < colsOf s → i < d →
        leftBit (readMem s.epoch m (line + ((g.sc + j * g.ci) * d + i) / 8))
            ((g.sc + j * g.ci) * d + i) =
          leftBit ((row[(j * d + i) / 8]?).getD 0) (j * d + i)) ∧
      (∀ n, (∀ j i, j < colsOf s → i < d → n ≠ (g.sc + j * g.ci) * d + i) →
        leftBit (readMem s.epoch m (line + n / 8)) n =
          leftBit (readMem s.epoch s.mem (line + n / 8)) n) ∧
      ∀ a, (∀ j i, j < colsOf s → i < d → a ≠ line + ((g.sc + j * g.ci) * d + i) / 8) →
        storeGet m a = storeGet s.mem a

/-- An empty pass (R247): no input is read, nothing is written, all of the pass's progress is
counted, and the command completes. The model's own here: the draw counter (log entry 6). -/
def Obligations.ScatterEmptyPass : Prop :=
  ∀ s : State, AtUnit .adam7Scatter 0 s → passEmpty s = true →
    exec .adam7Scatter s = .next
      { completed true s with
        results := { s.results with progDone := BitVec.ofNat 32 (rowsOf s) } }

/-! ### CMYK -/

/-- `CMYK_TO_RGB` (R256, R257): each sample from its ink and the black ink of its pixel, in either
layout and under either formula. The model's own here: the draw counter and values of 2^32 or more
(log entries 6, 9). -/
def Obligations.CmykConvertsPixels : Prop :=
  ∀ (planar : Bool) (s : State) (input : List Byte), AtUnit (.cmykToRgb planar) 0 s →
    input.length = 4 * s.regs.width.toNat → spellsBytes s s.engine.cursor input →
    let w := s.regs.width.toNat
    let ink := fun (i c : Nat) => ((input[if planar then c * w + i else 4 * i + c]?).getD 0).toNat
    ∃ out : List Byte, out.length = 3 * w ∧
      (∀ i c, i < w → c < 3 → (out[3 * i + c]?).map BitVec.toNat = some (match s.cfg.cmykFormula with
        | .subClamp => 255 - ink i c - ink i 3
        | .mult => (255 - ink i c) * (255 - ink i 3) / 255)) ∧
      exec (.cmykToRgb planar) s = .next (completed true
        { s with
          mem := writeBytes s.mem s.regs.dstAddr.toNat out
          results := { s.results with outCount := regOf (3 * w) }
          engine := { s.engine with cursor := s.engine.cursor + 32 * w } })

/-! ### The palette and `NOP` -/

/-- `NOP` does nothing but complete; `PAL_ATTACH` locks the palette; `PAL_RESET` makes all 256
entries black and unlocks it (R138, R274, R275). The model's own here: the draw counter (log entry
6). -/
def Obligations.NopAttachAndReset : Prop :=
  (∀ s : State, AtUnit .nop 0 s → exec .nop s = .next (completed false s)) ∧
  (∀ s : State, AtUnit .palAttach 0 s → exec .palAttach s =
    .next (completed false { s with palCfg := { s.palCfg with locked := true } })) ∧
  ∀ s : State, AtUnit .palReset 0 s → ∃ p : PaletteRam,
    (∀ k, storeGet p k = if k < 256 then some ⟨0, 0, 0⟩ else none) ∧
    exec .palReset s =
      .next (completed false { s with pal := p, palCfg := { s.palCfg with locked := false } })

/-- `PAL_WRITE` stores the clamped entry at a legal index; at another it is an `INVALID_STRUCTURE`
with the index (R267, R268, R270). The model's own here: the draw counter and the cursor after an
error (log entries 6, 13). -/
def Obligations.PaletteWriteClamps : Prop :=
  ∀ s : State, AtUnit .palWrite 0 s →
    let index := (s.regs.param.extractLsb' 0 8).toNat
    let stored := fun (v : Byte) => min v.toNat s.palCfg.max.toNat
    (index < s.palCfg.size.toNat → ∃ e : Rgb,
      e.r.toNat = stored (s.regs.arg.extractLsb' 16 8) ∧
      e.g.toNat = stored (s.regs.arg.extractLsb' 8 8) ∧
      e.b.toNat = stored (s.regs.arg.extractLsb' 0 8) ∧
      exec .palWrite s = .next (completed false { s with pal := storeSet s.pal index e })) ∧
    (s.palCfg.size.toNat ≤ index →
      exec .palWrite s = .next (raise ⟨.invalidStructure, 0, 0, 0, index, s.engine.cursor⟩
        { s with epoch := s.epoch + 1 }))

/-- `PAL_READ` returns the entry of a legal index, red in bits 23 to 16; at another it is an
`INVALID_STRUCTURE` with the index (R268, R271). The model's own here: the draw counter and the
cursor after an error (log entries 6, 13). -/
def Obligations.PaletteReadReturnsEntry : Prop :=
  ∀ s : State, AtUnit .palRead 0 s →
    let index := (s.regs.param.extractLsb' 0 8).toNat
    let entry := palGet s index
    (index < s.palCfg.size.toNat → exec .palRead s = .next (completed false
      { s with results := { s.results with
          result0 := BitVec.ofNat 32
            (2 ^ 16 * entry.r.toNat + 2 ^ 8 * entry.g.toNat + entry.b.toNat) } })) ∧
    (s.palCfg.size.toNat ≤ index →
      exec .palRead s = .next (raise ⟨.invalidStructure, 0, 0, 0, index, s.engine.cursor⟩
        { s with epoch := s.epoch + 1 }))

/-- `PAL_LOOKUP` (R268, R272): the entries of legal index bytes are stored as red, green, blue; the
first illegal one is an `INVALID_STRUCTURE` at its address, with its pixel and value, and leaves the
output window unspecified. The model's own here: the draw counter, the drawn bytes and the cursor
after an error (log entries 6, 8, 13). -/
def Obligations.PaletteLookupExpandsIndices : Prop :=
  (∀ (s : State) (indices : List Byte), AtUnit .palLookup 0 s →
    indices.length = s.regs.width.toNat → (∀ k ∈ indices, k.toNat < s.palCfg.size.toNat) →
    spellsBytes s s.engine.cursor indices →
    exec .palLookup s = .next (completed true
      { s with
        mem := writeBytes s.mem s.regs.dstAddr.toNat (indices.flatMap fun k =>
          [(palGet s k.toNat).r, (palGet s k.toNat).g, (palGet s k.toNat).b])
        results := { s.results with outCount := regOf (3 * s.regs.width.toNat) }
        engine := { s.engine with cursor := s.engine.cursor + 8 * s.regs.width.toNat } })) ∧
  ∀ (s : State) (indices : List Byte) (bad : Byte), AtUnit .palLookup 0 s →
    indices.length < s.regs.width.toNat → (∀ k ∈ indices, k.toNat < s.palCfg.size.toNat) →
    s.palCfg.size.toNat ≤ bad.toNat → spellsBytes s s.engine.cursor (indices ++ [bad]) →
    exec .palLookup s = .next (raise
      ⟨.invalidStructure, s.engine.cursor / 8 + indices.length, 0, indices.length, bad.toNat,
        s.engine.cursor + 8 * indices.length + 8⟩
      { s with
        mem := freeRegion s.epoch s.mem s.regs.dstAddr.toNat (3 * s.regs.width.toNat)
        epoch := s.epoch + 1 })

/-- `PAL_LOAD` (R267, R273): the input's triples are stored clamped in the first `PAL_SIZE` entries,
and every other entry stays. The model's own here: the draw counter (log entry 6). -/
def Obligations.PaletteLoadFillsEntries : Prop :=
  ∀ (s : State) (bytes : List Byte), AtUnit .palLoad 0 s →
    bytes.length = 3 * s.palCfg.size.toNat → spellsBytes s s.engine.cursor bytes →
    let stored := fun (n : Nat) => min ((bytes[n]?).getD 0).toNat s.palCfg.max.toNat
    ∃ p : PaletteRam,
      (∀ k, k < s.palCfg.size.toNat → ∃ e : Rgb, storeGet p k = some e ∧
        e.r.toNat = stored (3 * k) ∧ e.g.toNat = stored (3 * k + 1) ∧
        e.b.toNat = stored (3 * k + 2)) ∧
      (∀ k, s.palCfg.size.toNat ≤ k → storeGet p k = storeGet s.pal k) ∧
      exec .palLoad s = .next (completed true
        { s with
          pal := p
          engine := { s.engine with cursor := s.engine.cursor + 24 * s.palCfg.size.toNat } })

/-! ### Invariants -/

/-- The reset state is sound. -/
def Obligations.ResetIsSound : Prop := Inv State.reset

/-- Every step keeps a state sound: BUF and the palette canonical, `PAL_SIZE` legal, `DONE` and
`ERR` never both, the error codes of R301, `CMD` latched, the dictionary only during `LZW_DECODE`,
`PROG_DONE` the unit and never above `PROG_TOTAL`, and a running command validated. That `DONE` and
`ERR` are never both 1 and that `CMD` is the latched word are the spec's own inferences (R27, R28).
The model's own here: the hazard list and the list of events (log entries 4, 10). -/
def Obligations.EveryStepKeepsSoundness : Prop :=
  ∀ s t : State, Inv s → step s = .next t → Inv t

/-- A sound block never stops: there is no lock-up state (R308), and no instruction is refused. That
there is no lock-up is the spec's own inference. The model's own here: the one fault of the model
(log entry 11). -/
def Obligations.SoundBlockNeverStops : Prop := ∀ s : State, Inv s → Moves s

/-- No mutation after attachment: while the palette is locked no step changes an entry or `PAL_CFG`,
but the unit of `PAL_RESET`, a soft reset and a hardware reset (R269). The model's own here: that
the steps of a command whose window the host has written keep the entries too is the model's choice,
beside R334's unspecified entries (log entry 10). -/
def Obligations.AttachedPaletteStaysUntilReset : Prop :=
  ∀ s t : State, s.palCfg.locked = true → step s = .next t →
    (t.pal = s.pal ∧ t.palCfg = s.palCfg) ∨
    (engineNext s ∧ decode s.engine.lcmd = .ok .palReset ∧ ∃ u, s.engine.phase = .run u) ∨
    (∃ (a : Access) (v : Word) (rest : List HostEvent), s.pending = .access a :: rest ∧
      a.kind = .write v ∧ v.getLsbD 3 = true ∧ t.pal = s.pal ∧ hostOffset s a.addr = 0x008) ∨
    ∃ rest, s.pending = .hardReset :: rest
end

