-- ==== Sys2Proof/Laws/Store.lean ====
section
/-! SUPPORT. The laws of the sparse store, of BUF and of the palette RAM: what a read gives after a
write, and that every operation keeps the canonical form. -/

namespace Sys2Proof.Machine

variable {α : Type}

/-! ### One write -/

@[simp] theorem storeGet_storeSet_same (m : List (Nat × α)) (a : Nat) (v : α) :
    storeGet (storeSet m a v) a = some v := by
  induction m with
  | nil => simp [storeSet, storeGet]
  | cons x rest ih =>
    obtain ⟨k, w⟩ := x
    by_cases h1 : a < k
    · simp [storeSet, storeGet, h1]
    · by_cases h2 : a = k
      · simp [storeSet, storeGet, h2]
      · simp [storeSet, storeGet, h1, h2, ih]

theorem storeGet_storeSet_ne (m : List (Nat × α)) {a c : Nat} (v : α) (h : c ≠ a) :
    storeGet (storeSet m a v) c = storeGet m c := by
  induction m with
  | nil => simp [storeSet, storeGet, h]
  | cons x rest ih =>
    obtain ⟨k, w⟩ := x
    by_cases h1 : a < k
    · simp [storeSet, storeGet, h1, h]
    · by_cases h2 : a = k
      · subst h2; simp [storeSet, storeGet, h]
      · simp [storeSet, storeGet, h1, h2, ih]

theorem mem_storeSet {m : List (Nat × α)} {a : Nat} {v : α} {x : Nat × α}
    (h : x ∈ storeSet m a v) : x = (a, v) ∨ x ∈ m := by
  induction m with
  | nil => simpa [storeSet] using h
  | cons y rest ih =>
    obtain ⟨k, w⟩ := y
    by_cases h1 : a < k
    · simpa [storeSet, h1] using h
    · by_cases h2 : a = k
      · simp only [storeSet, h2, if_true, if_false, lt_irrefl, List.mem_cons] at h
        rcases h with h | h
        · exact .inl (h2 ▸ h)
        · exact .inr (List.mem_cons_of_mem _ h)
      · simp only [storeSet, h1, h2, if_false, List.mem_cons] at h
        rcases h with h | h
        · exact .inr (h ▸ List.mem_cons_self)
        · rcases ih h with h | h
          · exact .inl h
          · exact .inr (List.mem_cons_of_mem _ h)

/-- A write keeps the keys strictly rising. -/
theorem storeSet_sorted {m : List (Nat × α)} (h : storeSorted m) (a : Nat) (v : α) :
    storeSorted (storeSet m a v) := by
  induction m with
  | nil => simp [storeSet, storeSorted]
  | cons x rest ih =>
    obtain ⟨k, w⟩ := x
    obtain ⟨hk, hr⟩ := List.pairwise_cons.mp h
    by_cases h1 : a < k
    · simp only [storeSet, h1, if_true]
      refine List.pairwise_cons.mpr ⟨fun y hy => ?_, h⟩
      rcases List.mem_cons.mp hy with rfl | hy
      · exact h1
      · exact lt_trans h1 (hk y hy)
    · by_cases h2 : a = k
      · subst h2
        simp only [storeSet, lt_irrefl, if_true, if_false]
        exact List.pairwise_cons.mpr ⟨hk, hr⟩
      · simp only [storeSet, h1, h2, if_false]
        refine List.pairwise_cons.mpr ⟨fun y hy => ?_, ih hr⟩
        rcases mem_storeSet hy with rfl | hy
        · exact lt_of_le_of_ne (Nat.le_of_not_lt h1) (Ne.symm h2)
        · exact hk y hy

/-- A write below a bound keeps every key below it. -/
theorem storeSet_bound {m : List (Nat × α)} {n a : Nat} (h : ∀ c ∈ m, c.1 < n) (ha : a < n)
    (v : α) : ∀ c ∈ storeSet m a v, c.1 < n := by
  intro c hc
  rcases mem_storeSet hc with rfl | hc
  · exact ha
  · exact h c hc

/-! ### BUF -/

/-- A write inside BUF keeps its canonical form. -/
theorem storeSet_memory_wf {size : Nat} {m : Memory} (h : Memory.wf size m) {a : Nat}
    (ha : a < size) (v : Byte) : Memory.wf size (storeSet m a v) :=
  ⟨storeSet_sorted h.1 a v, storeSet_bound h.2 ha v⟩

/-- `MemWrite` inside BUF keeps its canonical form. -/
theorem writeBytes_memory_wf {size : Nat} {m : Memory} (h : Memory.wf size m) :
    ∀ (bytes : List Byte) (a : Nat), a + bytes.length ≤ size →
      Memory.wf size (writeBytes m a bytes) := by
  intro bytes
  induction bytes generalizing m with
  | nil => intro a _; exact h
  | cons v vs ih =>
    intro a ha
    simp only [List.length_cons] at ha
    exact ih (storeSet_memory_wf h (by omega) v) (a + 1) (by omega)

/-- `MemWrite` leaves every byte outside its range as it was. -/
theorem storeGet_writeBytes_outside (bytes : List Byte) (m : Memory) (a c : Nat)
    (h : c < a ∨ a + bytes.length ≤ c) :
    storeGet (writeBytes m a bytes) c = storeGet m c := by
  induction bytes generalizing m a with
  | nil => rfl
  | cons v vs ih =>
    simp only [List.length_cons] at h
    simp only [writeBytes]
    rw [ih _ _ (by omega), storeGet_storeSet_ne _ _ (by omega)]

/-- `MemWrite` puts byte `j` of the list at offset `j` of its range. -/
theorem storeGet_writeBytes_inside (bytes : List Byte) (m : Memory) (a j : Nat)
    (h : j < bytes.length) : storeGet (writeBytes m a bytes) (a + j) = bytes[j]? := by
  induction bytes generalizing m a j with
  | nil => simp at h
  | cons v vs ih =>
    cases j with
    | zero =>
      simp only [writeBytes]
      rw [storeGet_writeBytes_outside _ _ _ _ (by omega)]
      simp
    | succ j =>
      simp only [writeBytes, List.length_cons] at h ⊢
      have := ih (storeSet m a v) (a + 1) j (by omega)
      rw [show a + (j + 1) = a + 1 + j by omega, this]
      simp

/-- Unspecified bytes at addresses inside BUF keep its canonical form. -/
theorem freeAt_memory_wf {size epoch : Nat} (addrs : List Nat) {m : Memory}
    (h : Memory.wf size m) (ha : ∀ a ∈ addrs, a < size) :
    Memory.wf size (freeAt epoch m addrs) := by
  induction addrs generalizing m with
  | nil => exact h
  | cons a rest ih =>
    exact ih (storeSet_memory_wf h (ha a List.mem_cons_self) _)
      fun c hc => ha c (List.mem_cons_of_mem _ hc)

/-- Every byte at no address of the list stays as it was. -/
theorem storeGet_freeAt_outside {epoch c : Nat} (addrs : List Nat) (m : Memory) (h : c ∉ addrs) :
    storeGet (freeAt epoch m addrs) c = storeGet m c := by
  induction addrs generalizing m with
  | nil => rfl
  | cons a rest ih =>
    simp only [List.mem_cons, not_or] at h
    exact (ih _ h.2).trans (storeGet_storeSet_ne _ _ h.1)

/-- Unspecified bytes in a range inside BUF keep its canonical form. -/
theorem freeRegion_memory_wf {size epoch : Nat} {m : Memory} (h : Memory.wf size m) {a n : Nat}
    (ha : a + n ≤ size) : Memory.wf size (freeRegion epoch m a n) := by
  refine freeAt_memory_wf _ h fun c hc => ?_
  have := List.mem_range'_1.mp hc
  omega

/-- Every byte outside the range stays as it was. -/
theorem storeGet_freeRegion_outside {epoch c : Nat} (m : Memory) (a n : Nat)
    (h : c < a ∨ a + n ≤ c) : storeGet (freeRegion epoch m a n) c = storeGet m c := by
  refine storeGet_freeAt_outside _ _ fun hc => ?_
  have := List.mem_range'_1.mp hc
  omega

/-- Two memories that list the same byte at an address read the same there in every epoch. -/
theorem readMem_congr {m m' : Memory} {a : Nat} (h : storeGet m' a = storeGet m a) (epoch : Nat) :
    readMem epoch m' a = readMem epoch m a := by
  simp [readMem, h]

@[simp] theorem readRange_length (s : State) (a n : Nat) : (readRange s a n).length = n := by
  simp [readRange]

theorem readRange_getElem? (s : State) (a n i : Nat) (h : i < n) :
    (readRange s a n)[i]? = some (readBuf s (a + i)) := by
  simp [readRange, h]

/-! ### The palette RAM -/

/-- Storing an entry of the 256 keeps the palette's canonical form. -/
theorem storeSet_palette_wf {p : PaletteRam} (h : PaletteRam.wf p) {k : Nat} (hk : k < 256)
    (e : Rgb) : PaletteRam.wf (storeSet p k e) :=
  ⟨storeSet_sorted h.1 k e, storeSet_bound h.2 hk e⟩

/-- Filling entries of the 256 keeps the palette's canonical form. -/
theorem palFill_wf (es : List Rgb) {p : PaletteRam} (h : PaletteRam.wf p) (k : Nat)
    (hk : k + es.length ≤ 256) : PaletteRam.wf (palFill p k es) := by
  induction es generalizing p k with
  | nil => exact h
  | cons e rest ih =>
    simp only [List.length_cons] at hk
    exact ih (storeSet_palette_wf h (by omega) e) (k + 1) (by omega)

/-- Filling leaves every entry outside the range as it was. -/
theorem storeGet_palFill_outside (es : List Rgb) (p : PaletteRam) (k c : Nat)
    (h : c < k ∨ k + es.length ≤ c) : storeGet (palFill p k es) c = storeGet p c := by
  induction es generalizing p k with
  | nil => rfl
  | cons e rest ih =>
    simp only [List.length_cons] at h
    simp only [palFill]
    rw [ih _ _ (by omega), storeGet_storeSet_ne _ _ (by omega)]

/-- Filling puts entry `j` of the list at index `k + j`. -/
theorem storeGet_palFill_inside (es : List Rgb) (p : PaletteRam) (k j : Nat) (h : j < es.length) :
    storeGet (palFill p k es) (k + j) = es[j]? := by
  induction es generalizing p k j with
  | nil => simp at h
  | cons e rest ih =>
    cases j with
    | zero =>
      simp only [palFill]
      rw [storeGet_palFill_outside _ _ _ _ (by omega)]
      simp
    | succ j =>
      simp only [palFill, List.length_cons] at h ⊢
      have := ih (storeSet p k e) (k + 1) j (by omega)
      rw [show k + (j + 1) = k + 1 + j by omega, this]
      simp

/-! ### Reset -/

/-- The memory of the reset state has the canonical form. -/
theorem reset_memory_wf : Memory.wf State.reset.cfg.memSize State.reset.mem :=
  ⟨List.Pairwise.nil, fun _ h => (List.not_mem_nil h).elim⟩

/-- The palette of the reset state has the canonical form. -/
theorem reset_palette_wf : PaletteRam.wf State.reset.pal :=
  ⟨List.Pairwise.nil, fun _ h => (List.not_mem_nil h).elim⟩

/-! ### Register values -/

/-- A value below 2^32 is held as it is. -/
theorem regOf_of_lt {n : Nat} (h : n < 2 ^ 32) : regOf n = BitVec.ofNat 32 n :=
  if_pos h

@[simp] theorem regOf_zero : regOf 0 = 0 := rfl

/-- A register holds its own number. -/
@[simp] theorem regOf_toNat (w : Word) : regOf w.toNat = w := by
  rw [regOf_of_lt w.isLt, BitVec.ofNat_toNat, BitVec.setWidth_eq]

end Sys2Proof.Machine
end

