-- ==== Sys2Proof/Laws/State.lean ====
section
/-! SUPPORT. What each field of the state holds after each named update: one lemma per field and
update, true by definition, so that no later proof unfolds an update. -/

namespace Sys2Proof.Machine

/-! ### Error completion (R302) -/

@[simp] theorem raise_cfg (e : ErrInfo) (s : State) : (raise e s).cfg = s.cfg := rfl
@[simp] theorem raise_irqEn (e : ErrInfo) (s : State) : (raise e s).irqEn = s.irqEn := rfl
@[simp] theorem raise_status (e : ErrInfo) (s : State) :
    (raise e s).status = flagsError s.status e.kind := rfl
@[simp] theorem raise_regs (e : ErrInfo) (s : State) : (raise e s).regs = s.regs := rfl
@[simp] theorem raise_palCfg (e : ErrInfo) (s : State) : (raise e s).palCfg = s.palCfg := rfl
@[simp] theorem raise_results (e : ErrInfo) (s : State) : (raise e s).results = s.results := rfl
@[simp] theorem raise_errors (e : ErrInfo) (s : State) :
    (raise e s).errors = ⟨regOf e.pos, regOf e.row, regOf e.col, regOf e.value⟩ := rfl
@[simp] theorem raise_pal (e : ErrInfo) (s : State) : (raise e s).pal = s.pal := rfl
@[simp] theorem raise_mem (e : ErrInfo) (s : State) : (raise e s).mem = s.mem := rfl
@[simp] theorem raise_engine (e : ErrInfo) (s : State) :
    (raise e s).engine = { engineIdle s.engine with cursor := e.cursor } := rfl
@[simp] theorem raise_pending (e : ErrInfo) (s : State) : (raise e s).pending = s.pending := rfl
@[simp] theorem raise_response (e : ErrInfo) (s : State) : (raise e s).response = s.response := rfl
@[simp] theorem raise_epoch (e : ErrInfo) (s : State) : (raise e s).epoch = s.epoch := rfl
@[simp] theorem raise_generation (e : ErrInfo) (s : State) :
    (raise e s).generation = s.generation := rfl
@[simp] theorem raise_hazard (e : ErrInfo) (s : State) : (raise e s).hazard = [] := rfl

/-! ### A write to `STATUS` (R27) -/

@[simp] theorem acknowledge_cfg (v : Word) (s : State) : (acknowledge v s).cfg = s.cfg := rfl
@[simp] theorem acknowledge_irqEn (v : Word) (s : State) : (acknowledge v s).irqEn = s.irqEn := rfl
@[simp] theorem acknowledge_status (v : Word) (s : State) :
    (acknowledge v s).status = flagsWritten s.status v := rfl
@[simp] theorem acknowledge_regs (v : Word) (s : State) : (acknowledge v s).regs = s.regs := rfl
@[simp] theorem acknowledge_palCfg (v : Word) (s : State) :
    (acknowledge v s).palCfg = s.palCfg := rfl
@[simp] theorem acknowledge_results (v : Word) (s : State) :
    (acknowledge v s).results = s.results := rfl
@[simp] theorem acknowledge_errors (v : Word) (s : State) :
    (acknowledge v s).errors = s.errors := rfl
@[simp] theorem acknowledge_pal (v : Word) (s : State) : (acknowledge v s).pal = s.pal := rfl
@[simp] theorem acknowledge_mem (v : Word) (s : State) : (acknowledge v s).mem = s.mem := rfl
@[simp] theorem acknowledge_engine (v : Word) (s : State) :
    (acknowledge v s).engine = s.engine := rfl
@[simp] theorem acknowledge_pending (v : Word) (s : State) :
    (acknowledge v s).pending = s.pending := rfl
@[simp] theorem acknowledge_response (v : Word) (s : State) :
    (acknowledge v s).response = s.response := rfl
@[simp] theorem acknowledge_epoch (v : Word) (s : State) : (acknowledge v s).epoch = s.epoch := rfl
@[simp] theorem acknowledge_generation (v : Word) (s : State) :
    (acknowledge v s).generation = s.generation := rfl
@[simp] theorem acknowledge_hazard (v : Word) (s : State) :
    (acknowledge v s).hazard = s.hazard := rfl

/-! ### Start (R120) -/

@[simp] theorem startCommand_cfg (s : State) : (startCommand s).cfg = s.cfg := rfl
@[simp] theorem startCommand_irqEn (s : State) : (startCommand s).irqEn = s.irqEn := rfl
@[simp] theorem startCommand_status (s : State) : (startCommand s).status = StatusFlags.reset := rfl
@[simp] theorem startCommand_regs (s : State) : (startCommand s).regs = s.regs := rfl
@[simp] theorem startCommand_palCfg (s : State) : (startCommand s).palCfg = s.palCfg := rfl
@[simp] theorem startCommand_results (s : State) :
    (startCommand s).results = ResultRegs.reset := rfl
@[simp] theorem startCommand_errors (s : State) : (startCommand s).errors = ErrorRegs.reset := rfl
@[simp] theorem startCommand_pal (s : State) : (startCommand s).pal = s.pal := rfl
@[simp] theorem startCommand_mem (s : State) : (startCommand s).mem = s.mem := rfl
@[simp] theorem startCommand_engine (s : State) :
    (startCommand s).engine = { s.engine with phase := .validate, lcmd := s.regs.cmd, abortReq := false } := rfl
@[simp] theorem startCommand_pending (s : State) : (startCommand s).pending = s.pending := rfl
@[simp] theorem startCommand_response (s : State) : (startCommand s).response = s.response := rfl
@[simp] theorem startCommand_epoch (s : State) : (startCommand s).epoch = s.epoch := rfl
@[simp] theorem startCommand_generation (s : State) :
    (startCommand s).generation = s.generation := rfl
@[simp] theorem startCommand_hazard (s : State) : (startCommand s).hazard = [] := rfl

/-! ### Cursor write-back (R132) -/

@[simp] theorem writeBack_cfg (s : State) : (writeBack s).cfg = s.cfg := rfl
@[simp] theorem writeBack_irqEn (s : State) : (writeBack s).irqEn = s.irqEn := rfl
@[simp] theorem writeBack_status (s : State) : (writeBack s).status = s.status := rfl
@[simp] theorem writeBack_regs (s : State) :
    (writeBack s).regs = { s.regs with
      srcAddr := regOf (s.engine.cursor / 8)
      inBit := BitVec.ofNat 3 (s.engine.cursor % 8)
      srcLen := regOf (s.engine.stop / 8 - s.engine.cursor / 8) } := rfl
@[simp] theorem writeBack_palCfg (s : State) : (writeBack s).palCfg = s.palCfg := rfl
@[simp] theorem writeBack_results (s : State) : (writeBack s).results = s.results := rfl
@[simp] theorem writeBack_errors (s : State) : (writeBack s).errors = s.errors := rfl
@[simp] theorem writeBack_pal (s : State) : (writeBack s).pal = s.pal := rfl
@[simp] theorem writeBack_mem (s : State) : (writeBack s).mem = s.mem := rfl
@[simp] theorem writeBack_engine (s : State) : (writeBack s).engine = s.engine := rfl
@[simp] theorem writeBack_pending (s : State) : (writeBack s).pending = s.pending := rfl
@[simp] theorem writeBack_response (s : State) : (writeBack s).response = s.response := rfl
@[simp] theorem writeBack_epoch (s : State) : (writeBack s).epoch = s.epoch := rfl
@[simp] theorem writeBack_generation (s : State) : (writeBack s).generation = s.generation := rfl
@[simp] theorem writeBack_hazard (s : State) : (writeBack s).hazard = s.hazard := rfl

/-! ### Success completion (R125) -/

@[simp] theorem finishSuccess_cfg (s : State) : (finishSuccess s).cfg = s.cfg := rfl
@[simp] theorem finishSuccess_irqEn (s : State) : (finishSuccess s).irqEn = s.irqEn := rfl
@[simp] theorem finishSuccess_status (s : State) :
    (finishSuccess s).status = flagsSuccess s.status := rfl
@[simp] theorem finishSuccess_regs (s : State) : (finishSuccess s).regs = s.regs := rfl
@[simp] theorem finishSuccess_palCfg (s : State) : (finishSuccess s).palCfg = s.palCfg := rfl
@[simp] theorem finishSuccess_results (s : State) : (finishSuccess s).results = s.results := rfl
@[simp] theorem finishSuccess_errors (s : State) : (finishSuccess s).errors = s.errors := rfl
@[simp] theorem finishSuccess_pal (s : State) : (finishSuccess s).pal = s.pal := rfl
@[simp] theorem finishSuccess_mem (s : State) : (finishSuccess s).mem = s.mem := rfl
@[simp] theorem finishSuccess_engine (s : State) :
    (finishSuccess s).engine = engineIdle s.engine := rfl
@[simp] theorem finishSuccess_pending (s : State) : (finishSuccess s).pending = s.pending := rfl
@[simp] theorem finishSuccess_response (s : State) : (finishSuccess s).response = s.response := rfl
@[simp] theorem finishSuccess_epoch (s : State) : (finishSuccess s).epoch = s.epoch := rfl
@[simp] theorem finishSuccess_generation (s : State) :
    (finishSuccess s).generation = s.generation := rfl
@[simp] theorem finishSuccess_hazard (s : State) : (finishSuccess s).hazard = [] := rfl

/-! ### Abort completion (R126) -/

@[simp] theorem finishAborted_cfg (s : State) : (finishAborted s).cfg = s.cfg := rfl
@[simp] theorem finishAborted_irqEn (s : State) : (finishAborted s).irqEn = s.irqEn := rfl
@[simp] theorem finishAborted_status (s : State) :
    (finishAborted s).status = flagsAborted s.status := rfl
@[simp] theorem finishAborted_regs (s : State) : (finishAborted s).regs = s.regs := rfl
@[simp] theorem finishAborted_palCfg (s : State) : (finishAborted s).palCfg = s.palCfg := rfl
@[simp] theorem finishAborted_results (s : State) : (finishAborted s).results = s.results := rfl
@[simp] theorem finishAborted_errors (s : State) : (finishAborted s).errors = s.errors := rfl
@[simp] theorem finishAborted_pal (s : State) : (finishAborted s).pal = s.pal := rfl
@[simp] theorem finishAborted_mem (s : State) : (finishAborted s).mem = s.mem := rfl
@[simp] theorem finishAborted_engine (s : State) :
    (finishAborted s).engine = engineIdle s.engine := rfl
@[simp] theorem finishAborted_pending (s : State) : (finishAborted s).pending = s.pending := rfl
@[simp] theorem finishAborted_response (s : State) : (finishAborted s).response = s.response := rfl
@[simp] theorem finishAborted_epoch (s : State) : (finishAborted s).epoch = s.epoch := rfl
@[simp] theorem finishAborted_generation (s : State) :
    (finishAborted s).generation = s.generation := rfl
@[simp] theorem finishAborted_hazard (s : State) : (finishAborted s).hazard = [] := rfl

/-! ### Hardware reset (R330) -/

@[simp] theorem hardwareReset_cfg (s : State) : (hardwareReset s).cfg = s.cfg := rfl
@[simp] theorem hardwareReset_irqEn (s : State) : (hardwareReset s).irqEn = false := rfl
@[simp] theorem hardwareReset_status (s : State) :
    (hardwareReset s).status = StatusFlags.reset := rfl
@[simp] theorem hardwareReset_regs (s : State) : (hardwareReset s).regs = OperandRegs.reset := rfl
@[simp] theorem hardwareReset_palCfg (s : State) :
    (hardwareReset s).palCfg = PaletteConfig.reset := rfl
@[simp] theorem hardwareReset_results (s : State) :
    (hardwareReset s).results = ResultRegs.reset := rfl
@[simp] theorem hardwareReset_errors (s : State) : (hardwareReset s).errors = ErrorRegs.reset := rfl
@[simp] theorem hardwareReset_pal (s : State) : (hardwareReset s).pal = [] := rfl
@[simp] theorem hardwareReset_mem (s : State) : (hardwareReset s).mem = [] := rfl
@[simp] theorem hardwareReset_engine (s : State) : (hardwareReset s).engine = Engine.reset := rfl
@[simp] theorem hardwareReset_pending (s : State) : (hardwareReset s).pending = s.pending := rfl
@[simp] theorem hardwareReset_response (s : State) : (hardwareReset s).response = none := rfl
@[simp] theorem hardwareReset_epoch (s : State) : (hardwareReset s).epoch = s.epoch + 1 := rfl
@[simp] theorem hardwareReset_generation (s : State) :
    (hardwareReset s).generation = s.generation + 1 := rfl
@[simp] theorem hardwareReset_hazard (s : State) : (hardwareReset s).hazard = [] := rfl

/-! ### Soft reset (R331) -/

@[simp] theorem softReset_cfg (s : State) : (softReset s).cfg = s.cfg := rfl
@[simp] theorem softReset_irqEn (s : State) : (softReset s).irqEn = false := rfl
@[simp] theorem softReset_status (s : State) : (softReset s).status = StatusFlags.reset := rfl
@[simp] theorem softReset_regs (s : State) : (softReset s).regs = OperandRegs.reset := rfl
@[simp] theorem softReset_palCfg (s : State) : (softReset s).palCfg = PaletteConfig.reset := rfl
@[simp] theorem softReset_results (s : State) : (softReset s).results = ResultRegs.reset := rfl
@[simp] theorem softReset_errors (s : State) : (softReset s).errors = ErrorRegs.reset := rfl
@[simp] theorem softReset_pal (s : State) : (softReset s).pal = s.pal := rfl
@[simp] theorem softReset_mem (s : State) : (softReset s).mem = s.mem := rfl
@[simp] theorem softReset_engine (s : State) : (softReset s).engine = Engine.reset := rfl
@[simp] theorem softReset_pending (s : State) : (softReset s).pending = s.pending := rfl
@[simp] theorem softReset_response (s : State) : (softReset s).response = s.response := rfl
@[simp] theorem softReset_epoch (s : State) : (softReset s).epoch = s.epoch := rfl
@[simp] theorem softReset_generation (s : State) : (softReset s).generation = s.generation := rfl
@[simp] theorem softReset_hazard (s : State) : (softReset s).hazard = [] := rfl

/-! ### A completed output row (R137) -/

@[simp] theorem storeRow_cfg (u rb : Nat) (row : List Byte) (c : Nat) (s : State) :
    (storeRow u rb row c s).cfg = s.cfg := rfl
@[simp] theorem storeRow_irqEn (u rb : Nat) (row : List Byte) (c : Nat) (s : State) :
    (storeRow u rb row c s).irqEn = s.irqEn := rfl
@[simp] theorem storeRow_status (u rb : Nat) (row : List Byte) (c : Nat) (s : State) :
    (storeRow u rb row c s).status = s.status := rfl
@[simp] theorem storeRow_regs (u rb : Nat) (row : List Byte) (c : Nat) (s : State) :
    (storeRow u rb row c s).regs = s.regs := rfl
@[simp] theorem storeRow_palCfg (u rb : Nat) (row : List Byte) (c : Nat) (s : State) :
    (storeRow u rb row c s).palCfg = s.palCfg := rfl
@[simp] theorem storeRow_results (u rb : Nat) (row : List Byte) (c : Nat) (s : State) :
    (storeRow u rb row c s).results = { s.results with outCount := regOf (s.results.outCount.toNat + rb) } := rfl
@[simp] theorem storeRow_errors (u rb : Nat) (row : List Byte) (c : Nat) (s : State) :
    (storeRow u rb row c s).errors = s.errors := rfl
@[simp] theorem storeRow_pal (u rb : Nat) (row : List Byte) (c : Nat) (s : State) :
    (storeRow u rb row c s).pal = s.pal := rfl
@[simp] theorem storeRow_mem (u rb : Nat) (row : List Byte) (c : Nat) (s : State) :
    (storeRow u rb row c s).mem = writeBytes s.mem (rowAddr s u) row := rfl
@[simp] theorem storeRow_engine (u rb : Nat) (row : List Byte) (c : Nat) (s : State) :
    (storeRow u rb row c s).engine = { s.engine with cursor := c } := rfl
@[simp] theorem storeRow_pending (u rb : Nat) (row : List Byte) (c : Nat) (s : State) :
    (storeRow u rb row c s).pending = s.pending := rfl
@[simp] theorem storeRow_response (u rb : Nat) (row : List Byte) (c : Nat) (s : State) :
    (storeRow u rb row c s).response = s.response := rfl
@[simp] theorem storeRow_epoch (u rb : Nat) (row : List Byte) (c : Nat) (s : State) :
    (storeRow u rb row c s).epoch = s.epoch := rfl
@[simp] theorem storeRow_generation (u rb : Nat) (row : List Byte) (c : Nat) (s : State) :
    (storeRow u rb row c s).generation = s.generation := rfl
@[simp] theorem storeRow_hazard (u rb : Nat) (row : List Byte) (c : Nat) (s : State) :
    (storeRow u rb row c s).hazard = s.hazard := rfl

/-! ### The row of a failing unit (R136) -/

@[simp] theorem spoilRow_cfg (u rb : Nat) (s : State) : (spoilRow u rb s).cfg = s.cfg := rfl
@[simp] theorem spoilRow_irqEn (u rb : Nat) (s : State) : (spoilRow u rb s).irqEn = s.irqEn := rfl
@[simp] theorem spoilRow_status (u rb : Nat) (s : State) :
    (spoilRow u rb s).status = s.status := rfl
@[simp] theorem spoilRow_regs (u rb : Nat) (s : State) : (spoilRow u rb s).regs = s.regs := rfl
@[simp] theorem spoilRow_palCfg (u rb : Nat) (s : State) :
    (spoilRow u rb s).palCfg = s.palCfg := rfl
@[simp] theorem spoilRow_results (u rb : Nat) (s : State) :
    (spoilRow u rb s).results = s.results := rfl
@[simp] theorem spoilRow_errors (u rb : Nat) (s : State) :
    (spoilRow u rb s).errors = s.errors := rfl
@[simp] theorem spoilRow_pal (u rb : Nat) (s : State) : (spoilRow u rb s).pal = s.pal := rfl
@[simp] theorem spoilRow_mem (u rb : Nat) (s : State) :
    (spoilRow u rb s).mem = freeRegion s.epoch s.mem (rowAddr s u) rb := rfl
@[simp] theorem spoilRow_engine (u rb : Nat) (s : State) :
    (spoilRow u rb s).engine = s.engine := rfl
@[simp] theorem spoilRow_pending (u rb : Nat) (s : State) :
    (spoilRow u rb s).pending = s.pending := rfl
@[simp] theorem spoilRow_response (u rb : Nat) (s : State) :
    (spoilRow u rb s).response = s.response := rfl
@[simp] theorem spoilRow_epoch (u rb : Nat) (s : State) : (spoilRow u rb s).epoch = s.epoch := rfl
@[simp] theorem spoilRow_generation (u rb : Nat) (s : State) :
    (spoilRow u rb s).generation = s.generation := rfl
@[simp] theorem spoilRow_hazard (u rb : Nat) (s : State) :
    (spoilRow u rb s).hazard = s.hazard := rfl

/-! ### The output of an LZW unit (R184) -/

@[simp] theorem lzwStore_cfg (out : List Byte) (s : State) : (lzwStore out s).cfg = s.cfg := rfl
@[simp] theorem lzwStore_irqEn (out : List Byte) (s : State) :
    (lzwStore out s).irqEn = s.irqEn := rfl
@[simp] theorem lzwStore_status (out : List Byte) (s : State) :
    (lzwStore out s).status = s.status := rfl
@[simp] theorem lzwStore_regs (out : List Byte) (s : State) : (lzwStore out s).regs = s.regs := rfl
@[simp] theorem lzwStore_palCfg (out : List Byte) (s : State) :
    (lzwStore out s).palCfg = s.palCfg := rfl
@[simp] theorem lzwStore_results (out : List Byte) (s : State) :
    (lzwStore out s).results = { s.results with outCount := regOf out.length } := rfl
@[simp] theorem lzwStore_errors (out : List Byte) (s : State) :
    (lzwStore out s).errors = s.errors := rfl
@[simp] theorem lzwStore_pal (out : List Byte) (s : State) : (lzwStore out s).pal = s.pal := rfl
@[simp] theorem lzwStore_mem (out : List Byte) (s : State) :
    (lzwStore out s).mem = writeBytes s.mem s.regs.dstAddr.toNat out := rfl
@[simp] theorem lzwStore_engine (out : List Byte) (s : State) :
    (lzwStore out s).engine = s.engine := rfl
@[simp] theorem lzwStore_pending (out : List Byte) (s : State) :
    (lzwStore out s).pending = s.pending := rfl
@[simp] theorem lzwStore_response (out : List Byte) (s : State) :
    (lzwStore out s).response = s.response := rfl
@[simp] theorem lzwStore_epoch (out : List Byte) (s : State) :
    (lzwStore out s).epoch = s.epoch := rfl
@[simp] theorem lzwStore_generation (out : List Byte) (s : State) :
    (lzwStore out s).generation = s.generation := rfl
@[simp] theorem lzwStore_hazard (out : List Byte) (s : State) :
    (lzwStore out s).hazard = s.hazard := rfl

/-! ### A host write to BUF (R334) -/

@[simp] theorem hostWriteBuf_cfg (a : Nat) (bytes : List Byte) (s : State) :
    (hostWriteBuf a bytes s).cfg = s.cfg := rfl
@[simp] theorem hostWriteBuf_irqEn (a : Nat) (bytes : List Byte) (s : State) :
    (hostWriteBuf a bytes s).irqEn = s.irqEn := rfl
@[simp] theorem hostWriteBuf_status (a : Nat) (bytes : List Byte) (s : State) :
    (hostWriteBuf a bytes s).status = s.status := rfl
@[simp] theorem hostWriteBuf_regs (a : Nat) (bytes : List Byte) (s : State) :
    (hostWriteBuf a bytes s).regs = s.regs := rfl
@[simp] theorem hostWriteBuf_palCfg (a : Nat) (bytes : List Byte) (s : State) :
    (hostWriteBuf a bytes s).palCfg = s.palCfg := rfl
@[simp] theorem hostWriteBuf_results (a : Nat) (bytes : List Byte) (s : State) :
    (hostWriteBuf a bytes s).results = s.results := rfl
@[simp] theorem hostWriteBuf_errors (a : Nat) (bytes : List Byte) (s : State) :
    (hostWriteBuf a bytes s).errors = s.errors := rfl
@[simp] theorem hostWriteBuf_pal (a : Nat) (bytes : List Byte) (s : State) :
    (hostWriteBuf a bytes s).pal = s.pal := rfl
@[simp] theorem hostWriteBuf_mem (a : Nat) (bytes : List Byte) (s : State) :
    (hostWriteBuf a bytes s).mem = writeBytes s.mem a bytes := rfl
@[simp] theorem hostWriteBuf_engine (a : Nat) (bytes : List Byte) (s : State) :
    (hostWriteBuf a bytes s).engine = s.engine := rfl
@[simp] theorem hostWriteBuf_pending (a : Nat) (bytes : List Byte) (s : State) :
    (hostWriteBuf a bytes s).pending = s.pending := rfl
@[simp] theorem hostWriteBuf_response (a : Nat) (bytes : List Byte) (s : State) :
    (hostWriteBuf a bytes s).response = s.response := rfl
@[simp] theorem hostWriteBuf_epoch (a : Nat) (bytes : List Byte) (s : State) :
    (hostWriteBuf a bytes s).epoch = s.epoch := rfl
@[simp] theorem hostWriteBuf_generation (a : Nat) (bytes : List Byte) (s : State) :
    (hostWriteBuf a bytes s).generation = s.generation := rfl
@[simp] theorem hostWriteBuf_hazard (a : Nat) (bytes : List Byte) (s : State) :
    (hostWriteBuf a bytes s).hazard = s.hazard ++ (List.range' a bytes.length).filter (inRunningWindow s) := rfl

/-! ### The engine goes idle -/

@[simp] theorem engineIdle_phase (g : Engine) : (engineIdle g).phase = .idle := rfl
@[simp] theorem engineIdle_lcmd (g : Engine) : (engineIdle g).lcmd = g.lcmd := rfl
@[simp] theorem engineIdle_cursor (g : Engine) : (engineIdle g).cursor = g.cursor := rfl
@[simp] theorem engineIdle_stop (g : Engine) : (engineIdle g).stop = g.stop := rfl
@[simp] theorem engineIdle_abortReq (g : Engine) : (engineIdle g).abortReq = false := rfl
@[simp] theorem engineIdle_lzw (g : Engine) : (engineIdle g).lzw = none := rfl

/-! ### The flags -/

@[simp] theorem flagsSuccess_done (f : StatusFlags) : (flagsSuccess f).done = true := rfl
@[simp] theorem flagsSuccess_err (f : StatusFlags) : (flagsSuccess f).err = f.err := rfl
@[simp] theorem flagsSuccess_aborted (f : StatusFlags) : (flagsSuccess f).aborted = f.aborted := rfl
@[simp] theorem flagsSuccess_errCode (f : StatusFlags) : (flagsSuccess f).errCode = f.errCode := rfl
@[simp] theorem flagsAborted_done (f : StatusFlags) : (flagsAborted f).done = true := rfl
@[simp] theorem flagsAborted_err (f : StatusFlags) : (flagsAborted f).err = f.err := rfl
@[simp] theorem flagsAborted_aborted (f : StatusFlags) : (flagsAborted f).aborted = true := rfl
@[simp] theorem flagsAborted_errCode (f : StatusFlags) : (flagsAborted f).errCode = f.errCode := rfl
@[simp] theorem flagsError_done (f : StatusFlags) (k : ErrorKind) :
    (flagsError f k).done = f.done := rfl
@[simp] theorem flagsError_err (f : StatusFlags) (k : ErrorKind) :
    (flagsError f k).err = true := rfl
@[simp] theorem flagsError_aborted (f : StatusFlags) (k : ErrorKind) :
    (flagsError f k).aborted = f.aborted := rfl
@[simp] theorem flagsError_errCode (f : StatusFlags) (k : ErrorKind) :
    (flagsError f k).errCode = errorCode k := rfl

end Sys2Proof.Machine
end

