-- ==== Sys2Proof/Laws/Stream.lean ====
section
/-! SUPPORT. What the stream reads answer: once per read, and for the inputs that spell given bits or
bytes. -/

namespace Sys2Proof.Machine

/-! ### One read -/

@[simp] theorem setupCursor_stop (byteEngine : Bool) (s : State) :
    (setupCursor byteEngine s).engine.stop = 8 * (s.regs.srcAddr.toNat + s.regs.srcLen.toNat) := rfl

@[simp] theorem setupCursor_regs (byteEngine : Bool) (s : State) :
    (setupCursor byteEngine s).regs = s.regs := rfl

/-- A bit of a byte as a number. -/
theorem toNat_shiftRight_mod_two (v : Byte) (k : Nat) :
    (v.toNat >>> k) % 2 = (v.getLsbD k).toNat := by
  rw [← BitVec.testBit_toNat, Nat.testBit, Nat.one_and_eq_mod_two]
  rcases Nat.mod_two_eq_zero_or_one (v.toNat >>> k) with h | h <;> simp [h]

/-- `ReadBitMSB` inside the window. -/
theorem readBitMSB_some {s : State} {b : Nat} (h : b + 1 ≤ s.engine.stop) :
    readBitMSB s b = some ((streamBitMSB s b).toNat, b + 1) := by
  simp [readBitMSB, Nat.not_lt.mpr h, toNat_shiftRight_mod_two, streamBitMSB]

/-- `ReadBitMSB` at the end of the window. -/
theorem readBitMSB_none {s : State} {b : Nat} (h : s.engine.stop < b + 1) :
    readBitMSB s b = none := by
  simp [readBitMSB, h]

/-- What `ReadBitMSB` answers when it answers. -/
theorem readBitMSB_cases {s : State} {b bit b' : Nat} (h : readBitMSB s b = some (bit, b')) :
    b + 1 ≤ s.engine.stop ∧ bit = (streamBitMSB s b).toNat ∧ b' = b + 1 := by
  by_cases hb : b + 1 ≤ s.engine.stop
  · rw [readBitMSB_some hb] at h
    simp only [Option.some.injEq, Prod.mk.injEq] at h
    exact ⟨hb, h.1.symm, h.2.symm⟩
  · rw [readBitMSB_none (by omega)] at h
    cases h

/-- `ReadByte` inside the window. -/
theorem readByte_some {s : State} {b : Nat} (h : b + 8 ≤ s.engine.stop) :
    readByte s b = some (readBuf s (b / 8), b + 8) := by
  simp [readByte, Nat.not_lt.mpr h]

/-- `ReadByte` at the end of the window. -/
theorem readByte_none {s : State} {b : Nat} (h : s.engine.stop < b + 8) : readByte s b = none := by
  simp [readByte, h]

/-- What `ReadByte` answers when it answers. -/
theorem readByte_cases {s : State} {b b' : Nat} {v : Byte} (h : readByte s b = some (v, b')) :
    b + 8 ≤ s.engine.stop ∧ v = readBuf s (b / 8) ∧ b' = b + 8 := by
  by_cases hb : b + 8 ≤ s.engine.stop
  · rw [readByte_some hb] at h
    simp only [Option.some.injEq, Prod.mk.injEq] at h
    exact ⟨hb, h.1.symm, h.2.symm⟩
  · rw [readByte_none (by omega)] at h
    cases h

/-! ### Inputs that spell bytes -/

theorem spellsBytes_cons {s : State} {b : Nat} {v : Byte} {vs : List Byte} :
    spellsBytes s b (v :: vs) ↔
      b + 8 ≤ s.engine.stop ∧ readBuf s (b / 8) = v ∧ spellsBytes s (b + 8) vs := by
  constructor
  · rintro ⟨hlen, hk⟩
    simp only [List.length_cons] at hlen hk
    refine ⟨by omega, ?_, by omega, fun k h => ?_⟩
    · simpa using (hk 0 (by omega)).symm
    · have := hk (k + 1) (by omega)
      rw [show (b + 8) / 8 + k = b / 8 + (k + 1) by omega]
      simpa using this
  · rintro ⟨h8, hv, hlen, hk⟩
    refine ⟨by simp only [List.length_cons]; omega, fun k h => ?_⟩
    cases k with
    | zero => simpa using hv.symm
    | succ k =>
      have := hk k (by simpa using h)
      rw [show b / 8 + (k + 1) = (b + 8) / 8 + k by omega]
      simpa using this

theorem spellsBytes_append {s : State} {b : Nat} {xs ys : List Byte} :
    spellsBytes s b (xs ++ ys) → spellsBytes s b xs ∧ spellsBytes s (b + 8 * xs.length) ys := by
  induction xs generalizing b with
  | nil =>
    intro h
    exact ⟨⟨by have := h.1; simp at this ⊢; omega, by simp⟩, by simpa using h⟩
  | cons x xs ih =>
    intro h
    obtain ⟨h8, hv, h⟩ := spellsBytes_cons.mp h
    obtain ⟨hx, hy⟩ := ih h
    refine ⟨spellsBytes_cons.mpr ⟨h8, hv, hx⟩, ?_⟩
    simpa [Nat.mul_add, Nat.add_assoc, Nat.add_comm 8] using hy

/-- A spelled byte is what `ReadByte` reads. -/
theorem readByte_spelled {s : State} {b : Nat} {v : Byte} {vs : List Byte}
    (h : spellsBytes s b (v :: vs)) : readByte s b = some (v, b + 8) := by
  obtain ⟨h8, hv, -⟩ := spellsBytes_cons.mp h
  rw [readByte_some h8, hv]

/-- Spelled bytes are what `ReadByte`, called again and again, reads. -/
theorem readBytes_spelled {s : State} {b : Nat} {vs : List Byte} (h : spellsBytes s b vs) :
    readBytes s vs.length b = .ok (vs, b + 8 * vs.length) := by
  induction vs generalizing b with
  | nil => rfl
  | cons v vs ih =>
    have hv := readByte_spelled h
    obtain ⟨-, -, h⟩ := spellsBytes_cons.mp h
    simp only [List.length_cons, readBytes, hv, ih h]
    rw [show b + 8 + 8 * vs.length = b + 8 * (vs.length + 1) by omega]

/-- What a run of `ReadByte` calls answers when the input is long enough: as many bytes, and the
cursor behind them. -/
theorem readBytes_ok {s : State} {n b b' : Nat} {vs : List Byte}
    (h : readBytes s n b = .ok (vs, b')) : vs.length = n ∧ b' = b + 8 * n := by
  induction n generalizing b b' vs with
  | zero => simp [readBytes] at h; obtain ⟨rfl, rfl⟩ := h; simp
  | succ n ih =>
    rw [readBytes] at h
    split at h
    · cases h
    · rename_i v b1 h1
      obtain ⟨-, -, rfl⟩ := readByte_cases h1
      split at h
      · rename_i vs2 b2 h2
        obtain ⟨hl, rfl⟩ := ih h2
        cases h
        exact ⟨by simp [hl], by omega⟩
      · cases h

/-- A run of `ReadByte` calls that the input is too short for stops after the bytes that are
there. -/
theorem readBytes_short {s : State} {n b : Nat} (hn : 1 ≤ n) (h : s.engine.stop < b + 8 * n) :
    readBytes s n b = .error ((s.engine.stop - b) / 8) := by
  induction n generalizing b with
  | zero => omega
  | succ n ih =>
    by_cases hb : b + 8 ≤ s.engine.stop
    · simp only [readBytes, readByte_some hb,
        ih (by omega) (by omega : s.engine.stop < b + 8 + 8 * n)]
      congr 1
      omega
    · simp only [readBytes, readByte_none (by omega : s.engine.stop < b + 8)]
      congr 1
      omega

/-- An input that is long enough answers. -/
theorem readBytes_long {s : State} {n b : Nat} (h : b + 8 * n ≤ s.engine.stop) :
    ∃ vs, readBytes s n b = .ok (vs, b + 8 * n) ∧ vs.length = n ∧ spellsBytes s b vs := by
  induction n generalizing b with
  | zero => exact ⟨[], by simp [readBytes], rfl, by simpa [spellsBytes] using h⟩
  | succ n ih =>
    obtain ⟨vs, hr, hl, hs⟩ := ih (b := b + 8) (by omega)
    refine ⟨readBuf s (b / 8) :: vs, ?_, by simp [hl],
      spellsBytes_cons.mpr ⟨by omega, rfl, hs⟩⟩
    simp only [readBytes, readByte_some (by omega : b + 8 ≤ s.engine.stop), hr]
    rw [show b + 8 + 8 * n = b + 8 * (n + 1) by omega]

/-! ### Inputs that spell bits -/

theorem spellsMSB_nil {s : State} {b : Nat} : spellsMSB s b [] ↔ b ≤ s.engine.stop := by
  simp [spellsMSB]

theorem spellsMSB_cons {s : State} {b : Nat} {v : Bool} {vs : List Bool} :
    spellsMSB s b (v :: vs) ↔
      b + 1 ≤ s.engine.stop ∧ streamBitMSB s b = v ∧ spellsMSB s (b + 1) vs := by
  constructor
  · rintro ⟨hlen, hk⟩
    simp only [List.length_cons] at hlen hk
    refine ⟨by omega, ?_, by omega, fun k h => ?_⟩
    · simpa using (hk 0 (by omega)).symm
    · have := hk (k + 1) (by omega)
      rw [show b + 1 + k = b + (k + 1) by omega]
      simpa using this
  · rintro ⟨h1, hv, hlen, hk⟩
    refine ⟨by simp only [List.length_cons]; omega, fun k h => ?_⟩
    cases k with
    | zero => simpa using hv.symm
    | succ k =>
      have := hk k (by simpa using h)
      rw [show b + (k + 1) = b + 1 + k by omega]
      simpa using this

theorem spellsMSB_append {s : State} {b : Nat} {xs ys : List Bool} :
    spellsMSB s b (xs ++ ys) ↔ spellsMSB s b xs ∧ spellsMSB s (b + xs.length) ys := by
  induction xs generalizing b with
  | nil =>
    simp only [List.nil_append, List.length_nil, Nat.add_zero, spellsMSB_nil]
    exact ⟨fun h => ⟨by have := h.1; omega, h⟩, And.right⟩
  | cons x xs ih =>
    simp only [List.cons_append, spellsMSB_cons, ih, List.length_cons]
    rw [show b + 1 + xs.length = b + (xs.length + 1) by omega]
    tauto

theorem spellsLSB_append {s : State} {b : Nat} {xs ys : List Bool}
    (h : spellsLSB s b (xs ++ ys)) : spellsLSB s b xs ∧ spellsLSB s (b + xs.length) ys := by
  obtain ⟨hlen, hk⟩ := h
  simp only [List.length_append] at hlen hk
  refine ⟨⟨by omega, fun k h => ?_⟩, by omega, fun k h => ?_⟩
  · have := hk k (by omega)
    rwa [List.getElem?_append_left h] at this
  · have := hk (xs.length + k) (by omega)
    rw [List.getElem?_append_right (by omega), Nat.add_sub_cancel_left] at this
    rwa [Nat.add_assoc]

/-- `ReadBitsLSB` reads the number whose bits the input spells. -/
theorem readBitsLSB_spelled {s : State} {b w code : Nat} (hc : code < 2 ^ w)
    (h : spellsLSB s b (lzwCodeBits w code)) : readBitsLSB s w b = some (code, b + w) := by
  obtain ⟨hlen, hk⟩ := h
  simp only [lzwCodeBits, List.length_map, List.length_range] at hlen hk
  have key : ∀ n, n ≤ w → bitsLSB s b n = code % 2 ^ n := by
    intro n hn
    induction n with
    | zero => simp [bitsLSB, Nat.mod_one]
    | succ n ih =>
      have hbit := hk n (by omega)
      rw [List.getElem?_map, List.getElem?_range (by omega), Option.map_some,
        Option.some.injEq] at hbit
      rw [bitsLSB, ih (by omega), toNat_shiftRight_mod_two, Nat.mod_pow_succ,
        show (readBuf s ((b + n) / 8)).getLsbD ((b + n) % 8) = code.testBit n from hbit.symm,
        Nat.toNat_testBit, Nat.shiftLeft_eq, Nat.mul_comm]
  rw [readBitsLSB, if_neg (by omega), key w (Nat.le_refl _), Nat.mod_eq_of_lt hc]

@[simp] theorem lzwCodeBits_length (w code : Nat) : (lzwCodeBits w code).length = w := by
  simp [lzwCodeBits]

@[simp] theorem codeBits_length (x : MhEntry) : (codeBits x).length = x.len := by
  simp [codeBits]

end Sys2Proof.Machine
end

