-- ==== Sys2Proof/Laws/Cycle.lean ====
section
/-! SUPPORT. What the shared command cycle can do: one lemma per operation of the cycle, and the
uniform view of the 23 commands as a shape and a unit. -/

namespace Sys2Proof.Machine

/-- The unit of every command. -/
def unitOf : Instr → Nat → State → UnitOutcome
  | .nop => nopUnit
  | .mhRows byteOut align => mhRowsUnit byteOut align
  | .mhRun colour => mhRunUnit colour
  | .mhCode colour => mhCodeUnit colour
  | .lzwDecode => lzwUnit
  | .packbits => runLengthUnit packbitsPacket
  | .byterun1 => runLengthUnit byterun1Packet
  | .palmRle => runLengthUnit palmPacket
  | .pngUnfilter first => unfilterUnit first
  | .pngNone first => fixedFilterUnit .none first
  | .pngSub first => fixedFilterUnit .sub first
  | .pngUp first => fixedFilterUnit .up first
  | .pngAvg first => fixedFilterUnit .average first
  | .pngPaeth first => fixedFilterUnit .paeth first
  | .adam7Geom => geomUnit
  | .adam7Scatter => scatterUnit
  | .cmykToRgb planar => cmykUnit planar
  | .palWrite => palWriteUnit
  | .palRead => palReadUnit
  | .palLookup => palLookupUnit
  | .palLoad => palLoadUnit
  | .palAttach => palAttachUnit
  | .palReset => palResetUnit

/-- Every meaning is the shared cycle over the command's shape and unit. -/
theorem exec_eq_commandStep (i : Instr) (s : State) :
    exec i s = commandStep (shapeOf i s) (unitOf i) s := by
  cases i <;> rfl

/-! ### The three kinds of engine step -/

/-- A validation step that is due is `validateStep`. -/
theorem exec_validate {i : Instr} {s : State} (h : AtValidation s) :
    exec i s = .next (validateStep (shapeOf i s) s) := by
  rw [exec_eq_commandStep, commandStep, h.phase]
  simp [h.quiet]

/-- A unit that is due is `unitStep`. -/
theorem exec_unit {i : Instr} {u : Nat} {s : State} (h : AtUnit i u s) :
    exec i s = .next (unitStep (shapeOf i s) (unitOf i) u s) := by
  rw [exec_eq_commandStep, commandStep, h.phase]
  simp [h.quiet, unitValidated, h.valid, h.due]

/-- Everything an engine step of a command can be. -/
theorem exec_next_cases {i : Instr} {s t : State} (h : exec i s = .next t) :
    (s.engine.phase = .idle ∧ t = s) ∨
    (AtValidation s ∧ t = validateStep (shapeOf i s) s) ∨
    (∃ u, AtUnit i u s ∧ t = unitStep (shapeOf i s) (unitOf i) u s) ∨
    (s.hazard ≠ [] ∧ s.engine.phase ≠ .idle ∧ t = hazardStep (shapeOf i s) s) := by
  rw [exec_eq_commandStep, commandStep] at h
  split at h
  · exact .inl ⟨‹_›, by cases h; rfl⟩
  · by_cases hz : s.hazard = []
    · rw [if_pos hz] at h
      exact .inr (.inl ⟨⟨‹_›, hz⟩, by cases h; rfl⟩)
    · rw [if_neg hz] at h
      exact .inr (.inr (.inr ⟨hz, by simp [*], by cases h; rfl⟩))
  · rename_i u hp
    by_cases hz : s.hazard = []
    · rw [if_neg (not_not.mpr hz)] at h
      split at h
      · rename_i hv
        simp only [unitValidated, Bool.and_eq_true, Option.isNone_iff_eq_none,
          decide_eq_true_eq] at hv
        exact .inr (.inr (.inl ⟨u, ⟨hp, hz, hv.1, hv.2⟩, by cases h; rfl⟩))
      · cases h
    · rw [if_pos hz] at h
      exact .inr (.inr (.inr ⟨hz, by simp [*], by cases h; rfl⟩))

/-! ### Validation -/

/-- A validation step raises the first error, or prepares the command and goes to unit 0, or
prepares it and completes as aborted. -/
theorem validateStep_cases (sh : Shape) (s : State) :
    (∃ e, firstError sh s = some e ∧ validateStep sh s = raise e s) ∨
    (firstError sh s = none ∧ s.engine.abortReq = true ∧
      validateStep sh s = finishAborted (prepare sh s)) ∨
    (firstError sh s = none ∧ s.engine.abortReq = false ∧
      validateStep sh s =
        { prepare sh s with engine := { (prepare sh s).engine with phase := .run 0 } }) := by
  have habort : (prepare sh s).engine.abortReq = s.engine.abortReq := by
    rw [prepare]; split <;> rfl
  cases hf : firstError sh s with
  | some e => exact .inl ⟨e, rfl, by simp [validateStep, hf]⟩
  | none =>
    cases ha : s.engine.abortReq with
    | true => exact .inr (.inl ⟨rfl, rfl, by simp [validateStep, hf, habort, ha]⟩)
    | false => exact .inr (.inr ⟨rfl, rfl, by simp [validateStep, hf, habort, ha]⟩)

/-- What preparing a command sets. -/
theorem prepare_eq (sh : Shape) (s : State) :
    prepare sh s =
      { s with
        results := { s.results with progTotal := regOf sh.total }
        engine := { s.engine with
          cursor := if sh.input then (setupCursor sh.byteEngine s).engine.cursor
            else s.engine.cursor
          stop := if sh.input then 8 * (s.regs.srcAddr.toNat + s.regs.srcLen.toNat)
            else s.engine.stop
          lzw := sh.lzwSize.map fun m => ⟨m, [], m + 1, none⟩ } } := by
  rw [prepare]
  cases sh.input <;> rfl

/-- The error of a validation has no position and keeps the cursor. -/
theorem firstError_shape {sh : Shape} {s : State} {e : ErrInfo} (h : firstError sh s = some e) :
    e.pos = 0 ∧ e.row = 0 ∧ e.col = 0 ∧ e.cursor = s.engine.cursor := by
  simp only [firstError, Option.or_eq_some_iff, missingParameter, unsupportedParameter,
    addressFault, paletteLocked, Option.map_eq_some_iff, validationError] at h
  rcases h with ((⟨_, -, rfl⟩ | ⟨-, _, -, rfl⟩) | ⟨-, _, -, rfl⟩) | ⟨-, h⟩
  · exact ⟨rfl, rfl, rfl, rfl⟩
  · exact ⟨rfl, rfl, rfl, rfl⟩
  · exact ⟨rfl, rfl, rfl, rfl⟩
  · split at h
    · obtain ⟨_, -, rfl⟩ := Option.map_eq_some_iff.mp h
      exact ⟨rfl, rfl, rfl, rfl⟩
    · cases h

/-- A command that has passed the validation has passed each of its parts. -/
theorem firstError_none {sh : Shape} {s : State} (h : firstError sh s = none) :
    (∀ p ∈ sh.required, p.2 ≠ 0) ∧ (∀ p ∈ sh.params, p.2 = true) ∧
    (∀ p ∈ windowChecks sh s, p.2 = false) ∧
    (s.palCfg.locked = true → sh.lockCheck = none) := by
  simp only [firstError, Option.or_eq_none_iff, missingParameter, unsupportedParameter,
    addressFault, paletteLocked, Option.map_eq_none_iff, List.find?_eq_none] at h
  obtain ⟨⟨⟨h1, h2⟩, h3⟩, h4⟩ := h
  refine ⟨fun p hp => by simpa using h1 p hp, fun p hp => by simpa using h2 p hp,
    fun p hp => by simpa using h3 p hp, fun hl => ?_⟩
  rw [if_pos hl, Option.map_eq_none_iff] at h4
  exact h4

/-- The error of a validation depends on the registers, the size of BUF, the lock and the cursor
alone, and whether there is one on the first three. -/
theorem firstError_none_congr {sh : Shape} {s t : State} (hr : t.regs = s.regs)
    (hc : t.cfg = s.cfg) (hl : t.palCfg.locked = s.palCfg.locked) :
    (firstError sh t = none) = (firstError sh s = none) := by
  have hw : windowChecks sh t = windowChecks sh s := by
    obtain ⟨_⟩ := s
    obtain ⟨_⟩ := t
    cases hr
    cases hc
    rfl
  simp only [firstError, Option.or_eq_none_iff, missingParameter, unsupportedParameter,
    addressFault, paletteLocked, Option.map_eq_none_iff, hw, hl]
  congr 1
  split <;> simp

/-- A command that has passed the validation has its output window inside BUF. -/
theorem output_inside {sh : Shape} {s : State} {rb n : Nat} (h : firstError sh s = none)
    (ho : sh.output = some (rb, n)) :
    s.regs.dstAddr.toNat + (n - 1) * s.regs.dstStride.toNat + rb ≤ s.cfg.memSize := by
  have h3 := (firstError_none h).2.2.1
  simp only [windowChecks, ho] at h3
  have := h3 (3, decide ((outputWindow s rb n).hi > s.cfg.memSize)) (by simp)
  simpa [outputWindow] using this

/-! ### Units -/

/-- A unit step ends with what follows its completed unit, or with its error. -/
theorem unitStep_done {sh : Shape} {unit : Nat → State → UnitOutcome} {u : Nat} {s s1 : State}
    (h : unit u s = .done s1) :
    unitStep sh unit u s =
      afterUnit sh u { s1 with epoch := s1.epoch + 1, results := bumpProgress sh s1.results } := by
  simp [unitStep, h]

theorem unitStep_raised {sh : Shape} {unit : Nat → State → UnitOutcome} {u : Nat} {s s1 : State}
    {e : ErrInfo} (h : unit u s = .raised s1 e) :
    unitStep sh unit u s = raise e { s1 with epoch := s1.epoch + 1 } := by
  simp [unitStep, h]

/-- The three ways on after a completed unit (R124). -/
theorem afterUnit_cases (sh : Shape) (u : Nat) (s : State) :
    (u + 1 = sh.units ∧ afterUnit sh u s = finishSuccess (writeBackIf sh s)) ∨
    (u + 1 ≠ sh.units ∧ s.engine.abortReq = true ∧
      afterUnit sh u s = finishAborted (writeBackIf sh s)) ∨
    (u + 1 ≠ sh.units ∧ s.engine.abortReq = false ∧
      afterUnit sh u s = { s with engine := { s.engine with phase := .run (u + 1) } }) := by
  by_cases hu : u + 1 = sh.units
  · exact .inl ⟨hu, by simp [afterUnit, hu]⟩
  · cases ha : s.engine.abortReq with
    | true => exact .inr (.inl ⟨hu, rfl, by simp [afterUnit, hu, ha]⟩)
    | false => exact .inr (.inr ⟨hu, rfl, by simp [afterUnit, hu, ha]⟩)

/-- After a unit only the registers of the cursor, the flags and the engine may differ. -/
theorem afterUnit_eq (sh : Shape) (u : Nat) (s : State) :
    afterUnit sh u s =
      { s with
        regs := (afterUnit sh u s).regs
        status := (afterUnit sh u s).status
        engine := { s.engine with
          phase := (afterUnit sh u s).engine.phase
          abortReq := (afterUnit sh u s).engine.abortReq
          lzw := (afterUnit sh u s).engine.lzw }
        hazard := (afterUnit sh u s).hazard } := by
  rcases afterUnit_cases sh u s with ⟨-, h⟩ | ⟨-, -, h⟩ | ⟨-, -, h⟩ <;> rw [h]
  · rw [writeBackIf]; split <;> rfl
  · rw [writeBackIf]; split <;> rfl

/-- A one-unit command that reads input, after its unit. -/
theorem afterUnit_single {sh : Shape} (hu : sh.units = 1) (he : sh.emptyUnit = false) (s : State) :
    afterUnit sh 0 { s with epoch := s.epoch + 1, results := bumpProgress sh s.results } =
      completed sh.input s := by
  rw [afterUnit, if_pos (by omega), bumpProgress, he, writeBackIf]
  cases sh.input <;> rfl

/-! ### Rows -/

/-- A row unit completes with its row stored, or raises with its row spoiled. -/
theorem rowUnit_cases (rb u : Nat) (row : Except ErrInfo (List Byte × Nat)) (s : State) :
    (∃ bytes cursor, row = .ok (bytes, cursor) ∧
      rowUnit rb u row s = .done (storeRow u rb bytes cursor s)) ∨
    ∃ e, row = .error e ∧ rowUnit rb u row s = .raised (spoilRow u rb s) e := by
  cases row with
  | ok p => exact .inl ⟨p.1, p.2, rfl, rfl⟩
  | error e => exact .inr ⟨e, rfl, rfl⟩

/-! ### The step of a command whose window the host has written -/

/-- A hazard step goes on to the next unit, or completes. -/
theorem hazardStep_cases (sh : Shape) (s : State) (hp : s.engine.phase ≠ .idle) :
    let s1 := hazardEffects sh (Config.hazardDraw s.epoch) s
    (∃ u, s.engine.phase = .run u ∧ u + 1 < sh.units ∧
      hazardStep sh s = { s1 with
        results := bumpProgress sh s1.results
        engine := { s1.engine with phase := .run (u + 1) } }) ∨
    (s.engine.phase = .validate ∧ 0 < sh.units ∧
      hazardStep sh s =
        { prepare sh s1 with engine := { (prepare sh s1).engine with phase := .run 0 } }) ∨
    (∃ validating, (validating = true → s.engine.phase = .validate) ∧
      hazardStep sh s = hazardComplete sh (Config.hazardDraw s.epoch) validating s1) := by
  intro s1
  rw [hazardStep]
  cases h : s.engine.phase with
  | idle => exact absurd h hp
  | validate =>
    by_cases hd : ((Config.hazardDraw s.epoch).goesOn && decide (0 < sh.units)) = true
    · simp only [hd, if_true]
      simp only [Bool.and_eq_true, decide_eq_true_eq] at hd
      exact .inr (.inl ⟨trivial, hd.2, rfl⟩)
    · simp only [hd]
      exact .inr (.inr ⟨true, by simp, rfl⟩)
  | run u =>
    by_cases hd : ((Config.hazardDraw s.epoch).goesOn && decide (u + 1 < sh.units)) = true
    · simp only [hd, if_true]
      simp only [Bool.and_eq_true, decide_eq_true_eq] at hd
      exact .inl ⟨u, rfl, hd.2, rfl⟩
    · simp only [hd]
      exact .inr (.inr ⟨false, by simp, rfl⟩)

/-- The bytes a hazard step writes lie in the output window or are the host's own. -/
theorem mem_hazardAddrs {sh : Shape} {s : State} {a : Nat} (h : a ∈ hazardAddrs sh s) :
    (∃ rb n, sh.output = some (rb, n) ∧ (outputWindow s rb n).lo ≤ a ∧
      a < (outputWindow s rb n).hi ∧ a < s.cfg.memSize) ∨ a ∈ s.hazard := by
  rw [hazardAddrs, List.mem_append] at h
  rcases h with h | h
  · split at h
    · rename_i rb n ho
      have := List.mem_range'_1.mp h
      exact .inl ⟨rb, n, ho, this.1, by omega, by omega⟩
    · cases h
  · exact .inr h

end Sys2Proof.Machine
end

