-- ==== Sys2Proof/Laws/Adam7.lean ====
section
/-! SUPPORT. The Adam7 geometry and what a scattered row leaves in BUF. -/

namespace Sys2Proof.Machine

/-! ### The pass table -/

/-- The passes there are (R240). -/
theorem adam7Pass_cases {p : Nat} {g : PassGeometry} (h : adam7Pass p = some g) :
    (p = 1 ∧ g = ⟨0, 0, 8, 8⟩) ∨ (p = 2 ∧ g = ⟨0, 4, 8, 8⟩) ∨ (p = 3 ∧ g = ⟨4, 0, 8, 4⟩) ∨
    (p = 4 ∧ g = ⟨0, 2, 4, 4⟩) ∨ (p = 5 ∧ g = ⟨2, 0, 4, 2⟩) ∨ (p = 6 ∧ g = ⟨0, 1, 2, 2⟩) ∨
    (p = 7 ∧ g = ⟨1, 0, 2, 1⟩) := by
  unfold adam7Pass at h
  split at h <;> simp only [Option.some.injEq, reduceCtorEq] at h <;> subst h <;> simp

/-- A legal pass is in the table. -/
theorem adam7Pass_of_legal {p : Nat} (h1 : 1 ≤ p) (h7 : p ≤ 7) : ∃ g, adam7Pass p = some g := by
  have : p = 1 ∨ p = 2 ∨ p = 3 ∨ p = 4 ∨ p = 5 ∨ p = 6 ∨ p = 7 := by omega
  rcases this with rfl | rfl | rfl | rfl | rfl | rfl | rfl <;> exact ⟨_, rfl⟩

theorem adam7Pass_pos {p : Nat} {g : PassGeometry} (h : adam7Pass p = some g) :
    1 ≤ g.ri ∧ 1 ≤ g.ci := by
  rcases adam7Pass_cases h with ⟨-, rfl⟩ | ⟨-, rfl⟩ | ⟨-, rfl⟩ | ⟨-, rfl⟩ | ⟨-, rfl⟩ | ⟨-, rfl⟩ |
    ⟨-, rfl⟩ <;> decide

/-- The pixels from `start` in steps of `inc` that lie below `n`, as R241 counts them. -/
theorem lt_ceilDiv_iff {n start inc j : Nat} (hi : 1 ≤ inc) :
    (j < if n > start then ceilDiv (n - start) inc else 0) ↔ start + j * inc < n := by
  by_cases h : n > start
  · rw [if_pos h, ceilDiv, ← Nat.succ_le_iff, Nat.le_div_iff_mul_le (by omega), Nat.succ_mul]
    omega
  · rw [if_neg h]
    have : 0 ≤ j * inc := Nat.zero_le _
    omega

theorem lt_passCols_iff {g : PassGeometry} {w j : Nat} (hi : 1 ≤ g.ci) :
    j < passCols g w ↔ g.sc + j * g.ci < w := lt_ceilDiv_iff hi

theorem lt_passRows_iff {g : PassGeometry} {h k : Nat} (hi : 1 ≤ g.ri) :
    k < passRows g h ↔ g.sr + k * g.ri < h := lt_ceilDiv_iff hi

theorem passRows_le (g : PassGeometry) (h : Nat) (hi : 1 ≤ g.ri) : passRows g h ≤ h := by
  by_contra hlt
  have := (lt_passRows_iff (h := h) (k := h) hi).mp (by omega)
  have : h ≤ h * g.ri := Nat.le_mul_of_pos_right _ hi
  omega

theorem passCols_le (g : PassGeometry) (w : Nat) (hi : 1 ≤ g.ci) : passCols g w ≤ w := by
  by_contra hlt
  have := (lt_passCols_iff (w := w) (j := w) hi).mp (by omega)
  have : w ≤ w * g.ci := Nat.le_mul_of_pos_right _ hi
  omega

theorem colsOf_eq {s : State} {g : PassGeometry} (h : adam7Pass (passOf s) = some g) :
    colsOf s = passCols g s.regs.width.toNat := by
  rw [colsOf, h]

theorem rowsOf_eq {s : State} {g : PassGeometry} (h : adam7Pass (passOf s) = some g) :
    rowsOf s = passRows g s.regs.height.toNat := by
  rw [rowsOf, h]

/-- The rows of a pass are no more than those of the image. -/
theorem rowsOf_le (s : State) : rowsOf s ≤ s.regs.height.toNat := by
  rw [rowsOf]
  split
  · exact passRows_le _ _ (adam7Pass_pos ‹_›).1
  · exact Nat.zero_le _

theorem colsOf_le (s : State) : colsOf s ≤ s.regs.width.toNat := by
  rw [colsOf]
  split
  · exact passCols_le _ _ (adam7Pass_pos ‹_›).2
  · exact Nat.zero_le _

theorem bitsLegal_cases {d : Nat} (h : bitsLegal d = true) :
    d = 1 ∨ d = 2 ∨ d = 4 ∨ d = 8 ∨ d = 16 ∨ d = 24 ∨ d = 32 ∨ d = 48 ∨ d = 64 := by
  simpa [bitsLegal] using h

/-! ### Pixels of whole bytes -/

/-- A row of whole-byte pixels has `size` bytes for each. -/
theorem pixelRowBytes_whole (n : Nat) {d size : Nat} (h : d = 8 * size) :
    pixelRowBytes n d = n * size := by
  subst h
  rw [pixelRowBytes, ceilDiv, show n * (8 * size) = 8 * (n * size) by ring]
  omega

/-- The columns of two different pixels of a pass do not overlap. -/
theorem pixel_disjoint {g : PassGeometry} (hi : 1 ≤ g.ci) {size j j' q q' : Nat} (hq : q < size)
    (hq' : q' < size)
    (h : (g.sc + j * g.ci) * size + q = (g.sc + j' * g.ci) * size + q') : j = j' ∧ q = q' := by
  have hx : g.sc + j * g.ci = g.sc + j' * g.ci := by
    have h1 : ((g.sc + j * g.ci) * size + q) / size = g.sc + j * g.ci := by
      rw [Nat.mul_comm, Nat.mul_add_div (by omega), Nat.div_eq_of_lt hq, Nat.add_zero]
    have h2 : ((g.sc + j' * g.ci) * size + q') / size = g.sc + j' * g.ci := by
      rw [Nat.mul_comm, Nat.mul_add_div (by omega), Nat.div_eq_of_lt hq', Nat.add_zero]
    rw [← h1, ← h2, h]
  have hj : j = j' := Nat.eq_of_mul_eq_mul_right hi (by omega)
  subst hj
  exact ⟨rfl, by omega⟩

/-- The first `n` pixels of a row of whole-byte pixels, written to their columns (R246). -/
theorem scatterWhole_fold {g : PassGeometry} (hi : 1 ≤ g.ci) {epoch d size line : Nat}
    (h8 : 8 ≤ d) (hd : d = 8 * size) (row : List Byte) (m : Memory) (n : Nat)
    (hrow : n * size ≤ row.length) :
    let m' := (List.range n).foldl
      (fun m j => scatterPixel epoch d line row m j (g.sc + j * g.ci)) m
    (∀ j q, j < n → q < size →
      storeGet m' (line + (g.sc + j * g.ci) * size + q) = row[j * size + q]?) ∧
    ∀ a, (∀ j q, j < n → q < size → a ≠ line + (g.sc + j * g.ci) * size + q) →
      storeGet m' a = storeGet m a := by
  have hsize : d / 8 = size := by omega
  induction n with
  | zero => exact ⟨fun j q h => absurd h (Nat.not_lt_zero _), fun a _ => rfl⟩
  | succ n ih =>
    obtain ⟨ih1, ih2⟩ := ih (by rw [Nat.succ_mul] at hrow; omega)
    have hpix : ((row.drop (n * size)).take size).length = size := by
      rw [Nat.succ_mul] at hrow
      simp only [List.length_take, List.length_drop]
      omega
    simp only [List.range_succ, List.foldl_append, List.foldl_cons, List.foldl_nil]
    rw [scatterPixel, if_pos h8, hsize]
    refine ⟨fun j q hj hq => ?_, fun a ha => ?_⟩
    · by_cases hjn : j = n
      · subst hjn
        rw [storeGet_writeBytes_inside _ _ _ _ (by omega), List.getElem?_take_of_lt hq,
          List.getElem?_drop]
      · rw [storeGet_writeBytes_outside, ih1 j q (by omega) hq]
        by_contra hin
        rw [hpix] at hin
        obtain ⟨q', hq', he⟩ : ∃ q', q' < size ∧
            (g.sc + j * g.ci) * size + q = (g.sc + n * g.ci) * size + q' :=
          ⟨(g.sc + j * g.ci) * size + q - (g.sc + n * g.ci) * size, by omega, by omega⟩
        exact hjn (pixel_disjoint hi hq hq' he).1
    · rw [storeGet_writeBytes_outside, ih2 a fun j q hj hq => ha j q (by omega) hq]
      by_contra hin
      rw [hpix] at hin
      exact ha n (a - (line + (g.sc + n * g.ci) * size)) (by omega) (by omega) (by omega)

/-! ### Pixels narrower than a byte -/

/-- The bits of a byte after its pixel field has been replaced (R246): bit `i` of the pixel, from the
left, is bit `i` of the value, and the rest stays. -/
theorem putSubPixel_bit {d x v p : Nat} (hd : d = 1 ∨ d = 2 ∨ d = 4) (hv : v < 2 ^ d) (hp : p < 8)
    (old : Byte) :
    (putSubPixel d old x v).getLsbD (7 - p) =
      if (x * d) % 8 ≤ p ∧ p < (x * d) % 8 + d then v.testBit (d - 1 - (p - (x * d) % 8))
      else old.getLsbD (7 - p) := by
  have hx : (x * d) % 8 + d ≤ 8 := by rcases hd with rfl | rfl | rfl <;> omega
  simp only [putSubPixel, pixelShift, BitVec.getLsbD_or, BitVec.getLsbD_and, BitVec.getLsbD_not,
    BitVec.getLsbD_ofNat, Nat.testBit_shiftLeft, Nat.testBit_two_pow_sub_one]
  have h8 : 7 - p < 8 := by omega
  by_cases h : (x * d) % 8 ≤ p ∧ p < (x * d) % 8 + d
  · rw [if_pos h]
    have h1 : 7 - p ≥ 8 - d - (x * d) % 8 := by omega
    have h2 : 7 - p - (8 - d - (x * d) % 8) < d := by omega
    have h3 : 7 - p - (8 - d - (x * d) % 8) = d - 1 - (p - (x * d) % 8) := by omega
    simp [h8, h1, h3]
    omega
  · rw [if_neg h]
    by_cases h1 : 7 - p ≥ 8 - d - (x * d) % 8
    · have h2 : ¬7 - p - (8 - d - (x * d) % 8) < d := by omega
      have h3 : v.testBit (7 - p - (8 - d - (x * d) % 8)) = false :=
        Nat.testBit_lt_two_pow (lt_of_lt_of_le hv (Nat.pow_le_pow_right (by omega) (by omega)))
      simp [h8, h2, h3]
    · simp [h1, h8]

/-- Bit `i` of pixel `j` of a reduced row, from the left. -/
theorem subPixel_bit {d j i : Nat} (hd : d = 1 ∨ d = 2 ∨ d = 4) (hi : i < d) (row : List Byte) :
    (subPixel d row j).testBit (d - 1 - i) =
      ((row[(j * d + i) / 8]?).getD 0).getLsbD (7 - (j * d + i) % 8) := by
  have h1 : (j * d + i) / 8 = j * d / 8 := by rcases hd with rfl | rfl | rfl <;> omega
  have h2 : (j * d + i) % 8 = j * d % 8 + i := by rcases hd with rfl | rfl | rfl <;> omega
  have h3 : j * d % 8 + d ≤ 8 := by rcases hd with rfl | rfl | rfl <;> omega
  rw [h1, h2, subPixel, Nat.testBit_mod_two_pow, Nat.testBit_shiftRight, pixelShift,
    ← BitVec.testBit_toNat, show 8 - d - j * d % 8 + (d - 1 - i) = 7 - (j * d % 8 + i) by omega]
  simp
  omega

theorem readMem_storeSet (epoch : Nat) (m : Memory) (a c : Nat) (v : Byte) :
    readMem epoch (storeSet m a v) c = if c = a then v else readMem epoch m c := by
  by_cases h : c = a
  · subst h; simp [readMem]
  · rw [if_neg h, readMem, readMem, storeGet_storeSet_ne _ _ h]

/-- Where bit `i` of a pixel narrower than a byte lies. -/
theorem subPixel_position {d x i : Nat} (hd : d = 1 ∨ d = 2 ∨ d = 4) (hi : i < d) :
    (x * d + i) / 8 = x * d / 8 ∧ (x * d + i) % 8 = x * d % 8 + i := by
  rcases hd with rfl | rfl | rfl <;> omega

/-- One pixel narrower than a byte, bit by bit. -/
theorem scatterPixel_bit {epoch d line : Nat} (hd : d = 1 ∨ d = 2 ∨ d = 4) (row : List Byte)
    (m : Memory) (j x n : Nat) :
    (readMem epoch (scatterPixel epoch d line row m j x) (line + n / 8)).getLsbD (7 - n % 8) =
      if x * d ≤ n ∧ n < x * d + d then
        ((row[(j * d + (n - x * d)) / 8]?).getD 0).getLsbD (7 - (j * d + (n - x * d)) % 8)
      else (readMem epoch m (line + n / 8)).getLsbD (7 - n % 8) := by
  have hlt : ¬8 ≤ d := by omega
  have hv : subPixel d row j < 2 ^ d := Nat.mod_lt _ (by positivity)
  rw [scatterPixel, if_neg hlt, readMem_storeSet]
  by_cases hn : x * d ≤ n ∧ n < x * d + d
  · obtain ⟨i, hi, rfl⟩ : ∃ i, i < d ∧ n = x * d + i := ⟨n - x * d, by omega, by omega⟩
    obtain ⟨h1, h2⟩ := subPixel_position (x := x) hd hi
    rw [if_pos hn, if_pos (by rw [h1]), putSubPixel_bit hd hv (by omega), h2,
      if_pos (by omega), Nat.add_sub_cancel_left, Nat.add_sub_cancel_left, subPixel_bit hd hi]
  · rw [if_neg hn]
    by_cases ha : line + n / 8 = line + x * d / 8
    · rw [if_pos ha, putSubPixel_bit hd hv (by omega), if_neg, ha]
      rintro ⟨h1, h2⟩
      exact hn (by omega)
    · rw [if_neg ha]

/-- The first `n` pixels of a row of pixels narrower than a byte, written to their columns
(R246). -/
theorem scatterSub_fold {g : PassGeometry} (hi : 1 ≤ g.ci) {epoch d line : Nat}
    (hd : d = 1 ∨ d = 2 ∨ d = 4) (row : List Byte) (m : Memory) (cols : Nat) :
    let m' := (List.range cols).foldl
      (fun m j => scatterPixel epoch d line row m j (g.sc + j * g.ci)) m
    let leftBit := fun (v : Byte) (n : Nat) => v.getLsbD (7 - n % 8)
    (∀ j i, j < cols → i < d →
      leftBit (readMem epoch m' (line + ((g.sc + j * g.ci) * d + i) / 8))
          ((g.sc + j * g.ci) * d + i) =
        leftBit ((row[(j * d + i) / 8]?).getD 0) (j * d + i)) ∧
    (∀ n, (∀ j i, j < cols → i < d → n ≠ (g.sc + j * g.ci) * d + i) →
      leftBit (readMem epoch m' (line + n / 8)) n = leftBit (readMem epoch m (line + n / 8)) n) ∧
    ∀ a, (∀ j i, j < cols → i < d → a ≠ line + ((g.sc + j * g.ci) * d + i) / 8) →
      storeGet m' a = storeGet m a := by
  induction cols with
  | zero =>
    exact ⟨fun j i h => absurd h (Nat.not_lt_zero _), fun n _ => rfl, fun a _ => rfl⟩
  | succ cols ih =>
    obtain ⟨ih1, ih2, ih3⟩ := ih
    simp only [List.range_succ, List.foldl_append, List.foldl_cons, List.foldl_nil] at *
    refine ⟨fun j i hj hi' => ?_, fun n hn => ?_, fun a ha => ?_⟩
    · rw [scatterPixel_bit hd]
      by_cases hjn : j = cols
      · subst hjn
        rw [if_pos (by omega), Nat.add_sub_cancel_left]
      · rw [if_neg, ih1 j i (by omega) hi']
        rintro ⟨h1, h2⟩
        exact hjn (pixel_disjoint hi hi' (q' := (g.sc + j * g.ci) * d + i - (g.sc + cols * g.ci) * d)
          (by omega) (by omega)).1
    · rw [scatterPixel_bit hd, if_neg, ih2 n fun j i hj hi' => hn j i (by omega) hi']
      rintro ⟨h1, h2⟩
      exact hn cols (n - (g.sc + cols * g.ci) * d) (by omega) (by omega) (by omega)
    · have h0 := ha cols 0 (by omega) (by omega)
      rw [Nat.add_zero] at h0
      rw [scatterPixel, if_neg (by omega), storeGet_storeSet_ne _ _ h0,
        ih3 a fun j i hj hi' => ha j i (by omega) hi']

/-! ### Rows -/

/-- The bytes of a pixel lie inside its row. -/
theorem pixel_byte_inside {x w d i : Nat} (hx : x < w) (hi : i < d) :
    (x * d + i) / 8 < pixelRowBytes w d := by
  have h : x * d + d ≤ w * d := by
    rw [← Nat.succ_mul]
    exact Nat.mul_le_mul_right d hx
  rw [pixelRowBytes, ceilDiv]
  omega

/-- A scattered row leaves every byte outside its full-image row as it was. -/
theorem scatterRow_outside {g : PassGeometry} {s : State} {k : Nat} {row : List Byte}
    (hp : adam7Pass (passOf s) = some g) (hb : bitsLegal (bitsOf s) = true)
    (hrow : row.length = pixelRowBytes (colsOf s) (bitsOf s)) {a : Nat}
    (ha : a < rowAddr s (fullRow g k) ∨
      rowAddr s (fullRow g k) + pixelRowBytes s.regs.width.toNat (bitsOf s) ≤ a) :
    storeGet (scatterRow g s k row) a = storeGet s.mem a := by
  have hci := (adam7Pass_pos hp).2
  have hcol : ∀ j, j < colsOf s → g.sc + j * g.ci < s.regs.width.toNat := fun j hj => by
    rw [colsOf_eq hp] at hj
    exact (lt_passCols_iff hci).mp hj
  have hcases := bitsLegal_cases hb
  rw [fullRow] at ha
  by_cases h8 : 8 ≤ bitsOf s
  · obtain ⟨size, hsize⟩ : ∃ size, bitsOf s = 8 * size := ⟨bitsOf s / 8, by omega⟩
    rw [pixelRowBytes_whole _ hsize] at hrow
    refine (scatterWhole_fold hci h8 hsize row s.mem (colsOf s) (by omega)).2 a fun j q hj hq he => ?_
    have := pixel_byte_inside (hcol j hj) (i := 8 * q) (d := bitsOf s) (by omega)
    rw [hsize] at this
    have h2 : ((g.sc + j * g.ci) * (8 * size) + 8 * q) / 8 = (g.sc + j * g.ci) * size + q := by
      rw [show (g.sc + j * g.ci) * (8 * size) + 8 * q = 8 * ((g.sc + j * g.ci) * size + q) by ring]
      omega
    rw [h2, ← hsize] at this
    omega
  · refine (scatterSub_fold hci (d := bitsOf s) (by omega) row s.mem (colsOf s)).2.2 a
      fun j i hj hi he => ?_
    have := pixel_byte_inside (hcol j hj) hi
    omega

/-- A scattered row keeps the canonical form of BUF. -/
theorem scatterRow_memory_wf {g : PassGeometry} {s : State} {k size : Nat} {row : List Byte}
    (hp : adam7Pass (passOf s) = some g) (hm : Memory.wf size s.mem)
    (ha : rowAddr s (fullRow g k) + pixelRowBytes s.regs.width.toNat (bitsOf s) ≤ size)
    (hb : bitsLegal (bitsOf s) = true) : Memory.wf size (scatterRow g s k row) := by
  have hci := (adam7Pass_pos hp).2
  have hcases := bitsLegal_cases hb
  have key : ∀ n, n ≤ colsOf s → Memory.wf size ((List.range n).foldl
      (fun m j => scatterPixel s.epoch (bitsOf s) (rowAddr s (g.sr + k * g.ri)) row m j
        (g.sc + j * g.ci)) s.mem) := by
    intro n hn
    induction n with
    | zero => exact hm
    | succ n ih =>
      have hcol : g.sc + n * g.ci < s.regs.width.toNat := by
        rw [← lt_passCols_iff hci, ← colsOf_eq hp]
        omega
      simp only [List.range_succ, List.foldl_append, List.foldl_cons, List.foldl_nil]
      rw [fullRow] at ha
      rw [scatterPixel]
      split
      · obtain ⟨b, hsize⟩ : ∃ b, bitsOf s = 8 * b := ⟨bitsOf s / 8, by omega⟩
        rw [pixelRowBytes_whole _ hsize] at ha
        refine writeBytes_memory_wf (ih (by omega)) _ _ ?_
        simp only [List.length_take]
        have h1 : (g.sc + n * g.ci) * b + b ≤ s.regs.width.toNat * b := by
          rw [← Nat.succ_mul]
          exact Nat.mul_le_mul_right b hcol
        rw [show bitsOf s / 8 = b by omega]
        omega
      · have := pixel_byte_inside hcol (i := 0) (d := bitsOf s) (by omega)
        exact storeSet_memory_wf (ih (by omega)) (by rw [Nat.add_zero] at this; omega) _
  exact key _ (Nat.le_refl _)

end Sys2Proof.Machine
end

