-- ==== Sys2Proof/Laws/Decode.lean ====
section
/-! SUPPORT. What the decoder of a command word can answer. -/

namespace Sys2Proof

/-- A word whose bits [31:12] are 0 is its `MODE` and its `OP` (R100). -/
theorem word_of_parts {w : Word} (h : w.extractLsb' 12 20 = 0) :
    w = (w.extractLsb' 8 4 ++ w.extractLsb' 0 8).setWidth 32 := by
  apply BitVec.eq_of_getLsbD_eq
  intro i hi
  have h' := congrArg (fun v => v.getLsbD (i - 12)) h
  simp only [BitVec.getLsbD_extractLsb', BitVec.getLsbD_setWidth, BitVec.getLsbD_append] at h' ⊢
  by_cases h1 : i < 8
  · simp [h1, hi]
  · by_cases h2 : i < 12
    · simp [h1, hi, show i - 8 < 4 by omega, show 8 + (i - 8) = i by omega]
    · simp [h1, hi, show ¬ (i - 8 < 4) by omega, show i - 12 < 20 by omega,
        show 12 + (i - 12) = i by omega] at h' ⊢
      simpa using h'

/-- What the opcode map answers is the instruction of that opcode and that `MODE`. -/
theorem decodeOp_ok {op : Nat} {mode : BitVec 4} {i : Instr} (h : decodeOp op mode = .ok i) :
    op = i.opcode.toNat ∧ mode = i.mode := by
  unfold decodeOp at h
  split at h
  all_goals first
    | (simp only [decodeNoFlags] at h; split at h
       · cases h; exact ⟨rfl, by assumption⟩
       · cases h)
    | (simp only [decodeOneFlag] at h; split at h
       · cases h; refine ⟨rfl, ?_⟩; revert mode; decide
       · cases h)
    | (simp only [decodeTwoFlags] at h; split at h
       · cases h; refine ⟨rfl, ?_⟩; revert mode; decide
       · cases h)
    | cases h

/-- What the opcode map refuses is a reserved opcode or a `MODE` bit that the opcode does not name. -/
theorem decodeOp_error {op : Nat} {mode : BitVec 4} {e : Illegal}
    (h : decodeOp op mode = .error e) :
    (modeMask op = none ∧ e = .reservedOpcode) ∨
      ∃ m, modeMask op = some m ∧ mode &&& ~~~m ≠ 0 ∧ e = .reservedMode := by
  unfold decodeOp at h
  split at h
  all_goals first
    | (simp only [decodeNoFlags] at h; split at h
       · cases h
       · cases h; refine .inr ⟨_, rfl, ?_, rfl⟩; revert mode; decide)
    | (simp only [decodeOneFlag] at h; split at h
       · cases h
       · cases h; refine .inr ⟨_, rfl, ?_, rfl⟩; revert mode; decide)
    | (simp only [decodeTwoFlags] at h; split at h
       · cases h
       · cases h; refine .inr ⟨_, rfl, ?_, rfl⟩; revert mode; decide)
    | (cases h; refine .inl ⟨?_, rfl⟩; simp only [imp_false] at *; rw [modeMask]
       (repeat' split) <;> first | rfl | (exfalso; omega))

end Sys2Proof
end

