-- ==== Sys2Proof/Laws/Huffman.lean ====
section
/-! SUPPORT. What the Modified-Huffman engine answers: its errors, the length of its rows, and what
it decodes from an input that spells code words of a prefix-free table. -/

namespace Sys2Proof.Machine

/-! ### Errors -/

theorem mhMatch_error {s : State} {table : List MhEntry} {row col left acc b : Nat} {e : ErrInfo}
    (h : mhMatch s table row col left acc b = .error e) : e.kind = .invalidStructure := by
  induction left generalizing acc b with
  | zero => simp only [mhMatch, Except.error.injEq] at h; subst h; rfl
  | succ left ih =>
    rw [mhMatch] at h
    split at h
    · simp only [Except.error.injEq] at h; subst h; rfl
    · split at h
      · cases h
      · exact ih h

theorem runLoop_error {s : State} {colour : Colour} {row col fuel total n b : Nat} {e : ErrInfo}
    (h : runLoop s colour row col fuel total n b = .error e) : e.kind = .invalidStructure := by
  induction fuel generalizing total n b with
  | zero => simp only [runLoop, Except.error.injEq] at h; subst h; rfl
  | succ fuel ih =>
    rw [runLoop] at h
    split at h
    · simp only [Except.error.injEq] at h; subst h; exact mhMatch_error ‹_›
    · split at h
      · cases h
      · split at h
        · simp only [Except.error.injEq] at h; subst h; rfl
        · exact ih h

theorem rowLoop_error {s : State} {row fuel : Nat} {pix : List Bool} {colour : Colour} {b : Nat}
    {e : ErrInfo} (h : rowLoop s row fuel pix colour b = .error e) :
    e.kind = .invalidStructure := by
  induction fuel generalizing pix colour b with
  | zero =>
    rw [rowLoop] at h
    split at h
    · cases h
    · simp only [Except.error.injEq] at h; subst h; rfl
  | succ fuel ih =>
    rw [rowLoop] at h
    split at h
    · cases h
    · split at h
      · simp only [Except.error.injEq] at h; subst h; exact runLoop_error ‹_›
      · split at h
        · simp only [Except.error.injEq] at h; subst h; rfl
        · exact ih h

/-! ### Lengths -/

/-- A decoded row has `WIDTH` pixels. -/
theorem rowLoop_length {s : State} {row fuel : Nat} {pix pix' : List Bool} {colour : Colour}
    {b b' : Nat} (h : rowLoop s row fuel pix colour b = .ok (pix', b'))
    (hp : pix.length ≤ s.regs.width.toNat) : pix'.length = s.regs.width.toNat := by
  induction fuel generalizing pix colour b with
  | zero =>
    rw [rowLoop] at h
    split at h
    · simp only [Except.ok.injEq, Prod.mk.injEq] at h; obtain ⟨rfl, -⟩ := h; omega
    · cases h
  | succ fuel ih =>
    rw [rowLoop] at h
    split at h
    · simp only [Except.ok.injEq, Prod.mk.injEq] at h; obtain ⟨rfl, -⟩ := h; omega
    · split at h
      · cases h
      · split at h
        · cases h
        · exact ih h (by simp only [List.length_append, List.length_replicate]; omega)

@[simp] theorem packRow_length (n : Nat) (pix : List Bool) : (packRow n pix).length = n := by
  induction n generalizing pix with
  | zero => rfl
  | succ n ih => simp [packRow, ih]

/-- The output bytes of `WIDTH` pixels are one row's bytes (R158). -/
theorem mhRowBytesOf_length {byteOut : Bool} {s : State} {pix : List Bool}
    (h : pix.length = s.regs.width.toNat) :
    (mhRowBytesOf byteOut s pix).length = mhRowBytes byteOut s := by
  cases byteOut <;> simp [mhRowBytesOf, byteRow, mhRowBytes, h]

/-- The row of `MH_ROWS`, where it is decoded, has one row's bytes. -/
theorem decodeRow_length {align : Bool} {s : State} {r b b' : Nat} {pix : List Bool}
    (h : decodeRow align s r b = .ok (pix, b')) : pix.length = s.regs.width.toNat :=
  rowLoop_length h (Nat.zero_le _)

/-! ### Packing -/

theorem packByte_getLsbD (pix : List Bool) (x : Nat) (hx : x < 8) :
    (packByte pix).getLsbD (7 - x) = (pix[x]?).getD false := by
  have h8 : x = 0 ∨ x = 1 ∨ x = 2 ∨ x = 3 ∨ x = 4 ∨ x = 5 ∨ x = 6 ∨ x = 7 := by omega
  simp only [packByte, List.range, List.range.loop, List.foldl_cons, List.foldl_nil]
  rcases h8 with rfl | rfl | rfl | rfl | rfl | rfl | rfl | rfl <;>
    (generalize (pix[0]?).getD false = p0
     generalize (pix[1]?).getD false = p1
     generalize (pix[2]?).getD false = p2
     generalize (pix[3]?).getD false = p3
     generalize (pix[4]?).getD false = p4
     generalize (pix[5]?).getD false = p5
     generalize (pix[6]?).getD false = p6
     generalize (pix[7]?).getD false = p7
     revert p0 p1 p2 p3 p4 p5 p6 p7
     decide)

/-- Pixel `x` of a packed row is bit `7 - x mod 8` of byte `x div 8`, and a pixel that is not there
is 0 (R79, R158). -/
theorem packRow_pixel (n : Nat) (pix : List Bool) (x : Nat) (hx : x < 8 * n) :
    ((packRow n pix)[x / 8]?).map (fun v => v.getLsbD (7 - x % 8)) =
      some ((pix[x]?).getD false) := by
  induction n generalizing pix x with
  | zero => omega
  | succ n ih =>
    by_cases h : x < 8
    · rw [Nat.div_eq_of_lt h, Nat.mod_eq_of_lt h]
      simp [packRow, packByte_getLsbD _ _ h, h]
    · obtain ⟨y, rfl⟩ : ∃ y, x = y + 8 := ⟨x - 8, by omega⟩
      rw [show (y + 8) / 8 = y / 8 + 1 by omega, show (y + 8) % 8 = y % 8 by omega]
      simp only [packRow, List.getElem?_cons_succ]
      rw [ih _ _ (by omega), List.getElem?_drop, Nat.add_comm 8 y]

/-- The bytes of a row store its pixels (R158). -/
theorem mhRowBytesOf_stores {byteOut : Bool} {s : State} {pix : List Bool}
    (h : pix.length = s.regs.width.toNat) :
    storesPixels byteOut pix (mhRowBytesOf byteOut s pix) := by
  cases byteOut with
  | true => simp [storesPixels, mhRowBytesOf, byteRow]
  | false =>
    simp only [storesPixels, mhRowBytesOf, mhRowBytes, Bool.false_eq_true, if_false,
      packRow_length, h]
    exact ⟨trivial, fun x hx => packRow_pixel _ _ _ hx⟩

/-! ### Code words -/

theorem bitsValue_append (xs ys : List Bool) :
    bitsValue (xs ++ ys) = ys.foldl (fun acc bit => 2 * acc + bit.toNat) (bitsValue xs) := by
  simp [bitsValue]

/-- One more bit. -/
theorem bitsValue_take_succ {bits : List Bool} {k : Nat} {bit : Bool} (h : bits[k]? = some bit) :
    bitsValue (bits.take (k + 1)) = 2 * bitsValue (bits.take k) + bit.toNat := by
  rw [List.take_add_one, h, Option.toList_some, bitsValue_append]
  rfl

/-- The first `k` bits of a code word are its high bits. -/
theorem bitsValue_codeBits_take {x : MhEntry} (hc : x.code < 2 ^ x.len) {k : Nat} (hk : k ≤ x.len) :
    bitsValue ((codeBits x).take k) = x.code >>> (x.len - k) := by
  induction k with
  | zero =>
    rw [Nat.sub_zero, Nat.shiftRight_eq_div_pow, Nat.div_eq_of_lt hc]
    rfl
  | succ k ih =>
    have hbit : (codeBits x)[k]? = some (x.code.testBit (x.len - 1 - k)) := by
      rw [codeBits, List.getElem?_map, List.getElem?_range (by omega), Option.map_some]
    rw [bitsValue_take_succ hbit, ih (by omega), Nat.toNat_testBit,
      show x.len - 1 - k = x.len - (k + 1) by omega,
      show x.len - k = x.len - (k + 1) + 1 by omega, Nat.shiftRight_eq_div_pow,
      Nat.shiftRight_eq_div_pow, Nat.pow_succ, ← Nat.div_div_eq_div_mul]
    omega

/-- Bits are the binary digits of their value. -/
theorem testBit_bitsValue {bits : List Bool} {k : Nat} (hk : k < bits.length) :
    bits[k]? = some ((bitsValue bits).testBit (bits.length - 1 - k)) := by
  induction bits using List.reverseRecOn with
  | nil => simp at hk
  | append_singleton bits bit ih =>
    have hv : bitsValue (bits ++ [bit]) = 2 * bitsValue bits + bit.toNat := bitsValue_append _ _
    simp only [List.length_append, List.length_cons, List.length_nil] at hk ⊢
    rw [hv]
    by_cases h : k < bits.length
    · rw [List.getElem?_append_left h, ih h,
        show bits.length + (0 + 1) - 1 - k = bits.length - 1 - k + 1 by omega, Nat.testBit_succ]
      congr 3
      cases bit <;> simp
      omega
    · obtain rfl : k = bits.length := by omega
      rw [List.getElem?_append_right (Nat.le_refl _)]
      cases bit <;> simp [Nat.testBit_zero]

/-- Bits that spell the number of a code word are the code word. -/
theorem codeBits_of_bitsValue {x : MhEntry} {bits : List Bool} (hl : x.len = bits.length)
    (hv : x.code = bitsValue bits) : codeBits x = bits := by
  apply List.ext_getElem?
  intro k
  by_cases h : k < bits.length
  · rw [testBit_bitsValue h, codeBits, List.getElem?_map, List.getElem?_range (by omega),
      Option.map_some, hl, hv]
  · rw [List.getElem?_eq_none (by simp; omega), List.getElem?_eq_none (by omega)]

/-! ### Prefix-free tables -/

/-- In a prefix-free table no entry is a prefix of another one. -/
theorem prefixFree_unique {table : List MhEntry} (hp : prefixFree table = true) {x y : MhEntry}
    (hx : x ∈ table) (hy : y ∈ table) (hl : x.len ≤ y.len)
    (hc : y.code >>> (y.len - x.len) = x.code) : x = y := by
  induction table with
  | nil => cases hx
  | cons z rest ih =>
    simp only [prefixFree, Bool.and_eq_true, List.all_eq_true] at hp
    rcases List.mem_cons.mp hx with rfl | hx'
    · rcases List.mem_cons.mp hy with rfl | hy'
      · rfl
      · have := (hp.1 y hy').1
        simp [hl, hc] at this
    · rcases List.mem_cons.mp hy with rfl | hy'
      · have := (hp.1 x hx').2
        simp [hl, hc] at this
      · exact ih hp.2 hx' hy'

theorem configLegal_table {cfg : Config} (h : configLegal cfg = true) (colour : Colour) :
    prefixFree (mhTable cfg colour) = true ∧ ∀ x ∈ mhTable cfg colour,
      1 ≤ x.len ∧ x.len ≤ 16 ∧ x.code < 2 ^ x.len := by
  simp only [configLegal, Bool.and_eq_true, List.all_eq_true] at h
  obtain ⟨⟨⟨⟨-, hw⟩, hwp⟩, hb⟩, hbp⟩ := h
  have key : ∀ x, entryLegal x = true → 1 ≤ x.len ∧ x.len ≤ 16 ∧ x.code < 2 ^ x.len := by
    intro x hx
    simp only [entryLegal, Bool.and_eq_true, decide_eq_true_eq] at hx
    exact ⟨hx.1.1.1, hx.1.1.2, hx.1.2⟩
  cases colour
  · exact ⟨hwp, fun x hx => key x (hw x hx)⟩
  · exact ⟨hbp, fun x hx => key x (hb x hx)⟩

theorem mhLookup_some {table : List MhEntry} {len code : Nat} {x : MhEntry}
    (h : mhLookup table len code = some x) : x ∈ table ∧ x.len = len ∧ x.code = code := by
  have h1 := List.mem_of_find?_eq_some h
  have h2 := List.find?_some h
  simp only [Bool.and_eq_true, beq_iff_eq] at h2
  exact ⟨h1, h2.1, h2.2⟩

/-! ### The matcher -/

/-- The matcher goes on past bits that end no code word. -/
theorem mhMatch_skip {s : State} {table : List MhEntry} {row col b : Nat} {bits : List Bool}
    (hs : spellsMSB s b bits) {j : Nat} (hj : j ≤ bits.length) (h16 : j ≤ 16)
    (hn : ∀ k, k < j → mhLookup table (k + 1) (bitsValue (bits.take (k + 1))) = none) :
    mhMatch s table row col 16 0 b =
      mhMatch s table row col (16 - j) (bitsValue (bits.take j)) (b + j) := by
  induction j with
  | zero => rfl
  | succ j ih =>
    rw [ih (by omega) (by omega) fun k hk => hn k (by omega),
      show 16 - j = 16 - (j + 1) + 1 by omega, mhMatch]
    have hbit := hs.2 j (by omega)
    rw [readBitMSB_some (by have := hs.1; omega)]
    simp only
    rw [show 16 - (16 - (j + 1)) = j + 1 by omega, ← bitsValue_take_succ hbit, hn j (by omega)]
    rfl

/-- The matcher stops at the code word it has read. -/
theorem mhMatch_found {s : State} {table : List MhEntry} {row col b : Nat} {bits : List Bool}
    (hs : spellsMSB s b bits) {x : MhEntry} {j : Nat} (hj : j < bits.length) (h16 : j < 16)
    (hx : mhLookup table (j + 1) (bitsValue (bits.take (j + 1))) = some x) :
    mhMatch s table row col (16 - j) (bitsValue (bits.take j)) (b + j) = .ok (x, b + j + 1) := by
  rw [show 16 - j = 16 - (j + 1) + 1 by omega, mhMatch]
  have hbit := hs.2 j hj
  rw [readBitMSB_some (by have := hs.1; omega)]
  simp only
  rw [show 16 - (16 - (j + 1)) = j + 1 by omega, ← bitsValue_take_succ hbit, hx]

/-- `DecodeCode` (R155): an input that begins with a code word of the table gives its entry. -/
theorem decodeCode_spelled {s : State} {colour : Colour} {row col b : Nat} {x : MhEntry}
    (hc : configLegal s.cfg = true) (hx : x ∈ mhTable s.cfg colour)
    (hs : spellsMSB s b (codeBits x)) :
    decodeCode s colour row col b = .ok (x, b + x.len) := by
  obtain ⟨hp, ht⟩ := configLegal_table hc colour
  obtain ⟨h1, h16, hlt⟩ := ht x hx
  have hlen := codeBits_length x
  have look : ∀ k, k < x.len → ∀ y,
      mhLookup (mhTable s.cfg colour) (k + 1) (bitsValue ((codeBits x).take (k + 1))) = some y →
      y = x := by
    intro k hk y hy
    obtain ⟨hm, hl, hcode⟩ := mhLookup_some hy
    rw [bitsValue_codeBits_take hlt (by omega)] at hcode
    exact prefixFree_unique hp hm hx (by omega) (by rw [hl, hcode])
  have hself : mhLookup (mhTable s.cfg colour) x.len (bitsValue ((codeBits x).take x.len)) =
      some x := by
    cases h : mhLookup (mhTable s.cfg colour) x.len (bitsValue ((codeBits x).take x.len)) with
    | some y =>
      rw [look (x.len - 1) (by omega) y (by rwa [Nat.sub_add_cancel h1])]
    | none =>
      rw [bitsValue_codeBits_take hlt (Nat.le_refl _), Nat.sub_self, mhLookup,
        List.find?_eq_none] at h
      simpa using h x hx
  rw [decodeCode, mhMatch_skip hs (j := x.len - 1) (by omega) (by omega), mhMatch_found hs (x := x)]
  · rw [show b + (x.len - 1) + 1 = b + x.len by omega]
  · omega
  · omega
  · rwa [Nat.sub_add_cancel h1]
  · intro k hk
    cases h : mhLookup (mhTable s.cfg colour) (k + 1) (bitsValue ((codeBits x).take (k + 1))) with
    | none => rfl
    | some y =>
      have := (mhLookup_some h).2.1
      rw [look k (by omega) y h] at this
      omega

/-- Where no code word begins, no prefix of the bits is one. -/
theorem mhLookup_none {s : State} {colour : Colour} {b : Nat} {bits : List Bool}
    (hs : spellsMSB s b bits) (hn : noCodeAt s colour b) (k : Nat) (hk : k < bits.length) :
    mhLookup (mhTable s.cfg colour) (k + 1) (bitsValue (bits.take (k + 1))) = none := by
  cases h : mhLookup (mhTable s.cfg colour) (k + 1) (bitsValue (bits.take (k + 1))) with
  | none => rfl
  | some y =>
    obtain ⟨hm, hyl, hyc⟩ := mhLookup_some h
    refine absurd ?_ (hn y hm)
    rw [codeBits_of_bitsValue (by rw [hyl, List.length_take]; omega) hyc]
    rw [← List.take_append_drop (k + 1) bits] at hs
    exact (spellsMSB_append.mp hs).1

/-- `DecodeCode` (R155): 16 bits that begin with no code word of the table are refused. -/
theorem decodeCode_unmatched {s : State} {colour : Colour} {row col b : Nat} {bits : List Bool}
    (hl : bits.length = 16) (hs : spellsMSB s b bits) (hn : noCodeAt s colour b) :
    decodeCode s colour row col b =
      .error ⟨.invalidStructure, (b + 16) / 8, row, col, bitsValue bits, b + 16⟩ := by
  rw [decodeCode, mhMatch_skip hs (j := 16) (by omega) (Nat.le_refl _)
    fun k hk => mhLookup_none hs hn k (by omega), List.take_of_length_le (by omega)]
  rfl

/-- `DecodeCode` at the end of the window: the first bit is not there. -/
theorem decodeCode_atEnd {s : State} {colour : Colour} {row col b : Nat} (h : s.engine.stop ≤ b) :
    decodeCode s colour row col b = .error (inputEnded s row col b) := by
  rw [decodeCode, mhMatch, readBitMSB_none (by omega)]
  rfl

/-- `DecodeCode` where the input ends inside a code word (R139, R155). -/
theorem decodeCode_cutOff {s : State} {colour : Colour} {row col b : Nat}
    (h : codeCutOff s colour b) :
    decodeCode s colour row col b = .error (inputEnded s row col s.engine.stop) := by
  obtain ⟨hb, h16, hn⟩ := h
  have hs : spellsMSB s b ((List.range (s.engine.stop - b)).map fun k => streamBitMSB s (b + k)) :=
    ⟨by simp; omega, fun k hk => by simp only [List.length_map, List.length_range] at hk; simp [hk]⟩
  have hl : ((List.range (s.engine.stop - b)).map fun k => streamBitMSB s (b + k)).length =
      s.engine.stop - b := by simp
  rw [decodeCode, mhMatch_skip hs (j := s.engine.stop - b) (by omega) (by omega)
    fun k hk => mhLookup_none hs hn k (by omega),
    show 16 - (s.engine.stop - b) = 15 - (s.engine.stop - b) + 1 by omega,
    show b + (s.engine.stop - b) = s.engine.stop by omega, mhMatch, readBitMSB_none (by omega)]
  rfl

/-! ### Runs -/

/-- `DecodeRun` (R156) over make-up codes that the chain rule allows: it stands behind them. -/
theorem runLoop_makeups {s : State} {colour : Colour} {row col : Nat}
    (hc : configLegal s.cfg = true) (makeups : List MhEntry) :
    ∀ (fuel total n b : Nat),
      (∀ x ∈ makeups, x ∈ mhTable s.cfg colour ∧ x.kind = .makeup) →
      (s.cfg.makeupChain = .error → n + makeups.length ≤ 1) →
      (makeups.flatMap codeBits).length ≤ fuel → spellsMSB s b (makeups.flatMap codeBits) →
      ∃ fuel', fuel ≤ fuel' + (makeups.flatMap codeBits).length ∧
        runLoop s colour row col fuel total n b =
          runLoop s colour row col fuel' (total + (makeups.map MhEntry.run).sum)
            (n + makeups.length) (b + (makeups.flatMap codeBits).length) := by
  induction makeups with
  | nil => intro fuel total n b _ _ _ _; exact ⟨fuel, by simp, by simp⟩
  | cons x rest ih =>
    intro fuel total n b hm hch hf hs
    simp only [List.flatMap_cons, List.length_append, codeBits_length, List.length_cons]
      at hf hs hch ⊢
    obtain ⟨hx, hxk⟩ := hm x List.mem_cons_self
    have h1 := ((configLegal_table hc colour).2 x hx).1
    obtain ⟨hs1, hs2⟩ := spellsMSB_append.mp hs
    rw [codeBits_length] at hs2
    obtain ⟨fuel, rfl⟩ : ∃ f, fuel = f + 1 := ⟨fuel - 1, by omega⟩
    have hnot : ¬(n ≠ 0 ∧ s.cfg.makeupChain = .error) := by
      rintro ⟨hn, he⟩
      have := hch he
      omega
    obtain ⟨fuel', hf', he⟩ := ih fuel (total + x.run) (n + 1) (b + x.len)
      (fun y hy => hm y (List.mem_cons_of_mem _ hy)) (fun he => by have := hch he; omega)
      (by omega) hs2
    refine ⟨fuel', by omega, ?_⟩
    rw [runLoop, decodeCode_spelled hc hx hs1]
    simp only [hxk]
    rw [if_neg hnot, he]
    simp only [List.map_cons, List.sum_cons, Nat.add_assoc, Nat.add_comm 1]

/-- A loop of R156 whose next code is refused. -/
theorem runLoop_refused {s : State} {colour : Colour} {row col fuel total n b : Nat} {e : ErrInfo}
    (hf : s.engine.stop ≤ b + fuel) (h : decodeCode s colour row col b = .error e) :
    runLoop s colour row col fuel total n b = .error e := by
  cases fuel with
  | zero =>
    rw [decodeCode_atEnd (by simpa using hf)] at h
    rw [runLoop, ← Except.error.inj h]
    rfl
  | succ fuel => rw [runLoop, h]

/-- `DecodeRun` (R156): the code behind legal make-up codes is refused, or there are none and the
first one is. -/
theorem decodeRun_refused {s : State} {colour : Colour} {row col b : Nat} {makeups : List MhEntry}
    {e : ErrInfo} (hc : configLegal s.cfg = true) (hm : makeupsLegal s.cfg colour makeups)
    (hs : spellsMSB s b (makeups.flatMap codeBits))
    (h : decodeCode s colour row col (b + (makeups.flatMap codeBits).length) = .error e) :
    decodeRun s colour row col b = .error e := by
  have := hs.1
  obtain ⟨fuel', hf', he⟩ := runLoop_makeups (row := row) (col := col) hc makeups
    (s.engine.stop - b) 0 0 b hm.1 (by simpa using hm.2) (by omega) hs
  rw [decodeRun, he]
  exact runLoop_refused (by omega) h

/-- `DecodeRun` (R156) under `MH_MAKEUP_CHAIN = ERROR`: a second make-up code is refused. -/
theorem decodeRun_chained {s : State} {colour : Colour} {row col b : Nat} {x y : MhEntry}
    (hc : configLegal s.cfg = true) (he : s.cfg.makeupChain = .error)
    (hx : x ∈ mhTable s.cfg colour) (hxk : x.kind = .makeup)
    (hy : y ∈ mhTable s.cfg colour) (hyk : y.kind = .makeup)
    (hs : spellsMSB s b (codeBits x ++ codeBits y)) :
    decodeRun s colour row col b =
      .error ⟨.invalidStructure, (b + x.len + y.len) / 8, row, col, y.run, b + x.len + y.len⟩ := by
  obtain ⟨hs1, hs2⟩ := spellsMSB_append.mp hs
  have h := hs.1
  simp only [List.length_append, codeBits_length] at h hs2
  have hx1 := ((configLegal_table hc colour).2 x hx).1
  have hy1 := ((configLegal_table hc colour).2 y hy).1
  obtain ⟨fuel, hf⟩ : ∃ f, s.engine.stop - b = f + 2 := ⟨s.engine.stop - b - 2, by omega⟩
  simp [decodeRun, hf, runLoop, decodeCode_spelled hc hx hs1, hxk, decodeCode_spelled hc hy hs2,
    hyk, he]

/-- `DecodeRun` (R156): a legal run is decoded to its length and the number of its codes. -/
theorem decodeRun_spelled {s : State} {colour : Colour} {row col b : Nat} {r : CodedRun}
    (hc : configLegal s.cfg = true) (hr : r.legal s.cfg colour) (hs : spellsMSB s b r.bits) :
    decodeRun s colour row col b = .ok (r.length, r.codes.length, b + r.bits.length) := by
  obtain ⟨hm, ht, htk, hch⟩ := hr
  have h1 := ((configLegal_table hc colour).2 r.term ht).1
  simp only [CodedRun.bits, CodedRun.codes, List.flatMap_append, List.flatMap_cons,
    List.flatMap_nil, List.append_nil] at hs
  have hb := hs.1
  simp only [List.length_append, codeBits_length] at hb
  obtain ⟨hs1, hs2⟩ := spellsMSB_append.mp hs
  obtain ⟨fuel, hf, he⟩ := runLoop_makeups (row := row) (col := col) hc r.makeups
    (s.engine.stop - b) 0 0 b hm (by simpa using hch) (by omega) hs1
  obtain ⟨fuel, rfl⟩ : ∃ f, fuel = f + 1 := ⟨fuel - 1, by omega⟩
  rw [decodeRun, he, runLoop, decodeCode_spelled hc ht hs2]
  simp [htk, CodedRun.length, CodedRun.codes, CodedRun.bits, Nat.add_assoc]

/-- A run takes at least one bit. -/
theorem CodedRun.bits_pos {cfg : Config} {colour : Colour} {r : CodedRun}
    (hc : configLegal cfg = true) (hr : r.legal cfg colour) : 1 ≤ r.bits.length := by
  have := ((configLegal_table hc colour).2 r.term hr.2.1).1
  simp only [CodedRun.bits, CodedRun.codes, List.flatMap_append, List.flatMap_cons,
    List.flatMap_nil, List.append_nil, List.length_append, codeBits_length]
  omega

/-! ### Rows -/

theorem runPixels_length (colour : Colour) (runs : List CodedRun) :
    (runPixels colour runs).length = runsLength runs := by
  induction runs generalizing colour with
  | nil => rfl
  | cons r rest ih => simp [runPixels, runsLength, ih]

/-- The row assembler (R157) over runs none of which reaches `WIDTH`: it stands behind them, with the
colour that follows. -/
theorem rowLoop_runs {s : State} {row : Nat} (hc : configLegal s.cfg = true)
    (runs : List CodedRun) :
    ∀ (fuel : Nat) (pix : List Bool) (colour : Colour) (b : Nat),
      runsLegal s.cfg colour runs → (runsBits runs).length ≤ fuel →
      pix.length + runsLength runs < s.regs.width.toNat → spellsMSB s b (runsBits runs) →
      ∃ fuel', fuel ≤ fuel' + (runsBits runs).length ∧
        rowLoop s row fuel pix colour b =
          rowLoop s row fuel' (pix ++ runPixels colour runs) (colourAfter colour runs)
            (b + (runsBits runs).length) := by
  induction runs with
  | nil =>
    intro fuel pix colour b _ _ _ _
    exact ⟨fuel, by simp, by simp [runPixels, runsBits, colourAfter]⟩
  | cons r rest ih =>
    intro fuel pix colour b hl hf hw hs
    obtain ⟨hr, hl⟩ := hl
    have hpos := CodedRun.bits_pos hc hr
    simp only [runsBits, List.flatMap_cons, List.length_append] at hf hs
    obtain ⟨hs1, hs2⟩ := spellsMSB_append.mp hs
    simp only [runsLength, List.map_cons, List.sum_cons] at hw
    obtain ⟨fuel, rfl⟩ : ∃ f, fuel = f + 1 := ⟨fuel - 1, by omega⟩
    obtain ⟨fuel', hf', he⟩ := ih fuel
      (pix ++ List.replicate r.length (pixelOf colour)) (otherColour colour) (b + r.bits.length)
      hl (by simp only [runsBits]; omega)
      (by simp only [List.length_append, List.length_replicate, runsLength]; omega) hs2
    refine ⟨fuel', ?_, ?_⟩
    · simp only [runsBits, List.flatMap_cons, List.length_append] at hf' ⊢
      omega
    · rw [rowLoop, if_neg (by omega)]
      simp only [decodeRun_spelled hc hr hs1]
      rw [if_neg (by omega), he]
      simp only [runPixels, runsBits, colourAfter, List.flatMap_cons, List.length_append,
        List.append_assoc, Nat.add_assoc]

/-- Legal runs are legal one after another. -/
theorem runsLegal_append {cfg : Config} {colour : Colour} {runs tail : List CodedRun} :
    runsLegal cfg colour (runs ++ tail) ↔
      runsLegal cfg colour runs ∧ runsLegal cfg (colourAfter colour runs) tail := by
  induction runs generalizing colour with
  | nil => simp [runsLegal, colourAfter]
  | cons r rest ih => simp only [List.cons_append, runsLegal, colourAfter, ih, and_assoc]

/-- The pixels of runs one after another. -/
theorem runPixels_append (colour : Colour) (runs tail : List CodedRun) :
    runPixels colour (runs ++ tail) =
      runPixels colour runs ++ runPixels (colourAfter colour runs) tail := by
  induction runs generalizing colour with
  | nil => rfl
  | cons r rest ih => simp only [List.cons_append, runPixels, colourAfter, ih, List.append_assoc]

/-- A loop of R157 whose next run is refused. -/
theorem rowLoop_refused {s : State} {row fuel : Nat} {pix : List Bool} {colour : Colour} {b : Nat}
    {e : ErrInfo} (hw : pix.length < s.regs.width.toNat) (hf : s.engine.stop ≤ b + fuel)
    (h : decodeRun s colour row pix.length b = .error e) :
    rowLoop s row fuel pix colour b = .error e := by
  cases fuel with
  | zero =>
    rw [decodeRun, Nat.sub_eq_zero_of_le (by simpa using hf), runLoop] at h
    rw [rowLoop, if_neg (by omega), Except.error.inj h]
  | succ fuel => rw [rowLoop, if_neg (by omega), h]

/-- `DecodeRow` (R157): the run behind legal runs that do not fill the row is refused. -/
theorem decodeRow_refused {align : Bool} {s : State} {r b b' : Nat} {runs : List CodedRun}
    {e : ErrInfo} (hc : configLegal s.cfg = true) (hb : (if align then alignUp b else b) = b')
    (hl : runsLegal s.cfg .white runs) (hw : runsLength runs < s.regs.width.toNat)
    (hs : spellsMSB s b' (runsBits runs))
    (h : decodeRun s (colourAfter .white runs) r (runsLength runs)
      (b' + (runsBits runs).length) = .error e) :
    decodeRow align s r b = .error e := by
  have := hs.1
  obtain ⟨fuel', hf', he⟩ := rowLoop_runs (row := r) hc runs (s.engine.stop - b') [] .white b' hl
    (by omega) (by simpa using hw) hs
  rw [decodeRow]
  simp only [hb]
  rw [he, List.nil_append]
  exact rowLoop_refused (by rw [runPixels_length]; exact hw) (by omega)
    (by rw [runPixels_length]; exact h)

end Sys2Proof.Machine
end

