-- ==== Sys2Proof/Laws/Lzw.lean ====
section
/-! SUPPORT. What the LZW engine answers: its errors, the length of its output, and what it decodes
from the stream of an encoder. -/

namespace Sys2Proof.Machine

/-! ### Every run of the loop -/

/-- The loop raises `INVALID_STRUCTURE` only, and never has more than `len` bytes. -/
theorem lzwLoop_bounds {s : State} {m len fuel : Nat} {r : LzwRun} (hr : r.out.length ≤ len) :
    (∀ r', lzwLoop s m len fuel r = .done r' → r'.out.length = len) ∧
    ∀ r' e, lzwLoop s m len fuel r = .raised r' e →
      r'.out.length ≤ len ∧ e.kind = .invalidStructure := by
  induction fuel generalizing r with
  | zero =>
    refine ⟨fun r' h => by simp [lzwLoop] at h, fun r' e h => ?_⟩
    simp only [lzwLoop, LzwEnd.raised.injEq] at h
    obtain ⟨rfl, rfl⟩ := h
    exact ⟨hr, rfl⟩
  | succ fuel ih =>
    rw [lzwLoop]
    split
    · refine ⟨fun r' h => (by cases h), fun r' e h => ?_⟩
      simp only [LzwEnd.raised.injEq] at h
      obtain ⟨rfl, rfl⟩ := h
      exact ⟨hr, rfl⟩
    · rename_i code b _
      simp only
      split
      · exact ih hr
      · split
        · split
          · refine ⟨fun r' h => ?_, fun r' e h => (by cases h)⟩
            simp only [LzwEnd.done.injEq] at h
            subst h
            assumption
          · refine ⟨fun r' h => (by cases h), fun r' e h => ?_⟩
            simp only [LzwEnd.raised.injEq] at h
            obtain ⟨rfl, rfl⟩ := h
            exact ⟨hr, rfl⟩
        · split
          · refine ⟨fun r' h => (by cases h), fun r' e h => ?_⟩
            simp only [LzwEnd.raised.injEq] at h
            obtain ⟨rfl, rfl⟩ := h
            exact ⟨hr, rfl⟩
          · split
            · refine ⟨fun r' h => (by cases h), fun r' e h => ?_⟩
              simp only [LzwEnd.raised.injEq] at h
              obtain ⟨rfl, rfl⟩ := h
              refine ⟨?_, rfl⟩
              simp only [List.length_append, List.length_take]
              omega
            · exact ih (by simp only [List.length_append]; omega)

/-- The whole decode: `DST_LEN` bytes, or an error after at most so many. -/
theorem lzwDecode_bounds (s : State) :
    (∀ r, lzwDecode s = .done r → r.out.length = s.regs.dstLen.toNat) ∧
    ∀ r e, lzwDecode s = .raised r e →
      r.out.length ≤ s.regs.dstLen.toNat ∧ e.kind = .invalidStructure :=
  lzwLoop_bounds (Nat.zero_le _)

/-! ### Widths -/

theorem lzwWidth_zero {m : Nat} (h2 : 2 ≤ m) (h8 : m ≤ 8) : lzwWidth m 0 = m + 1 := by
  have : m = 2 ∨ m = 3 ∨ m = 4 ∨ m = 5 ∨ m = 6 ∨ m = 7 ∨ m = 8 := by omega
  rcases this with rfl | rfl | rfl | rfl | rfl | rfl | rfl <;> rfl

/-- A code of 12 bits that is not above the next free one fits the width. -/
theorem lt_two_pow_lzwWidth {m n code : Nat} (hc : code < 4096)
    (h : code ≤ 2 ^ m + 2 + n) : code < 2 ^ lzwWidth m n := by
  by_cases hw : Nat.log2 (2 ^ m + 2 + n) + 1 ≤ 12
  · rw [lzwWidth, Nat.min_eq_right hw]
    exact lt_of_le_of_lt h Nat.lt_log2_self
  · rw [lzwWidth, Nat.min_eq_left (by omega)]
    exact hc

theorem lzwWidth_pos (m n : Nat) : 1 ≤ lzwWidth m n := by
  rw [lzwWidth]; omega

/-- The growth rule R185, as a closed form: the width is what the next free code needs. -/
theorem lzwWidth_grow {m n n' : Nat} (hn : 2 ^ m + 2 + n ≤ 4096)
    (h : n' = n ∨ (n' = n + 1 ∧ 2 ^ m + 2 + n < 4096)) :
    (if 2 ^ m + 2 + n' = 2 ^ lzwWidth m n ∧ lzwWidth m n < 12 then lzwWidth m n + 1
      else lzwWidth m n) = lzwWidth m n' := by
  have hne : 2 ^ m + 2 + n ≠ 0 := by positivity
  have hne' : 2 ^ m + 2 + n' ≠ 0 := by positivity
  have hself : 2 ^ m + 2 + n < 2 ^ (Nat.log2 (2 ^ m + 2 + n) + 1) := Nat.lt_log2_self
  have hle : 2 ^ Nat.log2 (2 ^ m + 2 + n) ≤ 2 ^ m + 2 + n := Nat.log2_self_le hne
  rcases h with rfl | ⟨rfl, hlt⟩
  · rw [if_neg]
    rintro ⟨he, h12⟩
    rw [lzwWidth] at he h12
    rw [Nat.min_eq_right (by omega)] at he
    omega
  · have hw : Nat.log2 (2 ^ m + 2 + n) < 12 := (Nat.log2_lt hne).mpr (by omega)
    have hwn : lzwWidth m n = Nat.log2 (2 ^ m + 2 + n) + 1 := by
      rw [lzwWidth, Nat.min_eq_right (by omega)]
    have hwn' : lzwWidth m (n + 1) = min 12 (Nat.log2 (2 ^ m + 2 + (n + 1)) + 1) := rfl
    by_cases he : 2 ^ m + 2 + (n + 1) = 2 ^ lzwWidth m n
    · have hlog : Nat.log2 (2 ^ m + 2 + (n + 1)) = lzwWidth m n := by rw [he, Nat.log2_two_pow]
      rw [hwn', hlog]
      by_cases h12 : lzwWidth m n < 12
      · rw [if_pos ⟨he, h12⟩]; omega
      · rw [if_neg (fun h => h12 h.2)]; omega
    · rw [if_neg fun h => he h.1, hwn', hwn]
      have hlt' : 2 ^ m + 2 + (n + 1) < 2 ^ (Nat.log2 (2 ^ m + 2 + n) + 1) := by
        rw [hwn] at he
        omega
      have h1 : Nat.log2 (2 ^ m + 2 + (n + 1)) < Nat.log2 (2 ^ m + 2 + n) + 1 :=
        (Nat.log2_lt hne').mpr hlt'
      have h2 : Nat.log2 (2 ^ m + 2 + n) ≤ Nat.log2 (2 ^ m + 2 + (n + 1)) :=
        (Nat.le_log2 hne').mpr (by omega)
      rw [show Nat.log2 (2 ^ m + 2 + (n + 1)) = Nat.log2 (2 ^ m + 2 + n) by omega]
      omega

/-! ### The decoder beside an encoder -/

/-- The decoder's dictionary holds what the encoder's table holds. -/
structure LzwMatches (m : Nat) (d : LzwDict) (added : List (List Byte))
    (prev : Option (List Byte)) : Prop where
  minsize : d.minsize = m
  strings : d.added = added
  width : d.width = lzwWidth m added.length
  room : 2 ^ m + 2 + added.length ≤ 4096
  nonempty : ∀ x ∈ added, x ≠ []
  start : prev = none → d.prev = none ∧ added = []
  last : ∀ p, prev = some p → p ≠ [] ∧ ∃ code, d.prev = some code ∧ dictEntry d code = p

theorem lzwMatches_init {m : Nat} (h2 : 2 ≤ m) (h8 : m ≤ 8) :
    LzwMatches m (dictInit m) [] none where
  minsize := rfl
  strings := rfl
  width := (lzwWidth_zero h2 h8).symm
  room := by
    have : 2 ^ m ≤ 2 ^ 8 := Nat.pow_le_pow_right (by omega) h8
    simp only [List.length_nil]
    omega
  nonempty := by simp
  start := fun _ => ⟨rfl, rfl⟩
  last := by simp

/-- What a code stands for in a dictionary. -/
theorem dictEntry_of_codeFor {m code : Nat} {d : LzwDict} {w : List Byte} (hm : d.minsize = m)
    (h : lzwCodeFor m d.added code w) : dictEntry d code = w := by
  rcases h with ⟨hc, rfl⟩ | ⟨j, hj, rfl⟩
  · simp [dictEntry, hm, hc]
  · rw [dictEntry, hm, if_neg (by omega), if_neg (by omega), Nat.add_sub_cancel_left, hj]
    rfl

theorem lzwGrow_length (m : Nat) (added : List (List Byte)) (prev : Option (List Byte))
    (w : List Byte) :
    (lzwGrow m added prev w).length = added.length ∨
      ((lzwGrow m added prev w).length = added.length + 1 ∧ 2 ^ m + 2 + added.length < 4096) := by
  cases prev with
  | none => exact .inl rfl
  | some p =>
    rw [lzwGrow]
    split
    · exact .inr ⟨by simp, ‹_›⟩
    · exact .inl rfl

/-- One code of the stream (R184, R185): the decoder finds its string, adds what the encoder has
added, and has the encoder's width. -/
theorem dictStep_matches {m code : Nat} {d : LzwDict} {added : List (List Byte)}
    {prev : Option (List Byte)} {w : List Byte} (hd : LzwMatches m d added prev)
    (hc : lzwCodeFor m (lzwGrow m added prev w) code w) :
    ∃ d', dictStep d code = some (w, d') ∧
      LzwMatches m (dictAfter d' code) (lzwGrow m added prev w) (some w) := by
  have hnext : dictNext d = 2 ^ m + 2 + added.length := by
    rw [dictNext, hd.minsize, hd.strings]
  -- what is left once the dictionary step is known
  have finish : ∀ d' : LzwDict, d'.minsize = m → d'.added = lzwGrow m added prev w →
      d'.width = d.width → (∀ x ∈ lzwGrow m added prev w, x ≠ []) →
      dictStep d code = some (w, d') →
      ∃ d', dictStep d code = some (w, d') ∧
        LzwMatches m (dictAfter d' code) (lzwGrow m added prev w) (some w) := by
    intro d' hm' ha' hw' hne hstep
    have hent : dictEntry (dictAfter d' code) code = w :=
      dictEntry_of_codeFor (d := dictAfter d' code) hm' (by rw [← ha'] at hc; exact hc)
    have hwne : w ≠ [] := by
      rcases hc with ⟨-, rfl⟩ | ⟨j, hj, -⟩
      · simp
      · exact hne w (List.mem_of_getElem? hj)
    refine ⟨d', hstep, hm', ha', ?_, ?_, hne, fun h => (by cases h), fun p hp => ?_⟩
    · simp only [dictAfter, dictNext, hm', ha', hw', hd.width]
      exact lzwWidth_grow hd.room (lzwGrow_length m added prev w)
    · have := lzwGrow_length m added prev w
      have := hd.room
      omega
    · obtain rfl := Option.some.inj hp
      exact ⟨hwne, code, rfl, hent⟩
  cases prev with
  | none =>
    obtain ⟨hp, rfl⟩ := hd.start rfl
    rcases hc with ⟨hlt, hw⟩ | ⟨j, hj, -⟩
    · refine finish d hd.minsize hd.strings rfl (by simp [lzwGrow]) ?_
      rw [dictStep, hp]
      simp only [clearCode, hd.minsize, if_neg (Nat.not_le.mpr hlt)]
      rw [dictEntry_of_codeFor (w := w) hd.minsize (.inl ⟨hlt, hw⟩)]
    · simp [lzwGrow] at hj
  | some p =>
    obtain ⟨hpne, c, hpc, hpe⟩ := hd.last p rfl
    by_cases hfull : 2 ^ m + 2 + added.length < 4096
    · have hg : lzwGrow m added (some p) w = added ++ [p ++ w.take 1] := by simp [lzwGrow, hfull]
      have hne : ∀ x ∈ lzwGrow m added (some p) w, x ≠ [] := by
        intro x hx
        rw [hg, List.mem_append, List.mem_singleton] at hx
        rcases hx with hx | rfl
        · exact hd.nonempty x hx
        · simp [hpne]
      by_cases hlt : code < dictNext d
      · have hold : lzwCodeFor m d.added code w := by
          rcases hc with h | ⟨j, hj, rfl⟩
          · exact .inl h
          · rw [hg, List.getElem?_append_left (by omega)] at hj
            exact .inr ⟨j, by rw [hd.strings]; exact hj, rfl⟩
        refine finish (dictAdd d (p ++ w.take 1)) hd.minsize ?_ rfl hne ?_
        · rw [hg, dictAdd, hd.strings]
        · rw [dictStep, hpc]
          simp only [if_pos hlt, dictEntry_of_codeFor hd.minsize hold, hpe]
          rw [if_pos (by omega)]
      · obtain ⟨hcode, hw⟩ : code = dictNext d ∧ w = p ++ w.take 1 := by
          rcases hc with ⟨h, -⟩ | ⟨j, hj, rfl⟩
          · omega
          · have hj' := (List.getElem?_eq_some_iff.mp hj).1
            rw [hg] at hj hj'
            simp only [List.length_append, List.length_cons, List.length_nil] at hj'
            obtain rfl : j = added.length := by omega
            rw [List.getElem?_append_right (Nat.le_refl _)] at hj
            simp only [Nat.sub_self, List.getElem?_cons_zero, Option.some.injEq] at hj
            exact ⟨by omega, hj.symm⟩
        have hhead : w.take 1 = p.take 1 := by
          obtain ⟨x, xs, rfl⟩ := List.exists_cons_of_ne_nil hpne
          rw [hw]
          simp
        refine finish (dictAdd d (p ++ w.take 1)) hd.minsize ?_ rfl hne ?_
        · rw [hg, dictAdd, hd.strings]
        · rw [dictStep, hpc]
          simp only [if_neg hlt, hpe]
          rw [if_pos ⟨hcode, by omega⟩, ← hhead, ← hw]
    · have hg : lzwGrow m added (some p) w = added := by simp [lzwGrow, hfull]
      rw [hg] at hc
      have hlt : code < dictNext d := by
        rcases hc with ⟨h, -⟩ | ⟨j, hj, rfl⟩
        · omega
        · have := (List.getElem?_eq_some_iff.mp hj).1
          omega
      refine finish d hd.minsize (by rw [hg, hd.strings]) rfl (by rw [hg]; exact hd.nonempty) ?_
      rw [dictStep, hpc]
      simp only [if_pos hlt]
      rw [if_neg (by omega), dictEntry_of_codeFor hd.minsize (by rw [hd.strings]; exact hc)]

/-- A code of the stream is a number of the width it is written with. -/
theorem codeFor_lt {m code : Nat} {d : LzwDict} {added : List (List Byte)}
    {prev : Option (List Byte)} {w : List Byte} (hd : LzwMatches m d added prev)
    (hc : lzwCodeFor m (lzwGrow m added prev w) code w) :
    code < 2 ^ lzwWidth m added.length ∧ code ≠ clearCode m ∧ code ≠ eoiCode m := by
  have hroom := hd.room
  have hgrow := lzwGrow_length m added prev w
  rw [clearCode, eoiCode]
  rcases hc with ⟨h, -⟩ | ⟨j, hj, rfl⟩
  · exact ⟨lt_two_pow_lzwWidth (by omega) (by omega), by omega, by omega⟩
  · have := (List.getElem?_eq_some_iff.mp hj).1
    exact ⟨lt_two_pow_lzwWidth (by omega) (by omega), by omega, by omega⟩

theorem lzwWidth_control {m n : Nat} (h8 : m ≤ 8) : m + 1 ≤ lzwWidth m n := by
  have : m ≤ Nat.log2 (2 ^ m + 2 + n) := (Nat.le_log2 (by positivity)).mpr (by omega)
  rw [lzwWidth]
  omega

/-- The string that precedes the next code: none at the start and right after a `CLEAR` (R182). -/
def lzwTokenPrev : Option (List Byte) → List LzwToken → Option (List Byte)
  | prev, [] => prev
  | _, .clear :: ts => lzwTokenPrev none ts
  | _, .string _ w :: ts => lzwTokenPrev (some w) ts

theorem lzwTokenPrev_clear {tokens : List LzwToken} (h : tokens.getLast? = some .clear) :
    ∀ prev, lzwTokenPrev prev tokens = none := by
  induction tokens with
  | nil => simp at h
  | cons token ts ih =>
    intro prev
    cases ts with
    | nil =>
      obtain rfl : token = .clear := by simpa using h
      rfl
    | cons t2 ts =>
      rw [List.getLast?_cons_cons] at h
      cases token <;> exact ih h _

/-- The table that precedes the next code. -/
def lzwTokenTable (m : Nat) :
    List (List Byte) → Option (List Byte) → List LzwToken → List (List Byte)
  | added, _, [] => added
  | _, _, .clear :: ts => lzwTokenTable m [] none ts
  | added, prev, .string _ w :: ts => lzwTokenTable m (lzwGrow m added prev w) (some w) ts

theorem lzwTokenTable_length (m : Nat) (tokens : List LzwToken) :
    ∀ added prev,
      (lzwTokenTable m added prev tokens).length = lzwTokenAdded m added prev tokens := by
  induction tokens with
  | nil => intro added prev; rfl
  | cons token ts ih => intro added prev; cases token <;> exact ih _ _

/-- A legal stream is legal in parts. -/
theorem lzwStreamLegal_append {m : Nat} {tail : List LzwToken} (tokens : List LzwToken) :
    ∀ added prev, lzwStreamLegal m added prev (tokens ++ tail) ↔
      lzwStreamLegal m added prev tokens ∧
        lzwStreamLegal m (lzwTokenTable m added prev tokens) (lzwTokenPrev prev tokens) tail := by
  induction tokens with
  | nil => intro added prev; simp [lzwStreamLegal, lzwTokenTable, lzwTokenPrev]
  | cons token ts ih =>
    intro added prev
    cases token with
    | clear => exact ih [] none
    | string code w =>
      simp only [List.cons_append, lzwStreamLegal, ih, lzwTokenTable, lzwTokenPrev, and_assoc]

/-- The decode loop over a stream of an encoder (R184): it stands behind the stream, with the
strings put out and the encoder's table. -/
theorem lzwLoop_tokens {s : State} {m len : Nat} (h2 : 2 ≤ m) (h8 : m ≤ 8)
    (tokens : List LzwToken) :
    ∀ (fuel : Nat) (r : LzwRun) (added : List (List Byte)) (prev : Option (List Byte)),
      LzwMatches m r.dict added prev → lzwStreamLegal m added prev tokens →
      r.out.length + (lzwStreamBytes tokens).length ≤ len →
      spellsLSB s r.cursor (lzwTokenBits m added prev tokens) →
      ∃ r', LzwMatches m r'.dict (lzwTokenTable m added prev tokens) (lzwTokenPrev prev tokens) ∧
        r'.out = r.out ++ lzwStreamBytes tokens ∧ r'.ncodes = r.ncodes + tokens.length ∧
        r'.cursor = r.cursor + (lzwTokenBits m added prev tokens).length ∧
        lzwLoop s m len (fuel + tokens.length) r = lzwLoop s m len fuel r' := by
  induction tokens with
  | nil =>
    intro fuel r added prev hd _ _ _
    exact ⟨r, hd, by simp [lzwStreamBytes], rfl, rfl, rfl⟩
  | cons token ts ih =>
    intro fuel r added prev hd hl hlen hs
    cases token with
    | clear =>
      simp only [lzwTokenBits] at hs
      obtain ⟨hs1, hs2⟩ := spellsLSB_append hs
      rw [lzwCodeBits_length] at hs2
      have hclear : clearCode m < 2 ^ lzwWidth m added.length :=
        Nat.pow_lt_pow_right (by omega) (by have := lzwWidth_control (n := added.length) h8; omega)
      obtain ⟨r', h1, h4, h5, h6, h7⟩ := ih fuel
        { r with ncodes := r.ncodes + 1, cursor := r.cursor + lzwWidth m added.length,
                 dict := dictInit m } [] none (lzwMatches_init h2 h8) hl hlen hs2
      dsimp only at h5 h6
      refine ⟨r', h1, h4, ?_, ?_, ?_⟩
      · rw [h5, List.length_cons]; omega
      · rw [h6, lzwTokenBits, List.length_append, lzwCodeBits_length]; omega
      · rw [List.length_cons, ← Nat.add_assoc, lzwLoop, hd.width, readBitsLSB_spelled hclear hs1]
        simp only [if_true]
        exact h7
    | string code w =>
      simp only [lzwTokenBits] at hs
      obtain ⟨hs1, hs2⟩ := spellsLSB_append hs
      rw [lzwCodeBits_length] at hs2
      obtain ⟨hcode, hl⟩ := hl
      obtain ⟨hlt, hnc, hne⟩ := codeFor_lt hd hcode
      obtain ⟨d', hstep, hd'⟩ := dictStep_matches hd hcode
      simp only [lzwStreamBytes, List.length_append] at hlen
      obtain ⟨r', h1, h4, h5, h6, h7⟩ := ih fuel
        { r with ncodes := r.ncodes + 1, cursor := r.cursor + lzwWidth m added.length,
                 dict := dictAfter d' code, out := r.out ++ w } _ (some w) hd' hl
        (by simp only [List.length_append]; omega) hs2
      dsimp only at h5 h6
      refine ⟨r', h1, ?_, ?_, ?_, ?_⟩
      · rw [h4, lzwStreamBytes, List.append_assoc]
      · rw [h5, List.length_cons]; omega
      · rw [h6, lzwTokenBits, List.length_append, lzwCodeBits_length]; omega
      · rw [List.length_cons, ← Nat.add_assoc, lzwLoop, hd.width, readBitsLSB_spelled hlt hs1]
        simp only [if_neg hnc, if_neg hne, hstep]
        rw [if_neg (by omega)]
        exact h7

/-- A stream has no more codes than bits. -/
theorem lzwTokens_le_bits (m : Nat) (tokens : List LzwToken) :
    ∀ added prev, tokens.length ≤ (lzwTokenBits m added prev tokens).length := by
  induction tokens with
  | nil => intro added prev; simp
  | cons token ts ih =>
    intro added prev
    have hw := lzwWidth_pos m added.length
    cases token with
    | clear =>
      have := ih [] none
      simp only [lzwTokenBits, List.length_append, lzwCodeBits_length, List.length_cons]
      omega
    | string code w =>
      have := ih (lzwGrow m added prev w) (some w)
      simp only [lzwTokenBits, List.length_append, lzwCodeBits_length, List.length_cons]
      omega

/-- The decode behind an encoder's stream: the strings are put out, and the rest of the input is at
least the fuel. -/
theorem lzwDecode_tokens {s : State} {tokens : List LzwToken} (h2 : 2 ≤ minsizeOf s)
    (h8 : minsizeOf s ≤ 8) (hl : lzwStreamLegal (minsizeOf s) [] none tokens)
    (hlen : (lzwStreamBytes tokens).length ≤ s.regs.dstLen.toNat)
    (hs : spellsLSB s s.engine.cursor (lzwTokenBits (minsizeOf s) [] none tokens)) :
    ∃ fuel r, s.engine.stop ≤ r.cursor + fuel ∧
      LzwMatches (minsizeOf s) r.dict (lzwTokenTable (minsizeOf s) [] none tokens)
        (lzwTokenPrev none tokens) ∧
      r.dict.width = lzwStreamWidth (minsizeOf s) tokens ∧
      r.out = lzwStreamBytes tokens ∧ r.ncodes = tokens.length ∧
      r.cursor = s.engine.cursor + (lzwTokenBits (minsizeOf s) [] none tokens).length ∧
      lzwDecode s = lzwLoop s (minsizeOf s) s.regs.dstLen.toNat fuel r := by
  have hbits := hs.1
  have hcodes := lzwTokens_le_bits (minsizeOf s) tokens [] none
  obtain ⟨r, h1, h4, h5, h6, h7⟩ := lzwLoop_tokens (s := s) (len := s.regs.dstLen.toNat) h2 h8
    tokens (s.engine.stop - s.engine.cursor - tokens.length)
    ⟨dictInit (minsizeOf s), [], 0, s.engine.cursor⟩ [] none (lzwMatches_init h2 h8) hl
    (by simpa using hlen) hs
  rw [show s.engine.stop - s.engine.cursor - tokens.length + tokens.length =
    s.engine.stop - s.engine.cursor by omega] at h7
  exact ⟨_, r, by rw [h6]; simp only; omega, h1,
    by rw [h1.width, lzwTokenTable_length, lzwStreamWidth], by simpa using h4, by simpa using h5,
    h6, h7⟩

/-- The decode of an encoder's stream with one more code behind it: the loop is at that code, with
the strings put out. -/
theorem lzwDecode_stream {s : State} {tokens : List LzwToken} {last : Nat}
    (h2 : 2 ≤ minsizeOf s) (h8 : minsizeOf s ≤ 8)
    (hl : lzwStreamLegal (minsizeOf s) [] none tokens)
    (hlen : (lzwStreamBytes tokens).length ≤ s.regs.dstLen.toNat)
    (hlast : last < 2 ^ lzwStreamWidth (minsizeOf s) tokens)
    (hs : spellsLSB s s.engine.cursor (lzwStreamBits (minsizeOf s) tokens last)) :
    ∃ fuel r, LzwMatches (minsizeOf s) r.dict (lzwTokenTable (minsizeOf s) [] none tokens)
        (lzwTokenPrev none tokens) ∧
      r.dict.width = lzwStreamWidth (minsizeOf s) tokens ∧
      r.out = lzwStreamBytes tokens ∧ r.ncodes = tokens.length ∧
      readBitsLSB s r.dict.width r.cursor =
        some (last, s.engine.cursor + (lzwStreamBits (minsizeOf s) tokens last).length) ∧
      lzwDecode s = lzwLoop s (minsizeOf s) s.regs.dstLen.toNat (fuel + 1) r := by
  have hbits := hs.1
  obtain ⟨hs1, hs2⟩ := spellsLSB_append hs
  have hw : 1 ≤ lzwStreamWidth (minsizeOf s) tokens := lzwWidth_pos _ _
  simp only [lzwStreamBits, List.length_append, lzwCodeBits_length] at hbits
  obtain ⟨fuel, r, hf, h1, hwid, h4, h5, h6, h7⟩ := lzwDecode_tokens h2 h8 hl hlen hs1
  obtain ⟨fuel, rfl⟩ : ∃ f, fuel = f + 1 := ⟨fuel - 1, by omega⟩
  refine ⟨fuel, r, h1, hwid, h4, h5, ?_, h7⟩
  rw [hwid, h6, readBitsLSB_spelled hlast hs2, lzwStreamBits, List.length_append,
    lzwCodeBits_length, Nat.add_assoc]

/-- The decode of a stream that ends inside a code (R139, R187). -/
theorem lzwDecode_cutOff {s : State} {tokens : List LzwToken} (h2 : 2 ≤ minsizeOf s)
    (h8 : minsizeOf s ≤ 8) (hl : lzwStreamLegal (minsizeOf s) [] none tokens)
    (hlen : (lzwStreamBytes tokens).length ≤ s.regs.dstLen.toNat)
    (hs : spellsLSB s s.engine.cursor (lzwTokenBits (minsizeOf s) [] none tokens))
    (he : s.engine.stop < s.engine.cursor + (lzwTokenBits (minsizeOf s) [] none tokens).length +
      lzwStreamWidth (minsizeOf s) tokens) :
    ∃ r, r.out = lzwStreamBytes tokens ∧
      lzwDecode s = .raised r (inputEnded s 0 (lzwStreamBytes tokens).length
        (s.engine.cursor + (lzwTokenBits (minsizeOf s) [] none tokens).length)) := by
  obtain ⟨fuel, r, -, -, hwid, h4, -, h6, h7⟩ := lzwDecode_tokens h2 h8 hl hlen hs
  refine ⟨r, h4, ?_⟩
  rw [h7, ← h4, ← h6]
  cases fuel with
  | zero => rfl
  | succ fuel =>
    rw [lzwLoop, readBitsLSB, if_pos (by omega)]
    rfl

/-- The next free code behind a stream. -/
theorem dictNext_of_matches {m : Nat} {d : LzwDict} {tokens : List LzwToken}
    {prev : Option (List Byte)} (h : LzwMatches m d (lzwTokenTable m [] none tokens) prev) :
    dictNext d = lzwStreamNext m tokens := by
  rw [dictNext, h.minsize, h.strings, lzwTokenTable_length, lzwStreamNext]

/-- `CLEAR` and `EOI` fit the width of every stream. -/
theorem control_lt_width {m : Nat} {tokens : List LzwToken} (h2 : 2 ≤ m) (h8 : m ≤ 8) :
    2 ^ m + 1 < 2 ^ lzwStreamWidth m tokens := by
  have h1 : m + 1 ≤ lzwStreamWidth m tokens := lzwWidth_control h8
  have h3 : 2 ^ (m + 1) ≤ 2 ^ lzwStreamWidth m tokens := Nat.pow_le_pow_right (by omega) h1
  have h4 : 2 ^ 2 ≤ 2 ^ m := Nat.pow_le_pow_right (by omega) h2
  rw [Nat.pow_succ] at h3
  omega

/-- The unit of `LZW_DECODE` after an error: the bytes put out so far are kept and counted, and no
byte outside the output window changes (R136, R137). -/
theorem lzwUnit_raised {s : State} {r : LzwRun} {e : ErrInfo} (h : lzwDecode s = .raised r e) :
    ∃ mem, lzwUnit 0 s = .raised { s with
        mem := mem
        results := { s.results with outCount := BitVec.ofNat 32 r.out.length } } e ∧
      (∀ k, k < r.out.length → storeGet mem (s.regs.dstAddr.toNat + k) = r.out[k]?) ∧
      ∀ a, a < s.regs.dstAddr.toNat ∨ s.regs.dstAddr.toNat + s.regs.dstLen.toNat ≤ a →
        storeGet mem a = storeGet s.mem a := by
  have hle := ((lzwDecode_bounds s).2 r e h).1
  have hlt : r.out.length < 2 ^ 32 := lt_of_le_of_lt hle s.regs.dstLen.isLt
  refine ⟨freeRegion s.epoch (writeBytes s.mem s.regs.dstAddr.toNat r.out)
    (s.regs.dstAddr.toNat + r.out.length) (s.regs.dstLen.toNat - r.out.length), ?_, ?_, ?_⟩
  · simp only [lzwUnit, h, lzwStore, regOf_of_lt hlt]
  · intro k hk
    rw [storeGet_freeRegion_outside _ _ _ (by omega), storeGet_writeBytes_inside _ _ _ _ hk]
  · intro a ha
    rw [storeGet_freeRegion_outside _ _ _ (by omega),
      storeGet_writeBytes_outside _ _ _ _ (by omega)]

end Sys2Proof.Machine
end

