-- ==== Sys2Proof/Laws/Pixels.lean ====
section
/-! SUPPORT. What the CMYK converter and the palette commands compute: the bytes of a converted row,
the bytes of looked-up indices, and clamped entries. -/

namespace Sys2Proof.Machine

/-! ### Lists of triples -/

/-- Byte `3 * i + c` of a list of triples. -/
theorem flatMap_triples {α : Type} (f : α → Byte × Byte × Byte) (xs : List α) :
    (xs.flatMap fun x => [(f x).1, (f x).2.1, (f x).2.2]).length = 3 * xs.length ∧
    ∀ i c, c < 3 → (xs.flatMap fun x => [(f x).1, (f x).2.1, (f x).2.2])[3 * i + c]? =
      (xs[i]?).bind fun x => [(f x).1, (f x).2.1, (f x).2.2][c]? := by
  induction xs with
  | nil => simp
  | cons x xs ih =>
    refine ⟨by simp only [List.flatMap_cons, List.length_append, ih.1, List.length_cons,
      List.length_nil]; omega, fun i c hc => ?_⟩
    cases i with
    | zero =>
      rw [List.flatMap_cons, List.getElem?_append_left (by simp; omega)]
      simp
    | succ i =>
      rw [List.flatMap_cons, List.getElem?_append_right (by simp; omega)]
      simp only [List.length_cons, List.length_nil, List.getElem?_cons_succ]
      rw [show 3 * (i + 1) + c - (0 + 1 + 1 + 1) = 3 * i + c by omega, ih.2 i c hc]

/-! ### CMYK -/

theorem cmykSample_toNat (formula : CmykFormula) (ink key : Byte) :
    (cmykSample formula ink key).toNat = match formula with
      | .subClamp => 255 - ink.toNat - key.toNat
      | .mult => (255 - ink.toNat) * (255 - key.toNat) / 255 := by
  cases formula with
  | subClamp =>
    simp only [cmykSample, BitVec.toNat_ofNat]
    exact Nat.mod_eq_of_lt (by omega)
  | mult =>
    simp only [cmykSample, BitVec.toNat_ofNat]
    refine Nat.mod_eq_of_lt ?_
    have : (255 - ink.toNat) * (255 - key.toNat) ≤ 255 * 255 :=
      Nat.mul_le_mul (by omega) (by omega)
    omega

@[simp] theorem cmykRow_length (formula : CmykFormula) (planar : Bool) (w : Nat)
    (input : List Byte) : (cmykRow formula planar w input).length = 3 * w := by
  have := (flatMap_triples (fun i => (cmykSample formula (cmykInks planar w input i).1
    (cmykInks planar w input i).2.2.2, cmykSample formula (cmykInks planar w input i).2.1
    (cmykInks planar w input i).2.2.2, cmykSample formula (cmykInks planar w input i).2.2.1
    (cmykInks planar w input i).2.2.2)) (List.range w)).1
  rw [List.length_range] at this
  exact this

/-- Sample `c` of pixel `i` of a converted row (R257). -/
theorem cmykRow_sample (formula : CmykFormula) (planar : Bool) {w i c : Nat} (input : List Byte)
    (hi : i < w) (hc : c < 3) :
    (cmykRow formula planar w input)[3 * i + c]? =
      some (cmykSample formula ((input[if planar then c * w + i else 4 * i + c]?).getD 0)
        ((input[if planar then 3 * w + i else 4 * i + 3]?).getD 0)) := by
  have := (flatMap_triples (fun i => (cmykSample formula (cmykInks planar w input i).1
    (cmykInks planar w input i).2.2.2, cmykSample formula (cmykInks planar w input i).2.1
    (cmykInks planar w input i).2.2.2, cmykSample formula (cmykInks planar w input i).2.2.1
    (cmykInks planar w input i).2.2.2)) (List.range w)).2 i c hc
  rw [List.getElem?_range hi] at this
  refine Eq.trans this ?_
  have h3 : c = 0 ∨ c = 1 ∨ c = 2 := by omega
  cases planar <;> rcases h3 with rfl | rfl | rfl <;> simp [cmykInks]

/-! ### Palette look-up -/

theorem lookupLoop_error {s : State} {n i b : Nat} {e : ErrInfo}
    (h : lookupLoop s n i b = .error e) : e.kind = .invalidStructure := by
  induction n generalizing i b with
  | zero => simp [lookupLoop] at h
  | succ n ih =>
    rw [lookupLoop] at h
    split at h
    · cases h; rfl
    · split at h
      · cases h; rfl
      · split at h
        · cases h; exact ih ‹_›
        · cases h

theorem lookupLoop_length {s : State} {n i b b' : Nat} {out : List Byte}
    (h : lookupLoop s n i b = .ok (out, b')) : out.length = 3 * n := by
  induction n generalizing i b b' out with
  | zero => simp only [lookupLoop, Except.ok.injEq, Prod.mk.injEq] at h; rw [← h.1]; rfl
  | succ n ih =>
    rw [lookupLoop] at h
    split at h
    · cases h
    · split at h
      · cases h
      · split at h
        · cases h
        · rename_i he
          cases h
          simp only [List.length_cons, ih he]
          omega

/-- The bytes an index byte stands for. -/
def entryBytes (s : State) (k : Byte) : List Byte :=
  [(palGet s k.toNat).r, (palGet s k.toNat).g, (palGet s k.toNat).b]

/-- Legal index bytes are looked up one after another (R272). -/
theorem lookupLoop_spelled {s : State} (indices : List Byte) :
    ∀ (i b : Nat), (∀ k ∈ indices, k.toNat < palSizeOf s) → spellsBytes s b indices →
      lookupLoop s indices.length i b =
        .ok (indices.flatMap (entryBytes s), b + 8 * indices.length) := by
  induction indices with
  | nil => intro i b _ _; rfl
  | cons k ks ih =>
    intro i b hk hs
    have hrest := (spellsBytes_cons.mp hs).2.2
    rw [List.length_cons, lookupLoop, readByte_spelled hs]
    simp only
    rw [if_neg (by have := hk k List.mem_cons_self; omega),
      ih (i + 1) (b + 8) (fun q hq => hk q (List.mem_cons_of_mem _ hq)) hrest]
    simp only [List.flatMap_cons, entryBytes, List.cons_append, List.nil_append]
    rw [show b + 8 + 8 * ks.length = b + 8 * (ks.length + 1) by omega]

/-- The first illegal index byte is refused (R268, R272). -/
theorem lookupLoop_refused {s : State} {bad : Byte} (hbad : palSizeOf s ≤ bad.toNat)
    (indices : List Byte) :
    ∀ (n i b : Nat), indices.length < n → (∀ k ∈ indices, k.toNat < palSizeOf s) →
      spellsBytes s b (indices ++ [bad]) →
      lookupLoop s n i b =
        .error ⟨.invalidStructure, b / 8 + indices.length, 0, i + indices.length, bad.toNat,
          b + 8 * indices.length + 8⟩ := by
  induction indices with
  | nil =>
    intro n i b hn _ hs
    obtain ⟨n, rfl⟩ : ∃ k, n = k + 1 := ⟨n - 1, by simp at hn; omega⟩
    rw [lookupLoop, readByte_spelled hs]
    simp only
    rw [if_pos hbad]
    rfl
  | cons k ks ih =>
    intro n i b hn hk hs
    obtain ⟨n, rfl⟩ : ∃ j, n = j + 1 := ⟨n - 1, by simp at hn; omega⟩
    have hrest := (spellsBytes_cons.mp hs).2.2
    rw [lookupLoop, readByte_spelled hs]
    simp only
    rw [if_neg (by have := hk k List.mem_cons_self; omega),
      ih n (i + 1) (b + 8) (by simpa using hn) (fun q hq => hk q (List.mem_cons_of_mem _ hq)) hrest]
    simp only [List.length_cons, Except.error.injEq, ErrInfo.mk.injEq, true_and]
    omega

/-- The input ends where an index byte is due (R139, R272). -/
theorem lookupLoop_ended {s : State} (indices : List Byte) :
    ∀ (n i b : Nat), indices.length < n → (∀ k ∈ indices, k.toNat < palSizeOf s) →
      spellsBytes s b indices → s.engine.stop < b + 8 * indices.length + 8 →
      lookupLoop s n i b =
        .error (inputEnded s 0 (i + indices.length) (b + 8 * indices.length)) := by
  induction indices with
  | nil =>
    intro n i b hn _ _ he
    obtain ⟨n, rfl⟩ : ∃ k, n = k + 1 := ⟨n - 1, by simp at hn; omega⟩
    rw [lookupLoop, readByte_none (by simpa using he)]
    rfl
  | cons k ks ih =>
    intro n i b hn hk hs he
    obtain ⟨n, rfl⟩ : ∃ j, n = j + 1 := ⟨n - 1, by simp at hn; omega⟩
    have hrest := (spellsBytes_cons.mp hs).2.2
    rw [List.length_cons] at he
    rw [lookupLoop, readByte_spelled hs]
    simp only
    rw [if_neg (by have := hk k List.mem_cons_self; omega),
      ih n (i + 1) (b + 8) (by simpa using hn) (fun q hq => hk q (List.mem_cons_of_mem _ hq)) hrest
        (by omega)]
    simp only [List.length_cons, Except.error.injEq, inputEnded, ErrInfo.mk.injEq, true_and]
    omega

/-! ### Entries -/

theorem clampSample_toNat (max v : Byte) : (clampSample max v).toNat = min v.toNat max.toNat := by
  rw [clampSample]
  split <;> omega

@[simp] theorem entriesOf_length (max : Byte) (n : Nat) (bytes : List Byte) :
    (entriesOf max n bytes).length = n := by
  induction n generalizing bytes with
  | zero => rfl
  | succ n ih => simp [entriesOf, ih]

/-- Entry `k` of a list of bytes is its `k`-th triple, clamped (R267, R273). -/
theorem entriesOf_getElem? (max : Byte) (n : Nat) (bytes : List Byte) (k : Nat) (hk : k < n) :
    (entriesOf max n bytes)[k]? = some (clampRgb max ⟨(bytes[3 * k]?).getD 0,
      (bytes[3 * k + 1]?).getD 0, (bytes[3 * k + 2]?).getD 0⟩) := by
  induction n generalizing bytes k with
  | zero => omega
  | succ n ih =>
    cases k with
    | zero => simp [entriesOf]
    | succ k =>
      simp only [entriesOf, List.getElem?_cons_succ]
      rw [ih _ k (by omega)]
      simp only [List.getElem?_drop]
      rw [show 3 + 3 * k = 3 * (k + 1) by omega, show 3 + (3 * k + 1) = 3 * (k + 1) + 1 by omega,
        show 3 + (3 * k + 2) = 3 * (k + 1) + 2 by omega]

end Sys2Proof.Machine
end

