-- ==== Sys2Proof/Laws/Png.lean ====
section
/-! SUPPORT. What the PNG filter engine answers: its errors, the length of its rows, and every byte of
a reconstructed row. -/

namespace Sys2Proof.Machine

@[simp] theorem reconRow_length (t : PngFilter) (bpp : Nat) (xs prior seen priorSeen : List Byte) :
    (reconRow t bpp xs prior seen priorSeen).length = xs.length := by
  induction xs generalizing prior seen priorSeen with
  | nil => rfl
  | cons x xs ih => simp [reconRow, ih]

/-- Byte `i` of a row, or, before its start, the byte as far back among those already seen. -/
def neighbourFrom (row seen : List Byte) (bpp i : Nat) : Byte :=
  if bpp ≤ i then (row[i - bpp]?).getD 0 else (seen[bpp - 1 - i]?).getD 0

@[simp] theorem neighbourFrom_nil (row : List Byte) (bpp i : Nat) :
    neighbourFrom row [] bpp i = neighbour row bpp i := by
  simp [neighbourFrom, neighbour]

theorem neighbourFrom_succ (row seen : List Byte) (y : Byte) {bpp i : Nat} :
    neighbourFrom (y :: row) seen bpp (i + 1) = neighbourFrom row (y :: seen) bpp i := by
  rw [neighbourFrom, neighbourFrom]
  by_cases h1 : bpp ≤ i
  · rw [if_pos (by omega), if_pos h1, show i + 1 - bpp = i - bpp + 1 by omega,
      List.getElem?_cons_succ]
  · by_cases h2 : bpp = i + 1
    · rw [if_pos (by omega), if_neg h1, show i + 1 - bpp = 0 by omega,
        show bpp - 1 - i = 0 by omega]
      rfl
    · rw [if_neg (by omega), if_neg h1, show bpp - 1 - i = bpp - 1 - (i + 1) + 1 by omega,
        List.getElem?_cons_succ]

/-- Every byte of a reconstructed row (R222, R223). -/
theorem reconRow_byte {t : PngFilter} {bpp : Nat} (hb : 1 ≤ bpp) (xs : List Byte) :
    ∀ (prior seen priorSeen : List Byte) (i : Nat), i < xs.length →
      (reconRow t bpp xs prior seen priorSeen)[i]? =
        some (pngRecon t ((xs[i]?).getD 0)
          (neighbourFrom (reconRow t bpp xs prior seen priorSeen) seen bpp i)
          ((prior[i]?).getD 0) (neighbourFrom prior priorSeen bpp i)) := by
  induction xs with
  | nil => intro prior seen priorSeen i h; simp at h
  | cons x xs ih =>
    intro prior seen priorSeen i h
    cases i with
    | zero =>
      simp only [reconRow, List.getElem?_cons_zero, neighbourFrom, bytesBack,
        if_neg (Nat.not_le.mpr hb), Nat.sub_zero, Option.getD_some]
      cases prior <;> simp
    | succ i =>
      simp only [List.length_cons, Nat.add_lt_add_iff_right] at h
      simp only [reconRow, List.getElem?_cons_succ]
      rw [ih _ _ _ i h, neighbourFrom_succ]
      have hp : prior.tail[i]? = prior[i + 1]? := by cases prior <;> simp
      have hn : neighbourFrom prior priorSeen bpp (i + 1) =
          neighbourFrom prior.tail (prior.headD 0 :: priorSeen) bpp i := by
        cases prior with
        | nil =>
          simp only [neighbourFrom, List.tail_nil, List.headD_nil, List.getElem?_nil]
          by_cases h1 : bpp ≤ i
          · rw [if_pos (by omega), if_pos h1]
          · by_cases h2 : bpp = i + 1
            · rw [if_pos (by omega), if_neg h1, show bpp - 1 - i = 0 by omega]
              rfl
            · rw [if_neg (by omega), if_neg h1,
                show bpp - 1 - i = bpp - 1 - (i + 1) + 1 by omega, List.getElem?_cons_succ]
        | cons p ps => exact neighbourFrom_succ ps priorSeen p
      rw [hp, hn]

/-- The reconstruction of a row is byte for byte the one of R222 and R223. -/
theorem reconRow_reconstructs {t : PngFilter} {bpp : Nat} (hb : 1 ≤ bpp) (xs prior : List Byte) :
    reconstructs t bpp xs prior (reconRow t bpp xs prior [] []) := by
  refine ⟨reconRow_length .., fun i hi => ?_⟩
  conv_lhs => rw [reconRow_byte hb xs prior [] [] i hi]
  simp [pngRecon]

/-! ### Rows -/

theorem filterRow_cases (t : PngFilter) (first : Bool) (s : State) (r b : Nat) :
    (∃ xs, readBytes s s.regs.dstLen.toNat b = .ok (xs, b + 8 * s.regs.dstLen.toNat) ∧
      xs.length = s.regs.dstLen.toNat ∧
      filterRow t first s r b = .ok (reconRow t (bppOf s) xs (priorRow first s r) [] [],
        b + 8 * s.regs.dstLen.toNat)) ∨
    ∃ i, readBytes s s.regs.dstLen.toNat b = .error i ∧
      filterRow t first s r b = .error (endOfInput s r i (b + 8 * i)) := by
  cases h : readBytes s s.regs.dstLen.toNat b with
  | ok p =>
    obtain ⟨xs, b'⟩ := p
    obtain ⟨hl, rfl⟩ := readBytes_ok h
    exact .inl ⟨xs, rfl, hl, by rw [filterRow, h]⟩
  | error i => exact .inr ⟨i, rfl, by rw [filterRow, h]⟩

/-- A PNG row, where it is reconstructed, has the bytes of one row. -/
theorem filterRow_length {t : PngFilter} {first : Bool} {s : State} {r b b' : Nat}
    {out : List Byte} (h : filterRow t first s r b = .ok (out, b')) :
    out.length = s.regs.dstLen.toNat := by
  rcases filterRow_cases t first s r b with ⟨xs, -, hl, he⟩ | ⟨i, -, he⟩
  · rw [he] at h
    simp only [Except.ok.injEq, Prod.mk.injEq] at h
    rw [← h.1, reconRow_length, hl]
  · rw [he] at h; cases h

theorem filterRow_error {t : PngFilter} {first : Bool} {s : State} {r b : Nat} {e : ErrInfo}
    (h : filterRow t first s r b = .error e) : e.kind = .invalidStructure := by
  rcases filterRow_cases t first s r b with ⟨xs, -, -, he⟩ | ⟨i, -, he⟩
  · rw [he] at h; cases h
  · rw [he] at h; cases h; rfl

/-- A PNG row whose input ends among its data bytes (R139, R231). -/
theorem filterRow_ended {t : PngFilter} {first : Bool} {s : State} {r b : Nat}
    (h1 : 1 ≤ s.regs.dstLen.toNat) (he : s.engine.stop < b + 8 * s.regs.dstLen.toNat) :
    filterRow t first s r b = .error (inputEnded s r ((s.engine.stop - b) / 8)
      (b + 8 * ((s.engine.stop - b) / 8))) := by
  rw [filterRow, readBytes_short h1 he]
  rfl

theorem typedRow_length {first : Bool} {s : State} {r b b' : Nat} {out : List Byte}
    (h : typedRow first s r b = .ok (out, b')) : out.length = s.regs.dstLen.toNat := by
  rw [typedRow] at h
  split at h
  · cases h
  · split at h
    · cases h
    · exact filterRow_length h

/-- A `PNG_UNFILTER` row whose input ends at its type byte (R139, R229). -/
theorem typedRow_noType {first : Bool} {s : State} {r b : Nat} (he : s.engine.stop < b + 8) :
    typedRow first s r b =
      .error (inputEnded s r (Config.typeByteCol s.epoch).toNat b) := by
  rw [typedRow, readByte_none he]
  rfl

/-- Behind a legal type byte (R229) the row is that of its filter. -/
theorem typedRow_typed {first : Bool} {s : State} {r b : Nat} {type : Byte} {t : PngFilter}
    {xs : List Byte} (hs : spellsBytes s b (type :: xs)) (ht : filterOfType type.toNat = some t) :
    typedRow first s r b = filterRow t first s r (b + 8) := by
  simp only [typedRow, readByte_spelled hs, ht]

/-- There is a filter for each type byte up to 4, and for no other (R229). -/
theorem filterOfType_some {n : Nat} (h : n ≤ 4) : ∃ t, filterOfType n = some t := by
  match n with
  | 0 | 1 | 2 | 3 | 4 => exact ⟨_, rfl⟩
  | n + 5 => omega

theorem typedRow_error {first : Bool} {s : State} {r b : Nat} {e : ErrInfo}
    (h : typedRow first s r b = .error e) : e.kind = .invalidStructure := by
  rw [typedRow] at h
  split at h
  · cases h; rfl
  · split at h
    · cases h; rfl
    · exact filterRow_error h

end Sys2Proof.Machine
end

