-- ==== Sys2Proof/Laws/RunLength.lean ====
section
/-! SUPPORT. What the run-length engine answers: its errors, the length of its rows, and what it
decodes from an input that spells packets. -/

namespace Sys2Proof.Machine

/-! ### Every row -/

theorem packetLoop_error {s : State} {packet : Byte → Packet} {rb row fuel : Nat}
    {out : List Byte} {b : Nat} {e : ErrInfo}
    (h : packetLoop s packet rb row fuel out b = .error e) : e.kind = .invalidStructure := by
  induction fuel generalizing out b with
  | zero =>
    rw [packetLoop] at h
    split at h
    · cases h
    · simp only [Except.error.injEq] at h; subst h; rfl
  | succ fuel ih =>
    rw [packetLoop] at h
    split at h
    · cases h
    · split at h
      · simp only [Except.error.injEq] at h; subst h; rfl
      · split at h
        · exact ih h
        · simp only [Except.error.injEq] at h; subst h; rfl
        · split at h
          · simp only [Except.error.injEq] at h; subst h; rfl
          · split at h
            · simp only [Except.error.injEq] at h; subst h; rfl
            · exact ih h
        · split at h
          · simp only [Except.error.injEq] at h; subst h; rfl
          · split at h
            · simp only [Except.error.injEq] at h; subst h; rfl
            · exact ih h

/-- A decoded row has exactly the bytes of one row. -/
theorem packetLoop_length {s : State} {packet : Byte → Packet} {rb row fuel : Nat}
    {out out' : List Byte} {b b' : Nat}
    (h : packetLoop s packet rb row fuel out b = .ok (out', b')) (ho : out.length ≤ rb) :
    out'.length = rb := by
  induction fuel generalizing out b with
  | zero =>
    rw [packetLoop] at h
    split at h
    · simp only [Except.ok.injEq, Prod.mk.injEq] at h; obtain ⟨rfl, -⟩ := h; omega
    · cases h
  | succ fuel ih =>
    rw [packetLoop] at h
    split at h
    · simp only [Except.ok.injEq, Prod.mk.injEq] at h; obtain ⟨rfl, -⟩ := h; omega
    · split at h
      · cases h
      · split at h
        · exact ih h ho
        · cases h
        · split at h
          · cases h
          · split at h
            · cases h
            · rename_i hb
              refine ih h ?_
              have := (readBytes_ok hb).1
              simp only [List.length_append]
              omega
        · split at h
          · cases h
          · split at h
            · cases h
            · refine ih h ?_
              simp only [List.length_append, List.length_replicate]
              omega

/-- A row that is full ends. -/
theorem packetLoop_full {s : State} {packet : Byte → Packet} {rb row fuel : Nat}
    {out : List Byte} {b : Nat} (h : rb ≤ out.length) :
    packetLoop s packet rb row fuel out b = .ok (out, b) := by
  cases fuel <;> rw [packetLoop, if_pos h]

/-! ### The end of the input -/

/-- The input ends where a control byte is due (R139, R200). -/
theorem packetLoop_noControl {s : State} {packet : Byte → Packet} {rb row fuel : Nat}
    {out : List Byte} {b : Nat} (h1 : out.length < rb) (he : s.engine.stop < b + 8) :
    packetLoop s packet rb row fuel out b = .error (inputEnded s row out.length b) := by
  cases fuel with
  | zero => rw [packetLoop, if_neg (by omega)]; rfl
  | succ fuel => rw [packetLoop, if_neg (by omega)]; simp only [readByte_none he]; rfl

/-- The input ends inside the bytes of a literal packet that fits (R139, R201). -/
theorem packetLoop_cutLiteral {s : State} {packet : Byte → Packet} {rb row fuel n : Nat}
    {out : List Byte} {b : Nat} {control : Byte} (hf : s.engine.stop ≤ b + fuel)
    (hs : spellsBytes s b [control]) (hp : packet control = .literal n) (hn : 1 ≤ n)
    (h1 : out.length < rb) (h2 : out.length + n ≤ rb) (he : s.engine.stop < b + 8 + 8 * n) :
    packetLoop s packet rb row fuel out b = .error (inputEnded s row out.length
      (b + 8 + 8 * ((s.engine.stop - (b + 8)) / 8))) := by
  have h8 := (spellsBytes_cons.mp hs).1
  obtain ⟨fuel, rfl⟩ : ∃ f, fuel = f + 1 := ⟨fuel - 1, by omega⟩
  rw [packetLoop, if_neg (by omega)]
  simp only [readByte_spelled hs, hp]
  rw [if_neg (by omega), readBytes_short hn he]
  rfl

/-- The input ends where the value byte of a repeat packet that fits is due (R139, R201, R204). -/
theorem packetLoop_cutRepeat {s : State} {packet : Byte → Packet} {rb row fuel n : Nat}
    {out : List Byte} {b : Nat} {control : Byte} (hf : s.engine.stop ≤ b + fuel)
    (hs : spellsBytes s b [control]) (hp : packet control = .repeated n)
    (h1 : out.length < rb) (h2 : out.length + n ≤ rb) (he : s.engine.stop < b + 16) :
    packetLoop s packet rb row fuel out b = .error (inputEnded s row out.length (b + 8)) := by
  have h8 := (spellsBytes_cons.mp hs).1
  obtain ⟨fuel, rfl⟩ : ∃ f, fuel = f + 1 := ⟨fuel - 1, by omega⟩
  rw [packetLoop, if_neg (by omega)]
  simp only [readByte_spelled hs, hp]
  rw [if_neg (by omega), readByte_none (by omega)]
  rfl

/-! ### Control bytes -/

theorem packbitsPacket_eq (n : Byte) : packbitsPacket n = byterun1Packet n := by
  have h := n.isLt
  have hi : n.toInt = if n.toNat < 128 then (n.toNat : Int) else n.toNat - 256 := by
    rw [BitVec.toInt_eq_toNat_cond]
    split_ifs <;> omega
  rw [packbitsPacket, byterun1Packet, hi]
  by_cases h1 : n.toNat < 128
  · simp only [if_pos h1]
    rw [if_pos (by omega)]
    congr 1
  · simp only [if_neg h1]
    rw [if_neg (by omega)]
    by_cases h2 : n.toNat = 128
    · rw [if_pos (by omega), if_pos h2]
    · rw [if_neg (by omega), if_neg h2]
      congr 1
      omega

/-- The control byte of a packet. -/
def RunPacket.control : RunPacket → Byte
  | .literal bytes => BitVec.ofNat 8 (bytes.length - 1)
  | .repeated n _ => BitVec.ofNat 8 (257 - n)
  | .noop => 0x80

theorem byterun1Packet_control {p : RunPacket} (hp : p.legal) :
    byterun1Packet p.control = match p with
      | .literal bytes => .literal bytes.length
      | .repeated n _ => .repeated n
      | .noop => .noop := by
  cases p with
  | literal bytes =>
    obtain ⟨h1, h2⟩ := hp
    simp only [RunPacket.control, byterun1Packet, BitVec.toNat_ofNat]
    rw [Nat.mod_eq_of_lt (by omega), if_pos (by omega)]
    congr 1
    omega
  | repeated n v =>
    obtain ⟨h1, h2⟩ := hp
    simp only [RunPacket.control, byterun1Packet, BitVec.toNat_ofNat]
    rw [Nat.mod_eq_of_lt (by omega), if_neg (by omega), if_neg (by omega)]
    congr 1
    omega
  | noop => rfl

/-! ### Packets -/

/-- One packet that fits its row. -/
theorem packetLoop_packet {s : State} {rb row fuel : Nat} {out : List Byte} {b : Nat}
    {p : RunPacket} (hp : p.legal) (h1 : out.length < rb)
    (h2 : out.length + p.output.length ≤ rb) (hs : spellsBytes s b p.encoding) :
    packetLoop s byterun1Packet rb row (fuel + 1) out b =
      packetLoop s byterun1Packet rb row fuel (out ++ p.output) (b + 8 * p.encoding.length) := by
  have hc := byterun1Packet_control hp
  rw [packetLoop, if_neg (by omega)]
  cases p with
  | literal bytes =>
    rw [RunPacket.encoding] at hs
    have hrest := (spellsBytes_cons.mp hs).2.2
    rw [RunPacket.control] at hc
    simp only [RunPacket.output] at h2
    simp only [readByte_spelled hs, hc]
    rw [if_neg (by omega), readBytes_spelled hrest]
    simp only [RunPacket.output, RunPacket.encoding, List.length_cons]
    rw [show b + 8 + 8 * bytes.length = b + 8 * (bytes.length + 1) by omega]
  | repeated n v =>
    rw [RunPacket.encoding] at hs
    have hrest := (spellsBytes_cons.mp hs).2.2
    rw [RunPacket.control] at hc
    simp only [RunPacket.output, List.length_replicate] at h2
    simp only [readByte_spelled hs, hc]
    rw [if_neg (by omega), readByte_spelled hrest]
    rfl
  | noop =>
    rw [RunPacket.encoding] at hs
    rw [RunPacket.control] at hc
    simp only [readByte_spelled hs, hc, RunPacket.output, RunPacket.encoding, List.append_nil]
    rfl

/-- Packets before the one that fills the row. -/
theorem packetLoop_packets {s : State} {rb row : Nat} (ps : List RunPacket) :
    ∀ (fuel : Nat) (out : List Byte) (b : Nat), (∀ p ∈ ps, p.legal) →
      out.length + (ps.flatMap RunPacket.output).length < rb →
      spellsBytes s b (ps.flatMap RunPacket.encoding) →
      packetLoop s byterun1Packet rb row (fuel + ps.length) out b =
        packetLoop s byterun1Packet rb row fuel (out ++ ps.flatMap RunPacket.output)
          (b + 8 * (ps.flatMap RunPacket.encoding).length) := by
  induction ps with
  | nil => intro fuel out b _ _ _; simp
  | cons p ps ih =>
    intro fuel out b hl h hs
    simp only [List.flatMap_cons, List.length_append] at h hs
    obtain ⟨hs1, hs2⟩ := spellsBytes_append hs
    rw [List.length_cons, ← Nat.add_assoc,
      packetLoop_packet (hl p List.mem_cons_self) (by omega) (by omega) hs1,
      ih fuel _ _ (fun q hq => hl q (List.mem_cons_of_mem _ hq))
        (by simp only [List.length_append]; omega) hs2]
    simp only [List.flatMap_cons, List.append_assoc, List.length_append]
    rw [Nat.mul_add, ← Nat.add_assoc]

/-- Each packet has a control byte. -/
theorem packets_le_bytes (ps : List RunPacket) :
    ps.length ≤ (ps.flatMap RunPacket.encoding).length := by
  induction ps with
  | nil => simp
  | cons p ps ih =>
    have : 1 ≤ p.encoding.length := by cases p <;> simp [RunPacket.encoding]
    simp only [List.length_cons, List.flatMap_cons, List.length_append]
    omega

/-- A row behind packets that do not fill it. -/
theorem packetRow_packets {s : State} {row b : Nat} {ps : List RunPacket}
    (hl : ∀ p ∈ ps, p.legal)
    (hlen : (ps.flatMap RunPacket.output).length < s.regs.dstLen.toNat)
    (hs : spellsBytes s b (ps.flatMap RunPacket.encoding)) :
    ∃ fuel, s.engine.stop ≤ b + 8 * (ps.flatMap RunPacket.encoding).length + fuel ∧
      runLengthRow s byterun1Packet row b =
        packetLoop s byterun1Packet s.regs.dstLen.toNat row fuel
          (ps.flatMap RunPacket.output) (b + 8 * (ps.flatMap RunPacket.encoding).length) := by
  have hbound := hs.1
  have hbytes := packets_le_bytes ps
  refine ⟨s.engine.stop - b - ps.length, by omega, ?_⟩
  rw [runLengthRow,
    show s.engine.stop - b = s.engine.stop - b - ps.length + ps.length by omega,
    packetLoop_packets ps _ _ _ hl (by simpa using hlen) hs, List.nil_append, Nat.add_sub_cancel]

/-- A row whose packets fill it exactly (R200 to R202). -/
theorem packetRow_spelled {s : State} {row b : Nat} {ps : List RunPacket}
    (hl : ∀ p ∈ ps, p.legal)
    (hlen : (ps.flatMap RunPacket.output).length = s.regs.dstLen.toNat)
    (hne : ps.getLast? ≠ some .noop) (hs : spellsBytes s b (ps.flatMap RunPacket.encoding)) :
    runLengthRow s byterun1Packet row b =
      .ok (ps.flatMap RunPacket.output, b + 8 * (ps.flatMap RunPacket.encoding).length) := by
  rcases List.eq_nil_or_concat ps with rfl | ⟨init, last, rfl⟩
  · rw [runLengthRow, packetLoop_full (by simp at hlen ⊢; omega)]
    simp
  · simp only [List.concat_eq_append] at *
    have hbound := hs.1
    simp only [List.flatMap_append, List.flatMap_cons, List.flatMap_nil, List.append_nil,
      List.length_append] at hlen hs hbound ⊢
    obtain ⟨hs1, hs2⟩ := spellsBytes_append hs
    have hlast : last.legal := hl last (by simp)
    have hpos : 1 ≤ last.output.length := by
      cases last with
      | literal bytes => exact hlast.1
      | repeated n v => have := hlast.1; simp only [RunPacket.output, List.length_replicate]; omega
      | noop => simp at hne
    have hbytes := packets_le_bytes init
    have henc : 1 ≤ last.encoding.length := by cases last <;> simp [RunPacket.encoding]
    obtain ⟨fuel, hfuel⟩ : ∃ fuel, s.engine.stop - b = fuel + 1 + init.length :=
      ⟨s.engine.stop - b - 1 - init.length, by omega⟩
    rw [runLengthRow, hfuel, packetLoop_packets init _ _ _ (fun p hp => hl p (by simp [hp]))
      (by simp only [List.length_nil]; omega) hs1, List.nil_append,
      packetLoop_packet hlast (by omega) (by omega) hs2,
      packetLoop_full (by simp only [List.length_append]; omega), Nat.mul_add, ← Nat.add_assoc]

/-- A packet that does not fit what is left of its row (R200). -/
theorem packetRow_overrun {s : State} {row b : Nat} {ps : List RunPacket} {n : Byte}
    (hl : ∀ p ∈ ps, p.legal)
    (hlen : (ps.flatMap RunPacket.output).length < s.regs.dstLen.toNat)
    (hn : (n.toNat < 128 ∧
        s.regs.dstLen.toNat < (ps.flatMap RunPacket.output).length + n.toNat + 1) ∨
      (128 < n.toNat ∧
        s.regs.dstLen.toNat < (ps.flatMap RunPacket.output).length + (257 - n.toNat)))
    (hs : spellsBytes s b (ps.flatMap RunPacket.encoding ++ [n])) :
    runLengthRow s byterun1Packet row b =
      .error (packetError (b + 8 * (ps.flatMap RunPacket.encoding).length) row
        (ps.flatMap RunPacket.output).length n
        (b + 8 * (ps.flatMap RunPacket.encoding).length + 8)) := by
  obtain ⟨hs1, hs2⟩ := spellsBytes_append hs
  have h8 := (spellsBytes_cons.mp hs2).1
  obtain ⟨fuel, hf, he⟩ := packetRow_packets (row := row) hl hlen hs1
  obtain ⟨fuel, rfl⟩ : ∃ f, fuel = f + 1 := ⟨fuel - 1, by omega⟩
  rw [he, packetLoop, if_neg (by omega)]
  simp only [readByte_spelled hs2]
  rcases hn with ⟨h1, h2⟩ | ⟨h1, h2⟩
  · rw [byterun1Packet, if_pos h1]
    simp only
    rw [if_pos (by omega)]
  · rw [byterun1Packet, if_neg (by omega), if_neg (by omega)]
    simp only
    rw [if_pos (by omega)]

/-! ### Palm pairs -/

/-- Pairs before the one that fills the row (R204). -/
theorem packetLoop_pairs {s : State} {rb row : Nat} (pairs : List (Byte × Byte)) :
    ∀ (fuel : Nat) (out : List Byte) (b : Nat), (∀ p ∈ pairs, p.1 ≠ 0) →
      out.length + (palmOutput pairs).length ≤ rb → spellsBytes s b (palmEncoding pairs) →
      packetLoop s palmPacket rb row (fuel + pairs.length) out b =
        packetLoop s palmPacket rb row fuel (out ++ palmOutput pairs) (b + 16 * pairs.length) := by
  induction pairs with
  | nil => intro fuel out b _ _ _; simp [palmOutput]
  | cons p pairs ih =>
    intro fuel out b hz h hs
    simp only [palmOutput, palmEncoding, List.flatMap_cons, List.length_append,
      List.length_replicate] at h hs
    have hp : p.1.toNat ≠ 0 := fun h0 => hz p List.mem_cons_self (BitVec.eq_of_toNat_eq h0)
    obtain ⟨hs1, hs2⟩ := spellsBytes_append hs
    have hs3 := (spellsBytes_cons.mp hs1).2.2
    rw [List.length_cons, ← Nat.add_assoc, packetLoop, if_neg (by omega)]
    simp only [readByte_spelled hs1, palmPacket, if_neg hp]
    rw [if_neg (by omega), readByte_spelled hs3]
    simp only
    rw [ih fuel _ _ (fun q hq => hz q (List.mem_cons_of_mem _ hq))
      (by simp only [List.length_append, List.length_replicate, palmOutput]; omega)
      (by simpa [Nat.add_assoc, palmEncoding] using hs2)]
    simp only [palmOutput, List.flatMap_cons, List.append_assoc]
    rw [show b + 8 + 8 + 16 * pairs.length = b + 16 * (pairs.length + 1) by omega]

@[simp] theorem palmEncoding_length (pairs : List (Byte × Byte)) :
    (palmEncoding pairs).length = 2 * pairs.length := by
  induction pairs with
  | nil => rfl
  | cons p pairs ih =>
    simp only [palmEncoding, List.flatMap_cons, List.length_append, List.length_cons,
      List.length_nil] at ih ⊢
    omega

/-- A row behind pairs that fit it. -/
theorem palmRow_pairs {s : State} {row b : Nat} {pairs : List (Byte × Byte)}
    (hz : ∀ p ∈ pairs, p.1 ≠ 0) (hlen : (palmOutput pairs).length ≤ s.regs.dstLen.toNat)
    (hs : spellsBytes s b (palmEncoding pairs)) :
    ∃ fuel, s.engine.stop ≤ b + 16 * pairs.length + fuel ∧
      runLengthRow s palmPacket row b = packetLoop s palmPacket s.regs.dstLen.toNat row fuel
        (palmOutput pairs) (b + 16 * pairs.length) := by
  have hbound := hs.1
  rw [palmEncoding_length] at hbound
  refine ⟨s.engine.stop - b - pairs.length, by omega, ?_⟩
  rw [runLengthRow,
    show s.engine.stop - b = s.engine.stop - b - pairs.length + pairs.length by omega,
    packetLoop_pairs pairs _ _ _ hz (by simpa using hlen) hs, List.nil_append,
    Nat.add_sub_cancel]

/-- A row whose pairs fill it exactly (R204). -/
theorem palmRow_spelled {s : State} {row b : Nat} {pairs : List (Byte × Byte)}
    (hz : ∀ p ∈ pairs, p.1 ≠ 0) (hlen : (palmOutput pairs).length = s.regs.dstLen.toNat)
    (hs : spellsBytes s b (palmEncoding pairs)) :
    runLengthRow s palmPacket row b = .ok (palmOutput pairs, b + 16 * pairs.length) := by
  obtain ⟨fuel, -, he⟩ := palmRow_pairs (row := row) hz (by omega) hs
  rw [he, packetLoop_full (by omega)]

/-- A Palm count that is 0 or does not fit (R204). -/
theorem palmRow_refused {s : State} {row b : Nat} {pairs : List (Byte × Byte)} {n : Byte}
    (hz : ∀ p ∈ pairs, p.1 ≠ 0) (hlen : (palmOutput pairs).length < s.regs.dstLen.toNat)
    (hn : n = 0 ∨ s.regs.dstLen.toNat < (palmOutput pairs).length + n.toNat)
    (hs : spellsBytes s b (palmEncoding pairs ++ [n])) :
    runLengthRow s palmPacket row b =
      .error (packetError (b + 16 * pairs.length) row (palmOutput pairs).length n
        (b + 16 * pairs.length + 8)) := by
  obtain ⟨hs1, hs2⟩ := spellsBytes_append hs
  rw [palmEncoding_length, ← Nat.mul_assoc] at hs2
  have h8 := (spellsBytes_cons.mp hs2).1
  obtain ⟨fuel, hf, he⟩ := palmRow_pairs (row := row) hz (by omega) hs1
  obtain ⟨fuel, rfl⟩ : ∃ f, fuel = f + 1 := ⟨fuel - 1, by omega⟩
  rw [he, packetLoop, if_neg (by omega)]
  simp only [readByte_spelled hs2, palmPacket]
  by_cases h0 : n.toNat = 0
  · rw [if_pos h0]
  · rw [if_neg h0]
    rcases hn with rfl | hn
    · exact absurd rfl h0
    · simp only
      rw [if_pos (by omega)]

end Sys2Proof.Machine
end

