-- ==== Sys2Proof/Laws/Units.lean ====
section
/-! SUPPORT. What the unit of every command can change: the one place where the units are unfolded for
their frames. -/

namespace Sys2Proof.Machine

/-! ### Row units -/

theorem rowUnit_done {rb u : Nat} {row : Except ErrInfo (List Byte × Nat)} {s s1 : State}
    (h : rowUnit rb u row s = .done s1) :
    ∃ bytes cursor, row = .ok (bytes, cursor) ∧ s1 = storeRow u rb bytes cursor s := by
  cases row with
  | ok p => exact ⟨p.1, p.2, rfl, by simpa [rowUnit, eq_comm] using h⟩
  | error e => simp [rowUnit] at h

theorem rowUnit_raised {rb u : Nat} {row : Except ErrInfo (List Byte × Nat)} {s s1 : State}
    {e : ErrInfo} (h : rowUnit rb u row s = .raised s1 e) :
    row = .error e ∧ s1 = spoilRow u rb s := by
  cases row with
  | ok p => simp [rowUnit] at h
  | error e' =>
    simp only [rowUnit, UnitOutcome.raised.injEq] at h
    exact ⟨by rw [h.2], h.1.symm⟩

/-- The row of a row command's unit. -/
def unitRow : Instr → Nat → State → Option (Nat × Except ErrInfo (List Byte × Nat))
  | .mhRows byteOut align, u, s => some (mhRowBytes byteOut s,
      match decodeRow align s u s.engine.cursor with
      | .ok (pix, b) => .ok (mhRowBytesOf byteOut s pix, b)
      | .error e => .error e)
  | .packbits, u, s => some (s.regs.dstLen.toNat, runLengthRow s packbitsPacket u s.engine.cursor)
  | .byterun1, u, s => some (s.regs.dstLen.toNat, runLengthRow s byterun1Packet u s.engine.cursor)
  | .palmRle, u, s => some (s.regs.dstLen.toNat, runLengthRow s palmPacket u s.engine.cursor)
  | .pngUnfilter first, u, s => some (s.regs.dstLen.toNat, typedRow first s u s.engine.cursor)
  | .pngNone first, u, s => some (s.regs.dstLen.toNat, filterRow .none first s u s.engine.cursor)
  | .pngSub first, u, s => some (s.regs.dstLen.toNat, filterRow .sub first s u s.engine.cursor)
  | .pngUp first, u, s => some (s.regs.dstLen.toNat, filterRow .up first s u s.engine.cursor)
  | .pngAvg first, u, s => some (s.regs.dstLen.toNat, filterRow .average first s u s.engine.cursor)
  | .pngPaeth first, u, s => some (s.regs.dstLen.toNat, filterRow .paeth first s u s.engine.cursor)
  | _, _, _ => none

/-- The row commands are row units. -/
theorem unitOf_row {i : Instr} {u rb : Nat} {s : State} {row : Except ErrInfo (List Byte × Nat)}
    (h : unitRow i u s = some (rb, row)) : unitOf i u s = rowUnit rb u row s := by
  cases i <;> simp only [unitRow, Option.some.injEq, Prod.mk.injEq, reduceCtorEq] at h
  all_goals obtain ⟨rfl, rfl⟩ := h
  all_goals rfl

theorem unitRow_isSome (i : Instr) (u : Nat) (s : State) :
    (unitRow i u s).map Prod.fst = rowBytes s i := by
  cases i <;> rfl

/-- A row that is decoded has one row's bytes. -/
theorem unitRow_length {i : Instr} {u rb cursor : Nat} {s : State} {bytes : List Byte}
    (h : unitRow i u s = some (rb, .ok (bytes, cursor))) : bytes.length = rb := by
  cases i <;> simp only [unitRow, Option.some.injEq, Prod.mk.injEq, reduceCtorEq] at h
  case mhRows byteOut align =>
    obtain ⟨rfl, h⟩ := h
    split at h
    · rename_i hd
      cases h
      exact mhRowBytesOf_length (decodeRow_length hd)
    · cases h
  all_goals obtain ⟨rfl, h⟩ := h
  case packbits => exact packetLoop_length h (Nat.zero_le _)
  case byterun1 => exact packetLoop_length h (Nat.zero_le _)
  case palmRle => exact packetLoop_length h (Nat.zero_le _)
  case pngUnfilter => exact typedRow_length h
  all_goals exact filterRow_length h

theorem unitRow_error {i : Instr} {u rb : Nat} {s : State} {e : ErrInfo}
    (h : unitRow i u s = some (rb, .error e)) : e.kind = .invalidStructure := by
  cases i <;> simp only [unitRow, Option.some.injEq, Prod.mk.injEq, reduceCtorEq] at h
  case mhRows byteOut align =>
    obtain ⟨rfl, h⟩ := h
    split at h
    · cases h
    · rename_i hd
      cases h
      exact rowLoop_error hd
  all_goals obtain ⟨rfl, h⟩ := h
  case packbits => exact packetLoop_error h
  case byterun1 => exact packetLoop_error h
  case palmRle => exact packetLoop_error h
  case pngUnfilter => exact typedRow_error h
  all_goals exact filterRow_error h

/-- The shape of a row command: a unit per row, and its output window of such rows. -/
theorem unitRow_shape {i : Instr} {u rb : Nat} {s : State} {row : Except ErrInfo (List Byte × Nat)}
    (h : unitRow i u s = some (rb, row)) :
    (shapeOf i s).output = some (rb, (shapeOf i s).units) ∧
      (shapeOf i s).units = s.regs.rows.toNat ∧ (shapeOf i s).total = s.regs.rows.toNat ∧
      (shapeOf i s).emptyUnit = false := by
  cases i <;> simp only [unitRow, Option.some.injEq, Prod.mk.injEq, reduceCtorEq] at h
  all_goals obtain ⟨rfl, -⟩ := h
  all_goals exact ⟨rfl, rfl, rfl, rfl⟩

/-! ### Every unit -/

/-- The fields a completed unit can change. -/
theorem unit_done {i : Instr} {u : Nat} {s s1 : State} (h : unitOf i u s = .done s1) :
    s1 = { s with
      mem := s1.mem
      pal := s1.pal
      palCfg := s1.palCfg
      results := { s1.results with
        progDone := s.results.progDone, progTotal := s.results.progTotal }
      engine := { s.engine with cursor := s1.engine.cursor } } := by
  cases hr : unitRow i u s with
  | some p =>
    obtain ⟨rb, row⟩ := p
    rw [unitOf_row hr] at h
    obtain ⟨bytes, cursor, -, rfl⟩ := rowUnit_done h
    rfl
  | none =>
    cases i <;> simp only [unitRow, reduceCtorEq] at hr
    case nop => cases h; rfl
    case palAttach => cases h; rfl
    case palReset => cases h; rfl
    case mhRun =>
      simp only [unitOf, mhRunUnit] at h
      split at h
      · cases h
      · cases h; rfl
    case mhCode =>
      simp only [unitOf, mhCodeUnit] at h
      split at h
      · cases h
      · cases h; rfl
    case lzwDecode =>
      simp only [unitOf, lzwUnit] at h
      split at h
      · cases h; rfl
      · cases h
    case adam7Geom =>
      simp only [unitOf, geomUnit] at h
      split at h <;> cases h <;> rfl
    case adam7Scatter =>
      simp only [unitOf, scatterUnit] at h
      split at h
      · cases h; rfl
      · split at h
        · cases h; rfl
        · split at h
          · cases h
          · cases h; rfl
    case cmykToRgb =>
      simp only [unitOf, cmykUnit] at h
      split at h
      · cases h
      · cases h; rfl
    case palWrite =>
      simp only [unitOf, palWriteUnit] at h
      split at h <;> cases h
      rfl
    case palRead =>
      simp only [unitOf, palReadUnit] at h
      split at h <;> cases h
      rfl
    case palLookup =>
      simp only [unitOf, palLookupUnit] at h
      split at h
      · cases h
      · cases h; rfl
    case palLoad =>
      simp only [unitOf, palLoadUnit] at h
      split at h
      · cases h
      · cases h; rfl

/-- The fields a unit that raises can change: the bytes of its region and, for `LZW_DECODE`, the
count of its exact prefix. Its error is `INVALID_STRUCTURE`. -/
theorem unit_raised {i : Instr} {u : Nat} {s s1 : State} {e : ErrInfo}
    (h : unitOf i u s = .raised s1 e) :
    s1 = { s with
      mem := s1.mem
      results := { s.results with outCount := s1.results.outCount } } ∧
    e.kind = .invalidStructure ∧ (i ≠ .lzwDecode → s1.results = s.results) := by
  cases hr : unitRow i u s with
  | some p =>
    obtain ⟨rb, row⟩ := p
    rw [unitOf_row hr] at h
    obtain ⟨rfl, rfl⟩ := rowUnit_raised h
    exact ⟨rfl, unitRow_error hr, fun _ => rfl⟩
  | none =>
    cases i <;> simp only [unitRow, reduceCtorEq] at hr
    case nop => cases h
    case palAttach => cases h
    case palReset => cases h
    case mhRun =>
      simp only [unitOf, mhRunUnit] at h
      split at h
      · cases h; exact ⟨rfl, runLoop_error ‹_›, fun _ => rfl⟩
      · cases h
    case mhCode =>
      simp only [unitOf, mhCodeUnit] at h
      split at h
      · cases h; exact ⟨rfl, mhMatch_error ‹_›, fun _ => rfl⟩
      · cases h
    case lzwDecode =>
      simp only [unitOf, lzwUnit] at h
      split at h
      · cases h
      · cases h; exact ⟨rfl, ((lzwDecode_bounds s).2 _ _ ‹_›).2, fun h => absurd rfl h⟩
    case adam7Geom =>
      simp only [unitOf, geomUnit] at h
      split at h <;> cases h
    case adam7Scatter =>
      simp only [unitOf, scatterUnit] at h
      split at h
      · cases h
      · split at h
        · cases h
        · split at h
          · cases h; exact ⟨rfl, rfl, fun _ => rfl⟩
          · cases h
    case cmykToRgb =>
      simp only [unitOf, cmykUnit] at h
      split at h
      · cases h; exact ⟨rfl, rfl, fun _ => rfl⟩
      · cases h
    case palWrite =>
      simp only [unitOf, palWriteUnit] at h
      split at h <;> cases h
      exact ⟨rfl, rfl, fun _ => rfl⟩
    case palRead =>
      simp only [unitOf, palReadUnit] at h
      split at h <;> cases h
      exact ⟨rfl, rfl, fun _ => rfl⟩
    case palLookup =>
      simp only [unitOf, palLookupUnit] at h
      split at h
      · cases h; exact ⟨rfl, lookupLoop_error ‹_›, fun _ => rfl⟩
      · cases h
    case palLoad =>
      simp only [unitOf, palLoadUnit] at h
      split at h
      · cases h; exact ⟨rfl, rfl, fun _ => rfl⟩
      · cases h

/-- Which commands' units change the palette, its configuration and the results. -/
theorem unit_done_special {i : Instr} {u : Nat} {s s1 : State} (h : unitOf i u s = .done s1) :
    (i ≠ .palWrite → i ≠ .palLoad → i ≠ .palReset → s1.pal = s.pal) ∧
    (i ≠ .palAttach → i ≠ .palReset → s1.palCfg = s.palCfg) ∧
    ((∀ c, i ≠ .mhRun c) → (∀ c, i ≠ .mhCode c) → i ≠ .lzwDecode → i ≠ .adam7Geom →
      i ≠ .palRead → s1.results = { s.results with outCount := s1.results.outCount }) := by
  cases hr : unitRow i u s with
  | some p =>
    obtain ⟨rb, row⟩ := p
    rw [unitOf_row hr] at h
    obtain ⟨bytes, cursor, -, rfl⟩ := rowUnit_done h
    exact ⟨fun _ _ _ => rfl, fun _ _ => rfl, fun _ _ _ _ _ => rfl⟩
  | none =>
    cases i <;> simp only [unitRow, reduceCtorEq] at hr
    case nop => cases h; exact ⟨fun _ _ _ => rfl, fun _ _ => rfl, fun _ _ _ _ _ => rfl⟩
    case palAttach => cases h; exact ⟨fun _ _ _ => rfl, fun h => absurd rfl h, fun _ _ _ _ _ => rfl⟩
    case palReset => cases h; exact ⟨fun _ _ h => absurd rfl h, fun _ h => absurd rfl h, fun _ _ _ _ _ => rfl⟩
    case mhRun c =>
      simp only [unitOf, mhRunUnit] at h
      split at h
      · cases h
      · cases h; exact ⟨fun _ _ _ => rfl, fun _ _ => rfl, fun h => absurd rfl (h c)⟩
    case mhCode c =>
      simp only [unitOf, mhCodeUnit] at h
      split at h
      · cases h
      · cases h; exact ⟨fun _ _ _ => rfl, fun _ _ => rfl, fun _ h => absurd rfl (h c)⟩
    case lzwDecode =>
      simp only [unitOf, lzwUnit] at h
      split at h
      · cases h; exact ⟨fun _ _ _ => rfl, fun _ _ => rfl, fun _ _ h => absurd rfl h⟩
      · cases h
    case adam7Geom =>
      simp only [unitOf, geomUnit] at h
      split at h <;> cases h <;>
        exact ⟨fun _ _ _ => rfl, fun _ _ => rfl, fun _ _ _ h => absurd rfl h⟩
    case adam7Scatter =>
      simp only [unitOf, scatterUnit] at h
      split at h
      · cases h; exact ⟨fun _ _ _ => rfl, fun _ _ => rfl, fun _ _ _ _ _ => rfl⟩
      · split at h
        · cases h; exact ⟨fun _ _ _ => rfl, fun _ _ => rfl, fun _ _ _ _ _ => rfl⟩
        · split at h
          · cases h
          · cases h; exact ⟨fun _ _ _ => rfl, fun _ _ => rfl, fun _ _ _ _ _ => rfl⟩
    case cmykToRgb =>
      simp only [unitOf, cmykUnit] at h
      split at h
      · cases h
      · cases h; exact ⟨fun _ _ _ => rfl, fun _ _ => rfl, fun _ _ _ _ _ => rfl⟩
    case palWrite =>
      simp only [unitOf, palWriteUnit] at h
      split at h <;> cases h
      exact ⟨fun h => absurd rfl h, fun _ _ => rfl, fun _ _ _ _ _ => rfl⟩
    case palRead =>
      simp only [unitOf, palReadUnit] at h
      split at h <;> cases h
      exact ⟨fun _ _ _ => rfl, fun _ _ => rfl, fun _ _ _ _ h => absurd rfl h⟩
    case palLookup =>
      simp only [unitOf, palLookupUnit] at h
      split at h
      · cases h
      · cases h; exact ⟨fun _ _ _ => rfl, fun _ _ => rfl, fun _ _ _ _ _ => rfl⟩
    case palLoad =>
      simp only [unitOf, palLoadUnit] at h
      split at h
      · cases h
      · cases h; exact ⟨fun _ h => absurd rfl h, fun _ _ => rfl, fun _ _ _ _ _ => rfl⟩

/-! ### BUF -/

/-- The state a unit leaves, whether it completes or raises. -/
def UnitOutcome.state : UnitOutcome → State
  | .done s => s
  | .raised s _ => s

/-- The BUF addresses unit `u` may write: its row, its one output, or its full-image row. -/
def unitRegion (i : Instr) (u : Nat) (s : State) (a : Nat) : Prop :=
  match i with
  | .lzwDecode =>
    s.regs.dstAddr.toNat ≤ a ∧ a < s.regs.dstAddr.toNat + s.regs.dstLen.toNat
  | .cmykToRgb _ | .palLookup =>
    s.regs.dstAddr.toNat ≤ a ∧ a < s.regs.dstAddr.toNat + 3 * s.regs.width.toNat
  | .adam7Scatter => ∃ g, adam7Pass (passOf s) = some g ∧
      inRow (pixelRowBytes s.regs.width.toNat (bitsOf s)) (fullRow g u) s a
  | i => ∃ rb, rowBytes s i = some rb ∧ inRow rb u s a

/-- What a command that has passed the validation knows of its parameters. -/
theorem params_legal {i : Instr} {s : State} (h : firstError (shapeOf i s) s = none) :
    (i = .lzwDecode → minsizeLegal (minsizeOf s) = true) ∧
    ((fixedFilter i ≠ none ∨ ∃ first, i = .pngUnfilter first) → bppLegal (bppOf s) = true) ∧
    ((i = .adam7Geom ∨ i = .adam7Scatter) →
      passLegal (passOf s) = true ∧ bitsLegal (bitsOf s) = true) := by
  have hp := (firstError_none h).2.1
  refine ⟨?_, ?_, ?_⟩
  · rintro rfl
    exact hp _ (List.mem_singleton.mpr rfl)
  · intro hi
    cases i <;> simp only [fixedFilter, ne_eq, not_true_eq_false, reduceCtorEq, exists_false,
      or_self, not_false_eq_true] at hi
    all_goals exact hp _ (List.mem_singleton.mpr rfl)
  · rintro (rfl | rfl)
    · exact ⟨hp _ List.mem_cons_self, hp _ (List.mem_cons_of_mem _ (List.mem_singleton.mpr rfl))⟩
    · exact ⟨hp _ List.mem_cons_self, hp _ (List.mem_cons_of_mem _ (List.mem_singleton.mpr rfl))⟩

/-- A unit writes no byte outside its region. -/
theorem unit_outside {i : Instr} {u : Nat} {s : State}
    (hv : firstError (shapeOf i s) s = none) {a : Nat} (ha : ¬unitRegion i u s a) :
    storeGet (unitOf i u s).state.mem a = storeGet s.mem a := by
  cases hr : unitRow i u s with
  | some p =>
    obtain ⟨rb, row⟩ := p
    have hrb : rowBytes s i = some rb := by rw [← unitRow_isSome i u s, hr]; rfl
    have hout : ¬inRow rb u s a := by
      intro hin
      apply ha
      cases i <;> simp only [rowBytes, reduceCtorEq] at hrb <;> exact ⟨rb, hrb, hin⟩
    simp only [inRow, not_and, Nat.not_lt] at hout
    rw [unitOf_row hr]
    rcases rowUnit_cases rb u row s with ⟨bytes, cursor, rfl, he⟩ | ⟨e, rfl, he⟩
    · rw [he]
      have hl := unitRow_length hr
      exact storeGet_writeBytes_outside _ _ _ _ (by omega)
    · rw [he]
      exact storeGet_freeRegion_outside _ _ _ (by omega)
  | none =>
    cases i <;> simp only [unitRow, reduceCtorEq] at hr
    case nop => rfl
    case palAttach => rfl
    case palReset => rfl
    case mhRun => simp only [unitOf, mhRunUnit]; split <;> rfl
    case mhCode => simp only [unitOf, mhCodeUnit]; split <;> rfl
    case adam7Geom => simp only [unitOf, geomUnit]; split <;> rfl
    case palWrite => simp only [unitOf, palWriteUnit]; split <;> rfl
    case palRead => simp only [unitOf, palReadUnit]; split <;> rfl
    case palLoad => simp only [unitOf, palLoadUnit]; split <;> rfl
    case lzwDecode =>
      simp only [unitRegion, not_and, Nat.not_lt] at ha
      simp only [unitOf, lzwUnit]
      split
      · rename_i r hd
        have := (lzwDecode_bounds s).1 r hd
        exact storeGet_writeBytes_outside _ _ _ _ (by omega)
      · rename_i r e hd
        have := ((lzwDecode_bounds s).2 r e hd).1
        refine (storeGet_freeRegion_outside _ _ _ (by omega)).trans ?_
        exact storeGet_writeBytes_outside _ _ _ _ (by omega)
    case cmykToRgb =>
      simp only [unitRegion, not_and, Nat.not_lt] at ha
      simp only [unitOf, cmykUnit]
      split
      · rfl
      · exact storeGet_writeBytes_outside _ _ _ _ (by rw [cmykRow_length]; omega)
    case palLookup =>
      simp only [unitRegion, not_and, Nat.not_lt] at ha
      simp only [unitOf, palLookupUnit]
      split
      · exact storeGet_freeRegion_outside _ _ _ (by omega)
      · rename_i hl
        exact storeGet_writeBytes_outside _ _ _ _ (by rw [lookupLoop_length hl]; omega)
    case adam7Scatter =>
      simp only [unitOf, scatterUnit]
      split
      · rfl
      · rename_i g hg
        split
        · rfl
        · split
          · rfl
          · rename_i hb
            have hout : ¬inRow (pixelRowBytes s.regs.width.toNat (bitsOf s)) (fullRow g u) s a :=
              fun hin => ha ⟨g, hg, hin⟩
            simp only [inRow, not_and, Nat.not_lt] at hout
            exact scatterRow_outside hg ((params_legal hv).2.2 (.inr rfl)).2 (readBytes_ok hb).1
              (by omega)

/-- The region of a unit lies in the output window of its command. -/
theorem unitRegion_inOutput {i : Instr} {u : Nat} {s : State} {a : Nat}
    (hd : u < (shapeOf i s).units) (hne : i = .adam7Scatter → passEmpty s = false)
    (h : unitRegion i u s a) : inOutput i s a := by
  have rows : ∀ rb n, (shapeOf i s).output = some (rb, n) → u < n → inRow rb u s a →
      inOutput i s a := by
    intro rb n ho hu hin
    refine ⟨rb, n, ho, ?_⟩
    obtain ⟨h1, h2⟩ := hin
    rw [rowAddr] at h1 h2
    have : u * s.regs.dstStride.toNat ≤ (n - 1) * s.regs.dstStride.toNat :=
      Nat.mul_le_mul_right _ (by omega)
    exact ⟨by omega, by omega⟩
  cases hr : unitRow i u s with
  | some p =>
    obtain ⟨rb, row⟩ := p
    have hrb : rowBytes s i = some rb := by rw [← unitRow_isSome i u s, hr]; rfl
    refine rows rb _ (unitRow_shape hr).1 hd ?_
    cases i <;> simp only [rowBytes, reduceCtorEq] at hrb
    all_goals
      obtain ⟨rb', h1, h2⟩ := h
      simp only [rowBytes] at h1
      rw [hrb] at h1
      cases h1
      exact h2
  | none =>
    cases i <;> simp only [unitRow, reduceCtorEq] at hr
    case lzwDecode => exact ⟨_, _, rfl, h.1, by have := h.2; omega⟩
    case cmykToRgb => exact ⟨_, _, rfl, h.1, by have := h.2; omega⟩
    case palLookup => exact ⟨_, _, rfl, h.1, by have := h.2; omega⟩
    case adam7Scatter =>
      obtain ⟨g, hg, hin⟩ := h
      have hri := (adam7Pass_pos hg).1
      have hu : u < rowsOf s := by
        simpa [shapeOf, adam7ScatterShape, hne rfl] using hd
      rw [rowsOf_eq hg, lt_passRows_iff hri] at hu
      refine ⟨_, _, rfl, ?_⟩
      obtain ⟨h1, h2⟩ := hin
      rw [rowAddr, fullRow] at h1 h2
      have : (g.sr + u * g.ri) * s.regs.dstStride.toNat ≤
          (s.regs.height.toNat - 1) * s.regs.dstStride.toNat :=
        Nat.mul_le_mul_right _ (by omega)
      exact ⟨by omega, by omega⟩
    all_goals
      obtain ⟨rb, h1, -⟩ := h
      simp only [rowBytes, reduceCtorEq] at h1

end Sys2Proof.Machine
end

