-- ==== Sys2Proof/Laws/Host.lean ====
section
/-! SUPPORT. What a host access can do: one lemma per kind of access, the writes of every register,
and what no host access changes. -/

namespace Sys2Proof.Machine

/-! ### Registers -/

/-- The bus address of a register is its offset in the block. -/
@[simp] theorem hostOffset_regBusAddr (s : State) (r : Reg) :
    hostOffset s (regBusAddr s.cfg r) = regOffset r := by
  have h : s.cfg.base + BitVec.ofNat 32 (regOffset r) - s.cfg.base =
      BitVec.ofNat 32 (regOffset r) := add_sub_cancel_left _ _
  rw [hostOffset, regBusAddr, h]
  cases r <;> rfl

/-- The register at a register's offset is that register. -/
@[simp] theorem regAt_regOffset (r : Reg) : regAt (regOffset r) = some r := by
  cases r <;> rfl

/-- There is no register from 0x074 on. -/
theorem regAt_reserved {off : Nat} (h : 0x074 ≤ off) : regAt off = none := by
  rw [regAt, List.find?_eq_none]
  intro r _
  have : regOffset r < 0x074 := by cases r <;> decide
  simp only [beq_iff_eq]
  omega

/-- A 32-bit access to a register is in the register region. -/
@[simp] theorem regAccessOk_regOffset (r : Reg) : regAccessOk .w32 (regOffset r) = true := by
  cases r <;> rfl

/-- A host write to a register. -/
theorem hostWriteReg_eq (r : Reg) (v : Word) (s : State) :
    hostWriteReg r v s = { writeReg r v s with response := some (.write false) } := by
  simp [hostWriteReg, hostAccess, hostWrite]

/-- A host read of a register. -/
theorem hostReadReg_eq (r : Reg) (s : State) :
    hostReadReg r s = { s with response := some (.read (readReg s r) false) } := by
  simp [hostReadReg, hostAccess, hostRead]

/-! ### The kinds of access -/

/-- A host access is a register access, a BUF access, or refused, and which follows from its width
and offset. -/
theorem access_cases (s : State) (w : AccessWidth) (off : Nat) :
    (regAccessOk w off = true ∧ off < 0x100 ∧ w = .w32 ∧ off % 4 = 0) ∨
    (regAccessOk w off = false ∧ bufAccessOk s w off = true ∧ bufBase ≤ off ∧
      off % widthBytes w = 0 ∧ off - bufBase + widthBytes w ≤ s.cfg.memSize) ∨
    (regAccessOk w off = false ∧ bufAccessOk s w off = false ∧
      ¬(off < 0x100 ∧ w = .w32 ∧ off % 4 = 0) ∧
      ¬(bufBase ≤ off ∧ off % widthBytes w = 0 ∧
        off - bufBase + widthBytes w ≤ s.cfg.memSize)) := by
  cases hr : regAccessOk w off with
  | true =>
    simp only [regAccessOk, Bool.and_eq_true, decide_eq_true_eq] at hr
    exact .inl ⟨rfl, hr.1.1, hr.1.2, hr.2⟩
  | false =>
    simp only [regAccessOk, Bool.and_eq_false_iff, decide_eq_false_iff_not] at hr
    cases hb : bufAccessOk s w off with
    | true =>
      simp only [bufAccessOk, Bool.and_eq_true, decide_eq_true_eq] at hb
      exact .inr (.inl ⟨rfl, rfl, hb.1.1, hb.1.2, hb.2⟩)
    | false =>
      simp only [bufAccessOk, Bool.and_eq_false_iff, decide_eq_false_iff_not] at hb
      exact .inr (.inr ⟨rfl, rfl, by tauto, by tauto⟩)

/-- Everything a host access can do: answer and change nothing, end the epoch of a read of BUF, write
a register, or write bytes of BUF. -/
theorem hostAccess_cases (a : Access) (s : State) : ∃ answer,
    (hostAccess a s = { s with response := some answer }) ∨
    (hostAccess a s = { s with response := some answer, epoch := s.epoch + 1 }) ∨
    (∃ r v, a.kind = .write v ∧ hostOffset s a.addr = regOffset r ∧
      hostAccess a s = { writeReg r v s with response := some answer }) ∨
    (∃ b bytes, b + bytes.length ≤ s.cfg.memSize ∧
      hostAccess a s = { hostWriteBuf b bytes s with response := some answer }) := by
  obtain ⟨w, addr, kind⟩ := a
  cases kind with
  | read =>
    rcases access_cases s w (hostOffset s addr) with ⟨h, -⟩ | ⟨h, h', -⟩ | ⟨h, h', -⟩
    · exact ⟨_, .inl (by simp only [hostAccess, hostRead, h, if_true]; rfl)⟩
    · exact ⟨_, .inr (.inl (by simp [hostAccess, hostRead, h, h']; rfl))⟩
    · exact ⟨_, .inl (by simp [hostAccess, hostRead, h, h']; rfl)⟩
  | write v =>
    rcases access_cases s w (hostOffset s addr) with ⟨h, -⟩ | ⟨h, h', -, -, hl⟩ | ⟨h, h', -⟩
    · cases hr : regAt (hostOffset s addr) with
      | none => exact ⟨_, .inl (by simp [hostAccess, hostWrite, h, hr]; rfl)⟩
      | some r =>
        have ho : regOffset r = hostOffset s addr := by
          have := List.find?_some hr
          simpa using this
        exact ⟨_, .inr (.inr (.inl ⟨r, v, rfl, ho.symm, by
          simp [hostAccess, hostWrite, h, hr]; rfl⟩))⟩
    · exact ⟨.write false, .inr (.inr (.inr ⟨hostOffset s addr - bufBase,
        bytesOfWord v (widthBytes w), by simpa [bytesOfWord] using hl, by
        simp [hostAccess, hostWrite, h, h']⟩))⟩
    · exact ⟨_, .inl (by simp [hostAccess, hostWrite, h, h']; rfl)⟩

/-! ### `CTRL` -/

/-- `BUSY` is 1 exactly outside `IDLE`. -/
theorem busy_iff (s : State) : s.busy = true ↔ s.engine.phase ≠ .idle := by
  simp [State.busy]

theorem not_busy_iff (s : State) : s.busy = false ↔ s.engine.phase = .idle := by
  simp [State.busy]

/-- Everything a write to `CTRL` can do: a soft reset; a start; an abort request; `IRQ_EN` alone. -/
theorem writeCtrl_cases (v : Word) (s : State) :
    (v.getLsbD 3 = true ∧ writeCtrl v s = softReset s) ∨
    (v.getLsbD 3 = false ∧ v.getLsbD 0 = true ∧ s.busy = false ∧
      writeCtrl v s = startCommand { s with irqEn := v.getLsbD 2 }) ∨
    (v.getLsbD 3 = false ∧ s.busy = true ∧
      writeCtrl v s = { s with
        irqEn := v.getLsbD 2
        engine := { s.engine with abortReq := s.engine.abortReq || v.getLsbD 1 } }) ∨
    (v.getLsbD 3 = false ∧ v.getLsbD 0 = false ∧ s.busy = false ∧
      writeCtrl v s = { s with irqEn := v.getLsbD 2 }) := by
  rw [writeCtrl]
  generalize v.getLsbD 2 = irq
  generalize v.getLsbD 1 = abort
  generalize v.getLsbD 0 = start
  generalize v.getLsbD 3 = soft
  cases soft with
  | true => exact .inl ⟨rfl, rfl⟩
  | false =>
    cases hb : s.busy with
    | true =>
      refine .inr (.inr (.inl ⟨rfl, rfl, ?_⟩))
      have hb1 : State.busy { s with irqEn := irq } = true := hb
      have hb2 : State.busy { s with
          irqEn := irq, engine := { s.engine with abortReq := true } } = true := hb
      cases abort <;> cases start <;> simp [hb1, hb2]
    | false =>
      have hb1 : State.busy { s with irqEn := irq } = false := hb
      cases start with
      | true => exact .inr (.inl ⟨rfl, rfl, rfl, by simp [hb1]⟩)
      | false => exact .inr (.inr (.inr ⟨rfl, rfl, rfl, by simp [hb1]⟩))

end Sys2Proof.Machine
end

