-- ==== Sys2Proof/Laws/Validation.lean ====
section
/-! SUPPORT. The tables of the shared cycle in the words that statements use: the "must be >= 1"
registers, the parameter checks and the window checks of a command. -/

namespace Sys2Proof.Machine

/-- The "must be >= 1" registers of a command, each with its value. -/
theorem shape_required (i : Instr) (s : State) :
    (shapeOf i s).required = (mustBeOne i).map fun r => (r, readReg s r) := by
  cases i <;> rfl

theorem minsizeLegal_iff (m : Nat) : minsizeLegal m = true ↔ 2 ≤ m ∧ m ≤ 8 := by
  simp [minsizeLegal]

theorem bppLegal_iff (n : Nat) : bppLegal n = true ↔ 1 ≤ n ∧ n ≤ 8 := by
  simp [bppLegal]

theorem passLegal_iff (p : Nat) : passLegal p = true ↔ 1 ≤ p ∧ p ≤ 7 := by
  simp [passLegal]

/-- The parameter checks of a command all pass exactly when its parameters are legal. -/
theorem shape_params (i : Instr) (s : State) :
    (∀ p ∈ (shapeOf i s).params, p.2 = true) ↔ paramsLegal i s := by
  have hpass : passLegal (passOf s) = true ↔ s.regs.param.extractLsb' 0 3 ≠ 0 := by
    have hlt := (s.regs.param.extractLsb' 0 3).isLt
    have hz : s.regs.param.extractLsb' 0 3 = 0 ↔ (s.regs.param.extractLsb' 0 3).toNat = 0 :=
      ⟨fun h => by rw [h]; rfl, fun h => BitVec.eq_of_toNat_eq h⟩
    rw [passLegal_iff, passOf, ne_eq, hz]
    omega
  have hbits : bitsLegal (bitsOf s) = true ↔
      (s.regs.param.extractLsb' 8 8).toNat ∈ [1, 2, 4, 8, 16, 24, 32, 48, 64] := by
    rw [bitsLegal, List.contains_iff_mem, bitsOf]
  have hmin : minsizeLegal (minsizeOf s) = true ↔
      2 ≤ (s.regs.param.extractLsb' 0 4).toNat ∧ (s.regs.param.extractLsb' 0 4).toNat ≤ 8 :=
    minsizeLegal_iff _
  have hbpp : bppLegal (bppOf s) = true ↔
      1 ≤ (s.regs.param.extractLsb' 0 4).toNat ∧ (s.regs.param.extractLsb' 0 4).toNat ≤ 8 :=
    bppLegal_iff _
  cases i <;> simp only [shapeOf, mhRowsShape, mhRunShape, lzwShape, runLengthShape, pngShape,
    adam7GeomShape, adam7ScatterShape, pixelShape, palLoadShape, paramsLegal, List.mem_cons,
    List.not_mem_nil, or_false, forall_eq, false_implies, implies_true, forall_eq_or_imp, hmin,
    hbpp, hpass, hbits]

/-- Two windows overlap as R133 says. -/
theorem windowsOverlap_iff (v w : Window) :
    windowsOverlap v w = true ↔ v.lo < v.hi ∧ w.lo < w.hi ∧ v.lo < w.hi ∧ w.lo < v.hi := by
  simp only [windowsOverlap, windowEmpty, Bool.and_eq_true, Bool.not_eq_true', decide_eq_true_eq,
    decide_eq_false_iff_not]
  omega

/-- A window check is in the list and fails exactly when R133 says that it fails. -/
theorem windowChecks_fails (sh : Shape) (s : State) (code : Nat) :
    (code, true) ∈ windowChecks sh s ↔ windowFails sh s code := by
  match code with
  | 0 | 1 | 2 | 3 | 4 | 5 | 6 | n + 7 =>
    cases ho : sh.output with
    | none =>
      cases hi : sh.input <;> cases hp : sh.prior <;>
        simp [windowChecks, windowFails, inputWindow, priorWindow, windowsOverlap_iff, ho, hi, hp]
    | some p =>
      obtain ⟨rb, n⟩ := p
      cases hi : sh.input <;> cases hp : sh.prior <;>
        simp [windowChecks, windowFails, inputWindow, outputWindow, priorWindow,
          windowsOverlap_iff, ho, hi, hp]

/-- The codes of the window checks rise, so the first in the list is the smallest. -/
theorem windowChecks_sorted (sh : Shape) (s : State) :
    (windowChecks sh s).Pairwise fun x y => x.1 < y.1 := by
  rw [windowChecks]
  split <;> simp

/-- An error of the validation completes the command with its code and value. -/
theorem raise_validation {s : State} {kind : ErrorKind} {v : Nat}
    (hq : s.hazard = []) :
    raise (validationError s kind v) s = failedValidation (errorCode kind) (regOf v) s := by
  obtain ⟨⟩ := s
  subst hq
  cases kind <;> rfl

/-- No parameter is missing. -/
theorem missing_none {i : Instr} {s : State} (h : requiredPresent i s) :
    missingParameter (shapeOf i s) s = none := by
  rw [missingParameter, shape_required, Option.map_eq_none_iff, List.find?_eq_none]
  intro p hp
  obtain ⟨q, hq, rfl⟩ := List.mem_map.mp hp
  simpa using h q hq

/-- No parameter is out of its range. -/
theorem unsupported_none {i : Instr} {s : State} (h : paramsLegal i s) :
    unsupportedParameter (shapeOf i s) s = none := by
  rw [unsupportedParameter, Option.map_eq_none_iff, List.find?_eq_none]
  intro p hp
  simpa using (shape_params i s).2 h p hp

/-- The first window check that fails. -/
theorem address_some {sh : Shape} {s : State} {code : Nat} (h : windowFails sh s code) 
    (hf : ∀ c, c < code → ¬windowFails sh s c) :
    addressFault sh s = some (validationError s .addressFault code) := by
  have hm := (windowChecks_fails sh s code).2 h
  have hs := windowChecks_sorted sh s
  obtain ⟨l1, l2, hl⟩ := List.append_of_mem hm
  have : (windowChecks sh s).find? (fun p => p.2) = some (code, true) := by
    rw [hl, List.find?_append]
    have h1 : l1.find? (fun p => p.2) = none := by
      rw [List.find?_eq_none]
      intro p hp hp2
      obtain ⟨c, b⟩ := p
      simp only at hp2
      subst hp2
      rw [hl, List.pairwise_append] at hs
      have hlt := hs.2.2 _ hp _ (List.mem_cons_self)
      exact hf c hlt ((windowChecks_fails sh s c).1 (by rw [hl]; exact List.mem_append_left _ hp))
    rw [h1]; simp
  rw [addressFault, this]; rfl

/-- No window check fails. -/
theorem address_none {sh : Shape} {s : State} (h : ∀ c, ¬windowFails sh s c) :
    addressFault sh s = none := by
  rw [addressFault, Option.map_eq_none_iff, List.find?_eq_none]
  intro p hp hp2
  obtain ⟨c, b⟩ := p
  simp only at hp2
  subst hp2
  exact h c ((windowChecks_fails sh s c).1 hp)

/-- The window checks have the codes 1 to 6. -/
theorem windowFails_le {sh : Shape} {s : State} {c : Nat} (h : windowFails sh s c) :
    1 ≤ c ∧ c ≤ 6 := by
  match c with
  | 0 => exact absurd h (by simp [windowFails])
  | 1 | 2 | 3 | 4 | 5 | 6 => omega
  | n + 7 => exact absurd h (by simp [windowFails])

/-- `ReadsInput(op)` of the shape. -/
theorem shape_input (i : Instr) (s : State) : (shapeOf i s).input = readsInput i := by
  cases i <;> rfl

/-- The byte engines of the shape. -/
theorem shape_byte (i : Instr) (s : State) : 
    (shapeOf i s).byteEngine = alignsCursor i := by
  cases i <;> rfl

/-- The rows of a pass fit a register. -/
theorem rowsOf_lt (s : State) : rowsOf s < 2 ^ 32 := by
  rw [rowsOf]
  split
  · rename_i g hg
    exact lt_of_le_of_lt (passRows_le g _ (adam7Pass_pos hg).1) (s.regs.height.isLt)
  · decide

/-- The total of a command fits a register. -/
theorem shape_total_lt (i : Instr) (s : State) : (shapeOf i s).total < 2 ^ 32 := by
  cases i <;> first | exact s.regs.rows.isLt | exact rowsOf_lt s | (show 1 < 2 ^ 32; decide)

end Sys2Proof.Machine
end

