-- ==== Sys2Proof/Laws/Run.lean ====
section
/-! SUPPORT. How a command goes on from one engine step to the next: what its shape depends on, and
what is due after each step. -/

namespace Sys2Proof.Machine

/-- The shape of a command depends on the operand registers and `PAL_SIZE` alone. -/
theorem shapeOf_congr {i : Instr} {s t : State} (hr : t.regs = s.regs)
    (hp : t.palCfg.size = s.palCfg.size) : shapeOf i t = shapeOf i s := by
  obtain ⟨_, _, _, _, ⟨_, _, _⟩⟩ := s
  obtain ⟨_, _, _, _, ⟨_, _, _⟩⟩ := t
  cases hr
  cases hp
  cases i <;> rfl

/-- A command that has passed the validation has a unit. -/
theorem units_pos {i : Instr} {s : State} (h : firstError (shapeOf i s) s = none) :
    0 < (shapeOf i s).units := by
  have hrows : ∀ p ∈ (shapeOf i s).required, p.2 ≠ 0 := (firstError_none h).1
  have key : (Reg.rows, s.regs.rows) ∈ (shapeOf i s).required → 0 < s.regs.rows.toNat := by
    intro hm
    rcases Nat.eq_zero_or_pos s.regs.rows.toNat with h0 | h0
    · exact absurd (BitVec.eq_of_toNat_eq h0) (hrows _ hm)
    · exact h0
  cases i
  case adam7Scatter =>
    simp only [shapeOf, adam7ScatterShape]
    split
    · omega
    · rename_i he
      simp only [passEmpty, Bool.or_eq_true, beq_iff_eq, not_or] at he
      omega
  all_goals first
    | exact key (by simp [shapeOf, mhRowsShape, runLengthShape, pngShape])
    | exact Nat.one_pos

/-- A unit is due in a state with the registers, the palette configuration and the build of one that
has passed the validation. -/
theorem atUnit_of {i : Instr} {u : Nat} {s t : State} (hp : t.engine.phase = .run u)
    (hq : t.hazard = []) (hr : t.regs = s.regs) (hc : t.cfg = s.cfg) (hl : t.palCfg = s.palCfg)
    (hf : firstError (shapeOf i s) s = none) (hu : u < (shapeOf i s).units) :
    AtUnit i u t ∧ shapeOf i t = shapeOf i s := by
  have hsh : shapeOf i t = shapeOf i s := shapeOf_congr hr (by rw [hl])
  have hv : firstError (shapeOf i s) t = none := by
    rw [firstError_none_congr hr hc (by rw [hl])]
    exact hf
  exact ⟨⟨hp, hq, by rw [hsh]; exact hv, by rw [hsh]; exact hu⟩, hsh⟩

/-- After a validation step the command has ended, or its first unit is due. -/
theorem validate_next {i : Instr} {s : State} (h : AtValidation s) :
    (validateStep (shapeOf i s) s).engine.phase = .idle ∨
      (AtUnit i 0 (validateStep (shapeOf i s) s) ∧
        shapeOf i (validateStep (shapeOf i s) s) = shapeOf i s) := by
  rcases validateStep_cases (shapeOf i s) s with ⟨e, -, hs⟩ | ⟨-, -, hs⟩ | ⟨hf, -, hs⟩
  · exact .inl (by rw [hs]; rfl)
  · exact .inl (by rw [hs]; rfl)
  · refine .inr (atUnit_of (by rw [hs]) ?_ ?_ ?_ ?_ hf (units_pos hf)) <;> rw [hs, prepare_eq]
    exact h.quiet

/-- After a unit step the command has ended, or its next unit is due. -/
theorem unit_next {i : Instr} {u : Nat} {s : State} (h : AtUnit i u s) :
    (unitStep (shapeOf i s) (unitOf i) u s).engine.phase = .idle ∨
      (AtUnit i (u + 1) (unitStep (shapeOf i s) (unitOf i) u s) ∧
        shapeOf i (unitStep (shapeOf i s) (unitOf i) u s) = shapeOf i s) := by
  cases ho : unitOf i u s with
  | raised s1 e => exact .inl (by rw [unitStep_raised ho]; rfl)
  | done s1 =>
    rw [unitStep_done ho]
    have h1 := unit_done ho
    have h2 := (unit_done_special ho).2.1
    rcases afterUnit_cases (shapeOf i s) u
        { s1 with epoch := s1.epoch + 1, results := bumpProgress (shapeOf i s) s1.results } with
      ⟨-, hs⟩ | ⟨-, -, hs⟩ | ⟨hn, -, hs⟩
    · exact .inl (by rw [hs]; rfl)
    · exact .inl (by rw [hs]; rfl)
    · have hd := h.due
      have hpal : s1.palCfg = s.palCfg := by
        refine h2 ?_ ?_ <;> rintro rfl <;> exact hn (by simp [shapeOf] at hd ⊢; omega)
      rw [hs]
      exact .inr (atUnit_of rfl (by rw [h1]; exact h.quiet) (by rw [h1]) (by rw [h1]) hpal
        h.valid (by omega))

/-- No step of a command touches the latched word and what the world does. -/
theorem exec_keeps {i : Instr} {s t : State} (h : exec i s = .next t) :
    t.engine.lcmd = s.engine.lcmd ∧ t.pending = s.pending ∧ t.cfg = s.cfg ∧ t.irqEn = s.irqEn ∧
      t.response = s.response ∧ t.generation = s.generation := by
  rcases exec_next_cases h with ⟨-, rfl⟩ | ⟨-, rfl⟩ | ⟨u, -, rfl⟩ | ⟨-, hp, rfl⟩
  · exact ⟨rfl, rfl, rfl, rfl, rfl, rfl⟩
  · rcases validateStep_cases (shapeOf i s) s with ⟨e, -, hs⟩ | ⟨-, -, hs⟩ | ⟨-, -, hs⟩ <;>
      rw [hs] <;> first | exact ⟨rfl, rfl, rfl, rfl, rfl, rfl⟩ | skip
    all_goals rw [prepare_eq]; exact ⟨rfl, rfl, rfl, rfl, rfl, rfl⟩
  · cases ho : unitOf i u s with
    | raised s1 e =>
      rw [unitStep_raised ho, (unit_raised ho).1]
      exact ⟨rfl, rfl, rfl, rfl, rfl, rfl⟩
    | done s1 =>
      rw [unitStep_done ho, afterUnit_eq, unit_done ho]
      exact ⟨rfl, rfl, rfl, rfl, rfl, rfl⟩
  · rcases hazardStep_cases (shapeOf i s) s hp with ⟨u, -, -, hs⟩ | ⟨-, -, hs⟩ | ⟨b, -, hs⟩ <;>
      rw [hs]
    · exact ⟨rfl, rfl, rfl, rfl, rfl, rfl⟩
    · rw [prepare_eq]; exact ⟨rfl, rfl, rfl, rfl, rfl, rfl⟩
    · exact ⟨rfl, rfl, rfl, rfl, rfl, rfl⟩

/-- One step, then the others. -/
theorem run_succ {s t : State} (h : step s = .next t) (k : Nat) :
    Host.Core.run core (k + 1) s = Host.Core.run core k t := by
  have h' : core.step s = .next t := h
  simp only [Host.Core.run, h']

/-- A validation step changes the results' total, the flags, the errors and the engine alone. -/
theorem validateStep_keeps (sh : Shape) (s : State) :
    (validateStep sh s).mem = s.mem ∧ (validateStep sh s).pal = s.pal ∧
      (validateStep sh s).palCfg = s.palCfg ∧ (validateStep sh s).regs = s.regs ∧
      (validateStep sh s).epoch = s.epoch ∧
      (validateStep sh s).results =
        { s.results with progTotal := (validateStep sh s).results.progTotal } := by
  rcases validateStep_cases sh s with ⟨e, -, hs⟩ | ⟨-, -, hs⟩ | ⟨-, -, hs⟩ <;> rw [hs]
  · exact ⟨rfl, rfl, rfl, rfl, rfl, rfl⟩
  · rw [prepare_eq]; exact ⟨rfl, rfl, rfl, rfl, rfl, rfl⟩
  · rw [prepare_eq]; exact ⟨rfl, rfl, rfl, rfl, rfl, rfl⟩

/-- What a hazard step leaves of BUF, the palette and its configuration. -/
theorem hazardStep_keeps (sh : Shape) {s : State} (hp : s.engine.phase ≠ .idle) :
    (hazardStep sh s).mem = freeAt s.epoch s.mem (hazardAddrs sh s) ∧
      (hazardStep sh s).pal = (if s.palCfg.locked then s.pal
        else palFill s.pal 0 ((List.range sh.loads).map fun k => Config.hazardRgb s.epoch k)) ∧
      (hazardStep sh s).palCfg = s.palCfg ∧
      (hazardStep sh s).regs = { s.regs with
        srcAddr := (hazardStep sh s).regs.srcAddr
        srcLen := (hazardStep sh s).regs.srcLen
        inBit := (hazardStep sh s).regs.inBit } := by
  rcases hazardStep_cases sh s hp with ⟨u, -, -, hs⟩ | ⟨-, -, hs⟩ | ⟨b, -, hs⟩ <;> rw [hs]
  · exact ⟨rfl, rfl, rfl, rfl⟩
  · rw [prepare_eq]; exact ⟨rfl, rfl, rfl, rfl⟩
  · exact ⟨rfl, rfl, rfl, rfl⟩

/-- A unit step leaves BUF and the palette as its unit does. -/
theorem unitStep_stores (i : Instr) (u : Nat) (s : State) :
    (unitStep (shapeOf i s) (unitOf i) u s).mem = (unitOf i u s).state.mem ∧
      (unitStep (shapeOf i s) (unitOf i) u s).pal = (unitOf i u s).state.pal ∧
      (unitStep (shapeOf i s) (unitOf i) u s).palCfg = (unitOf i u s).state.palCfg := by
  cases ho : unitOf i u s with
  | raised s1 e => rw [unitStep_raised ho]; exact ⟨rfl, rfl, rfl⟩
  | done s1 => rw [unitStep_done ho, afterUnit_eq]; exact ⟨rfl, rfl, rfl⟩

end Sys2Proof.Machine
end

