-- ==== Sys2Proof/Laws/Sound.lean ====
section
/-! SUPPORT. Every engine step keeps BUF and the palette RAM in their canonical forms. -/

namespace Sys2Proof.Machine

/-- The row of a unit that is due lies inside BUF. -/
theorem row_inside {sh : Shape} {s : State} {u rb : Nat} (hv : firstError sh s = none)
    (ho : sh.output = some (rb, sh.units)) (hd : u < sh.units) :
    rowAddr s u + rb ≤ s.cfg.memSize := by
  have h1 := output_inside hv ho
  have h2 : u * s.regs.dstStride.toNat ≤ (sh.units - 1) * s.regs.dstStride.toNat :=
    Nat.mul_le_mul_right _ (by omega)
  rw [rowAddr]
  omega

/-- A unit that is due keeps the canonical form of BUF. -/
theorem unit_memory_wf {i : Instr} {u : Nat} {s : State} (h : AtUnit i u s)
    (hw : Memory.wf s.cfg.memSize s.mem) :
    Memory.wf s.cfg.memSize (unitOf i u s).state.mem := by
  have hv := h.valid
  cases hr : unitRow i u s with
  | some p =>
    obtain ⟨rb, row⟩ := p
    have hin := row_inside hv (unitRow_shape hr).1 h.due
    rw [unitOf_row hr]
    rcases rowUnit_cases rb u row s with ⟨bytes, cursor, rfl, he⟩ | ⟨e, rfl, he⟩ <;> rw [he]
    · have hl := unitRow_length hr
      exact writeBytes_memory_wf hw _ _ (by omega)
    · exact freeRegion_memory_wf hw (by omega)
  | none =>
    cases i <;> simp only [unitRow, reduceCtorEq] at hr
    case nop => exact hw
    case palAttach => exact hw
    case palReset => exact hw
    case mhRun => simp only [unitOf, mhRunUnit]; split <;> exact hw
    case mhCode => simp only [unitOf, mhCodeUnit]; split <;> exact hw
    case adam7Geom => simp only [unitOf, geomUnit]; split <;> exact hw
    case palWrite => simp only [unitOf, palWriteUnit]; split <;> exact hw
    case palRead => simp only [unitOf, palReadUnit]; split <;> exact hw
    case palLoad => simp only [unitOf, palLoadUnit]; split <;> exact hw
    case lzwDecode =>
      have hin := output_inside hv (rb := s.regs.dstLen.toNat) (n := 1) rfl
      simp only [unitOf, lzwUnit]
      split
      · rename_i r hd
        have := (lzwDecode_bounds s).1 r hd
        exact writeBytes_memory_wf hw _ _ (by omega)
      · rename_i r e hd
        have := ((lzwDecode_bounds s).2 r e hd).1
        exact freeRegion_memory_wf (writeBytes_memory_wf hw _ _ (by omega)) (by omega)
    case cmykToRgb =>
      have hin := output_inside hv (rb := 3 * s.regs.width.toNat) (n := 1) rfl
      simp only [unitOf, cmykUnit]
      split
      · exact hw
      · exact writeBytes_memory_wf hw _ _ (by rw [cmykRow_length]; omega)
    case palLookup =>
      have hin := output_inside hv (rb := 3 * s.regs.width.toNat) (n := 1) rfl
      simp only [unitOf, palLookupUnit]
      split
      · exact freeRegion_memory_wf hw (by omega)
      · rename_i hl
        exact writeBytes_memory_wf hw _ _ (by rw [lookupLoop_length hl]; omega)
    case adam7Scatter =>
      simp only [unitOf, scatterUnit]
      split
      · exact hw
      · rename_i g hg
        split
        · exact hw
        · rename_i he
          split
          · exact hw
          · have hri := (adam7Pass_pos hg).1
            have hu := h.due
            have he' : passEmpty s = false := by simpa using he
            simp only [shapeOf, adam7ScatterShape, he', Bool.false_eq_true, if_false] at hu
            rw [rowsOf_eq hg, lt_passRows_iff hri] at hu
            have hin := output_inside hv (rb := pixelRowBytes s.regs.width.toNat (bitsOf s))
              (n := s.regs.height.toNat) rfl
            have : (g.sr + u * g.ri) * s.regs.dstStride.toNat ≤
                (s.regs.height.toNat - 1) * s.regs.dstStride.toNat :=
              Nat.mul_le_mul_right _ (by omega)
            exact scatterRow_memory_wf hg hw (by rw [rowAddr, fullRow]; omega)
              ((params_legal hv).2.2 (.inr rfl)).2

/-- A unit that is due keeps the canonical form of the palette and a legal `PAL_SIZE`. -/
theorem unit_palette_wf {i : Instr} {u : Nat} {s : State} (hs : palSizeOf s ≤ 256)
    (hw : PaletteRam.wf s.pal) :
    PaletteRam.wf (unitOf i u s).state.pal ∧
      (unitOf i u s).state.palCfg.size = s.palCfg.size := by
  cases hr : unitRow i u s with
  | some p =>
    obtain ⟨rb, row⟩ := p
    rw [unitOf_row hr]
    rcases rowUnit_cases rb u row s with ⟨bytes, cursor, rfl, he⟩ | ⟨e, rfl, he⟩ <;> rw [he] <;>
      exact ⟨hw, rfl⟩
  | none =>
    cases i <;> simp only [unitRow, reduceCtorEq] at hr
    case nop => exact ⟨hw, rfl⟩
    case palAttach => exact ⟨hw, rfl⟩
    case palReset =>
      refine ⟨⟨?_, ?_⟩, rfl⟩
      · show storeSorted ((List.range 256).map fun k => ((k, ⟨0, 0, 0⟩) : Nat × Rgb))
        rw [storeSorted, List.pairwise_map]
        exact List.pairwise_lt_range
      · intro c hc
        obtain ⟨k, hk, rfl⟩ := List.mem_map.mp hc
        exact List.mem_range.mp hk
    case mhRun => simp only [unitOf, mhRunUnit]; split <;> exact ⟨hw, rfl⟩
    case mhCode => simp only [unitOf, mhCodeUnit]; split <;> exact ⟨hw, rfl⟩
    case adam7Geom => simp only [unitOf, geomUnit]; split <;> exact ⟨hw, rfl⟩
    case palWrite =>
      simp only [unitOf, palWriteUnit]
      split
      · exact ⟨hw, rfl⟩
      · exact ⟨storeSet_palette_wf hw (by omega) _, rfl⟩
    case palRead => simp only [unitOf, palReadUnit]; split <;> exact ⟨hw, rfl⟩
    case palLoad =>
      simp only [unitOf, palLoadUnit]
      split
      · exact ⟨hw, rfl⟩
      · exact ⟨palFill_wf _ hw 0 (by rw [entriesOf_length]; omega), rfl⟩
    case lzwDecode => simp only [unitOf, lzwUnit]; split <;> exact ⟨hw, rfl⟩
    case cmykToRgb => simp only [unitOf, cmykUnit]; split <;> exact ⟨hw, rfl⟩
    case palLookup => simp only [unitOf, palLookupUnit]; split <;> exact ⟨hw, rfl⟩
    case adam7Scatter =>
      simp only [unitOf, scatterUnit]
      split
      · exact ⟨hw, rfl⟩
      · split
        · exact ⟨hw, rfl⟩
        · split <;> exact ⟨hw, rfl⟩

/-- A hazard step keeps the canonical forms of BUF and the palette. -/
theorem hazardStep_wf {i : Instr} {s : State} (hp : s.engine.phase ≠ .idle)
    (hz : ∀ a ∈ s.hazard, a < s.cfg.memSize) (hs : palSizeOf s ≤ 256)
    (hm : Memory.wf s.cfg.memSize s.mem) (hw : PaletteRam.wf s.pal) :
    Memory.wf s.cfg.memSize (hazardStep (shapeOf i s) s).mem ∧
      PaletteRam.wf (hazardStep (shapeOf i s) s).pal := by
  obtain ⟨h1, h2, -⟩ := hazardStep_keeps (shapeOf i s) hp
  rw [h1, h2]
  refine ⟨freeAt_memory_wf _ hm fun a ha => ?_, ?_⟩
  · rcases mem_hazardAddrs ha with ⟨_, _, -, -, -, ha⟩ | ha
    · exact ha
    · exact hz a ha
  · split
    · exact hw
    · refine palFill_wf _ hw 0 ?_
      have : (shapeOf i s).loads ≤ 256 := by
        cases i <;> first | exact Nat.zero_le _ | exact hs
      simpa using this

/-- A host write of bytes inside BUF keeps its canonical form. -/
theorem hostWriteBuf_wf {s : State} {b : Nat} {bytes : List Byte}
    (hb : b + bytes.length ≤ s.cfg.memSize) (hm : Memory.wf s.cfg.memSize s.mem) :
    Memory.wf s.cfg.memSize (hostWriteBuf b bytes s).mem :=
  writeBytes_memory_wf hm _ _ hb

end Sys2Proof.Machine
end

