-- ==== Sys2Proof/Laws/Ends.lean ====
section
/-! SUPPORT. How a unit that is due ends, in the words that statements use: a row that is stored or
spoiled, a one-unit command that completes, an error. -/

namespace Sys2Proof.Machine

/-- A row command whose row is decoded. -/
theorem exec_row_done {i : Instr} {u rb cursor : Nat} {s : State} {bytes : List Byte}
    (h : AtUnit i u s) (hr : unitRow i u s = some (rb, .ok (bytes, cursor))) :
    exec i s = .next (rowDone i u bytes cursor s) := by
  have hl := unitRow_length hr
  have he := (unitRow_shape hr).2.2.2
  rw [exec_unit h, unitStep_done (unitOf_row hr)]
  simp only [rowDone, storeRow, bumpProgress, he, hl]
  rfl

/-- A row command whose row is refused. -/
theorem exec_row_failed {i : Instr} {u rb : Nat} {s : State} {e : ErrInfo} (h : AtUnit i u s)
    (hr : unitRow i u s = some (rb, .error e)) :
    exec i s = .next (rowFailed u rb e s) := by
  rw [exec_unit h, unitStep_raised (unitOf_row hr)]
  rfl

/-- A command of one unit whose unit completes. -/
theorem exec_single_done {i : Instr} {s s1 : State} (h : AtUnit i 0 s)
    (hu : (shapeOf i s).units = 1) (he : (shapeOf i s).emptyUnit = false)
    (hd : unitOf i 0 s = .done s1) : exec i s = .next (completed (readsInput i) s1) := by
  rw [exec_unit h, unitStep_done hd, afterUnit_single hu he, shape_input]

/-- A command whose unit raises. -/
theorem exec_raised {i : Instr} {u : Nat} {s s1 : State} {e : ErrInfo} (h : AtUnit i u s)
    (hd : unitOf i u s = .raised s1 e) :
    exec i s = .next (raise e { s1 with epoch := s1.epoch + 1 }) := by
  rw [exec_unit h, unitStep_raised hd]

/-! ### What a unit that is due knows of its command -/

/-- A "must be >= 1" register of a command whose unit is due is so. -/
theorem required_of_atUnit {i : Instr} {u : Nat} {s : State} (h : AtUnit i u s) {r : Reg}
    (hr : r ∈ mustBeOne i) : readReg s r ≠ 0 := by
  have := (firstError_none h.valid).1
  rw [shape_required] at this
  exact this (r, readReg s r) (List.mem_map.mpr ⟨r, hr, rfl⟩)

theorem toNat_pos_of_ne {w : Word} (h : w ≠ 0) : 1 ≤ w.toNat := by
  rcases Nat.eq_zero_or_pos w.toNat with h0 | h0
  · exact absurd (BitVec.eq_of_toNat_eq h0) h
  · exact h0

/-- The row of a fixed-filter command. -/
theorem unitRow_fixedFilter {i : Instr} {t : PngFilter} {first : Bool}
    (h : fixedFilter i = some (t, first)) (u : Nat) (s : State) :
    unitRow i u s = some (s.regs.dstLen.toNat, filterRow t first s u s.engine.cursor) := by
  cases i <;> simp only [fixedFilter, reduceCtorEq, Option.some.injEq, Prod.mk.injEq] at h <;>
    obtain ⟨rfl, rfl⟩ := h <;> rfl

/-- The next byte boundary, in closed form. -/
theorem alignUp_eq (b : Nat) : alignUp b = 8 * ((b + 7) / 8) := by
  rw [alignUp]
  split <;> omega

theorem bpp_of_atUnit {i : Instr} {u : Nat} {s : State} (hu : AtUnit i u s)
    (h : fixedFilter i ≠ none ∨ ∃ first, i = .pngUnfilter first) : 1 ≤ bppOf s :=
  ((bppLegal_iff _).mp ((params_legal hu.valid).2.1 h)).1

theorem minsize_of_atUnit {u : Nat} {s : State} (hu : AtUnit .lzwDecode u s) :
    2 ≤ minsizeOf s ∧ minsizeOf s ≤ 8 :=
  (minsizeLegal_iff _).mp ((params_legal hu.valid).1 rfl)

/-- A unit of `ADAM7_SCATTER` whose reduced row is there. -/
theorem exec_scatter_row {k : Nat} {g : PassGeometry} {s : State} {row : List Byte}
    (hu : AtUnit .adam7Scatter k s) (hg : adam7Pass (passOf s) = some g)
    (he : passEmpty s = false) (hl : row.length = pixelRowBytes (colsOf s) (bitsOf s))
    (hs : spellsBytes s s.engine.cursor row) :
    exec .adam7Scatter s = .next (afterUnit (shapeOf .adam7Scatter s) k
      { s with
        mem := scatterRow g s k row
        results := { s.results with
          outCount := regOf (s.results.outCount.toNat + row.length)
          progDone := s.results.progDone + 1 }
        engine := { s.engine with cursor := s.engine.cursor + 8 * row.length }
        epoch := s.epoch + 1 }) := by
  have hr := readBytes_spelled hs
  rw [hl] at hr
  have hd : unitOf .adam7Scatter k s = .done { s with
      mem := scatterRow g s k row
      results := { s.results with
        outCount := regOf (s.results.outCount.toNat + row.length) }
      engine := { s.engine with cursor := s.engine.cursor + 8 * row.length } } := by
    simp only [unitOf, scatterUnit, hg, he, hr, hl]
    rfl
  have hemp : (shapeOf .adam7Scatter s).emptyUnit = false := he
  rw [exec_unit hu, unitStep_done hd]
  simp only [bumpProgress, hemp]
  rfl

end Sys2Proof.Machine
end

