-- ==== Sys2Proof/Laws/PerInstr.lean ====
section
/-! SUPPORT. Statements made per instruction: the fields of every command word stand where R100 puts
them. -/

namespace Sys2Proof.Laws.FieldsPlaced

/-- `OP` is in bits [7:0], `MODE` in [11:8], and bits [31:12] are 0 (R100, R103). -/
def Statement (i : Instr) : Prop :=
  (encode i).extractLsb' 0 8 = i.opcode ∧ (encode i).extractLsb' 8 4 = i.mode ∧
    (encode i).extractLsb' 12 20 = 0

theorem nop : Statement .nop := ⟨rfl, rfl, rfl⟩

theorem mhRows (byteOut : Bool) (align : Bool) :
    Statement (.mhRows byteOut align) := by
  cases byteOut <;> cases align <;> exact ⟨rfl, rfl, rfl⟩

theorem mhRun (colour : Colour) :
    Statement (.mhRun colour) := by
  cases colour <;> exact ⟨rfl, rfl, rfl⟩

theorem mhCode (colour : Colour) :
    Statement (.mhCode colour) := by
  cases colour <;> exact ⟨rfl, rfl, rfl⟩

theorem lzwDecode : Statement .lzwDecode := ⟨rfl, rfl, rfl⟩

theorem packbits : Statement .packbits := ⟨rfl, rfl, rfl⟩

theorem byterun1 : Statement .byterun1 := ⟨rfl, rfl, rfl⟩

theorem palmRle : Statement .palmRle := ⟨rfl, rfl, rfl⟩

theorem pngUnfilter (first : Bool) :
    Statement (.pngUnfilter first) := by
  cases first <;> exact ⟨rfl, rfl, rfl⟩

theorem pngNone (first : Bool) :
    Statement (.pngNone first) := by
  cases first <;> exact ⟨rfl, rfl, rfl⟩

theorem pngSub (first : Bool) :
    Statement (.pngSub first) := by
  cases first <;> exact ⟨rfl, rfl, rfl⟩

theorem pngUp (first : Bool) :
    Statement (.pngUp first) := by
  cases first <;> exact ⟨rfl, rfl, rfl⟩

theorem pngAvg (first : Bool) :
    Statement (.pngAvg first) := by
  cases first <;> exact ⟨rfl, rfl, rfl⟩

theorem pngPaeth (first : Bool) :
    Statement (.pngPaeth first) := by
  cases first <;> exact ⟨rfl, rfl, rfl⟩

theorem adam7Geom : Statement .adam7Geom := ⟨rfl, rfl, rfl⟩

theorem adam7Scatter : Statement .adam7Scatter := ⟨rfl, rfl, rfl⟩

theorem cmykToRgb (planar : Bool) :
    Statement (.cmykToRgb planar) := by
  cases planar <;> exact ⟨rfl, rfl, rfl⟩

theorem palWrite : Statement .palWrite := ⟨rfl, rfl, rfl⟩

theorem palRead : Statement .palRead := ⟨rfl, rfl, rfl⟩

theorem palLookup : Statement .palLookup := ⟨rfl, rfl, rfl⟩

theorem palLoad : Statement .palLoad := ⟨rfl, rfl, rfl⟩

theorem palAttach : Statement .palAttach := ⟨rfl, rfl, rfl⟩

theorem palReset : Statement .palReset := ⟨rfl, rfl, rfl⟩

end Sys2Proof.Laws.FieldsPlaced
end

