-- ==== Sys2Proof/Tests/Slice0.lean ====
section
/-! SUPPORT. Tests of the model against the words of the encoding tables (30_encoding.md) and the
vectors of 95_test_vectors.md, and one witness for every statement of Obligations.lean that has
hypotheses. The expected values of the vector tests are the spec's. -/

namespace Sys2Proof.Tests

open Sys2Proof Sys2Proof.Machine

-- One test at a time: a kernel evaluation waits for every declaration before it.
set_option Elab.async false

/-! ### Helpers -/

/-- The start state of the vectors in `RUN(0)` of a command: its registers, and bytes from 0x100 on
(95_test_vectors.md section 0). -/
def ready (i : Instr) (regs : OperandRegs) (bytes : List Byte) : State :=
  { State.reset with
    regs := { regs with cmd := encode i }
    mem := writeBytes [] 0x100 bytes
    engine :=
      { phase := .run 0
        lcmd := encode i
        cursor := 8 * regs.srcAddr.toNat + regs.inBit.toNat
        stop := 8 * (regs.srcAddr.toNat + regs.srcLen.toNat)
        abortReq := false
        lzw := if i = .lzwDecode then some (dictInit (regs.param.extractLsb' 0 4).toNat)
          else none } }

/-- The same command at its validation step. -/
def startedWith (i : Instr) (regs : OperandRegs) : State :=
  startWord (encode i) { State.reset with regs := regs }

/-- The operands of an input of `n` bytes at 0x100 with its output at 0x400. -/
def io (n : Word) : OperandRegs :=
  { OperandRegs.reset with srcAddr := 0x100, srcLen := n, dstAddr := 0x400 }

/-- The operands of one output row of `len` bytes from an input of `n` bytes. -/
def oneRow (n len : Word) : OperandRegs := { io n with dstLen := len, rows := 1 }

/-- The operands of one PNG row, with the prior row at 0x300. -/
def pngRow (n len bpp : Word) : OperandRegs := { oneRow n len with prvAddr := 0x300, param := bpp }

/-- A test of the next state; false where there is none. -/
def after (o : Host.Outcome State Fault Refusal) (test : State → Bool) : Bool :=
  match o with
  | .next t => test t
  | _ => false

/-- The bytes listed from `a` on are these. -/
def bytesAt (t : State) (a : Nat) (bytes : List Byte) : Bool :=
  (List.range bytes.length).map (fun k => storeGet t.mem (a + k)) == bytes.map some

/-- The error code and information a state shows: code, position, row, column, value. -/
def errorOf (t : State) : Nat × Nat × Nat × Nat × Nat :=
  (t.status.errCode.toNat, t.errors.pos.toNat, t.errors.row.toNat, t.errors.col.toNat,
    t.errors.value.toNat)

/-- The cursor registers: `CUR` of the vectors. -/
def cursorOf (t : State) : Nat × Nat × Nat :=
  (t.regs.srcAddr.toNat, t.regs.srcLen.toNat, t.regs.inBit.toNat)

/-- The outcome is a next state. -/
def isNext (o : Host.Outcome State Fault Refusal) : Bool := after o fun _ => true

theorem next_of_isNext {o : Host.Outcome State Fault Refusal} (h : isNext o = true) :
    ∃ t, o = .next t := by
  cases o with
  | next t => exact ⟨t, rfl⟩
  | fault e => exact absurd h (by simp [isNext, after])
  | refused e => exact absurd h (by simp [isNext, after])

/-! ### Well-formedness: one ill-formed word for each check -/

/-- R103: bit 12 is reserved. -/
theorem test_wellFormed_reservedBits : wordFault 0x00001000 = some .reservedBits := by decide

/-- R101: 0x13 is no opcode. -/
theorem test_wellFormed_reservedOpcode : wordFault 0x00000013 = some .reservedOpcode := by decide

/-- R102: `NOP` names no `MODE` bit. -/
theorem test_wellFormed_reservedMode : wordFault 0x00000100 = some .reservedMode := by decide

/-- The same words are refused as illegal, and by the decoder under the same names. -/
theorem test_wellFormed_refused :
    legalWord 0x00001000 = false ∧ legalWord 0x00000013 = false ∧ legalWord 0x00000100 = false ∧
      decode 0x00001000 = .error .reservedBits ∧ decode 0x00000013 = .error .reservedOpcode ∧
      decode 0x00000100 = .error .reservedMode := by decide

/-! ### Decoding: the word of every constructor, written out bit by bit from R100 to R103

Bits [31:12] are 0, then the four `MODE` bits, then the eight `OP` bits. -/

theorem test_decode_nop :
    decode 0b00000000000000000000000000000000 = .ok .nop := by decide
theorem test_decode_mhRows :
    decode 0b00000000000000000000000100010000 = .ok (.mhRows true false) := by decide
theorem test_decode_mhRows_align :
    decode 0b00000000000000000000001000010000 = .ok (.mhRows false true) := by decide
theorem test_decode_mhRun :
    decode 0b00000000000000000000000100010001 = .ok (.mhRun .black) := by decide
theorem test_decode_mhCode :
    decode 0b00000000000000000000000000010010 = .ok (.mhCode .white) := by decide
theorem test_decode_lzwDecode :
    decode 0b00000000000000000000000000100000 = .ok (.lzwDecode) := by decide
theorem test_decode_packbits :
    decode 0b00000000000000000000000000110000 = .ok (.packbits) := by decide
theorem test_decode_byterun1 :
    decode 0b00000000000000000000000000110001 = .ok (.byterun1) := by decide
theorem test_decode_palmRle :
    decode 0b00000000000000000000000000110010 = .ok (.palmRle) := by decide
theorem test_decode_pngUnfilter :
    decode 0b00000000000000000000000101000000 = .ok (.pngUnfilter true) := by decide
theorem test_decode_pngNone :
    decode 0b00000000000000000000000001000001 = .ok (.pngNone false) := by decide
theorem test_decode_pngSub :
    decode 0b00000000000000000000000101000010 = .ok (.pngSub true) := by decide
theorem test_decode_pngUp :
    decode 0b00000000000000000000000001000011 = .ok (.pngUp false) := by decide
theorem test_decode_pngAvg :
    decode 0b00000000000000000000000101000100 = .ok (.pngAvg true) := by decide
theorem test_decode_pngPaeth :
    decode 0b00000000000000000000000001000101 = .ok (.pngPaeth false) := by decide
theorem test_decode_adam7Geom :
    decode 0b00000000000000000000000001010000 = .ok (.adam7Geom) := by decide
theorem test_decode_adam7Scatter :
    decode 0b00000000000000000000000001010001 = .ok (.adam7Scatter) := by decide
theorem test_decode_cmykToRgb :
    decode 0b00000000000000000000000101100000 = .ok (.cmykToRgb true) := by decide
theorem test_decode_palWrite :
    decode 0b00000000000000000000000001110000 = .ok (.palWrite) := by decide
theorem test_decode_palRead :
    decode 0b00000000000000000000000001110001 = .ok (.palRead) := by decide
theorem test_decode_palLookup :
    decode 0b00000000000000000000000001110010 = .ok (.palLookup) := by decide
theorem test_decode_palLoad :
    decode 0b00000000000000000000000001110011 = .ok (.palLoad) := by decide
theorem test_decode_palAttach :
    decode 0b00000000000000000000000001110100 = .ok (.palAttach) := by decide
theorem test_decode_palReset :
    decode 0b00000000000000000000000001110101 = .ok (.palReset) := by decide

/-! ### One step of each command, from the vectors of 95_test_vectors.md -/

/-- EX-1: `NOP` from reset completes with `ST = 0x2` and `PG = 1/1`; both steps, the second of them
tested on the state after the first. -/
theorem test_nop_completes :
    after (exec .nop (startedWith .nop OperandRegs.reset)) (fun t =>
      after (exec .nop t) fun t' => readReg t' .status == 0x2 && t'.results.progDone == 1 &&
        t'.results.progTotal == 1) = true := by decide +kernel

/-- MH-1: B6 gives F0. -/
theorem test_mhRows_packed :
    after (exec (.mhRows false false)
      (ready (.mhRows false false) { io 1 with width := 8, rows := 1, dstAddr := 0x200 } [0xB6]))
      (fun t => bytesAt t 0x200 [0xF0] && cursorOf t == (0x100, 1, 7)) = true := by decide +kernel

/-- MH-2: 7C gives 01 01 00 00, a byte per pixel. -/
theorem test_mhRows_byte :
    after (exec (.mhRows true false)
      (ready (.mhRows true false) { io 1 with width := 4, rows := 1, dstAddr := 0x200 } [0x7C]))
      (fun t => bytesAt t 0x200 [1, 1, 0, 0] && cursorOf t == (0x100, 1, 6)) = true := by
  decide +kernel

/-- MH-15: a make-up code and a terminating code. -/
theorem test_mhRun_makeup :
    after (exec (.mhRun .white) (ready (.mhRun .white) (io 2) [0xD9, 0xA8]))
      (fun t => t.results.result0 == 64 && t.results.result1 == 13 && t.results.result2 == 2 &&
        cursorOf t == (0x101, 1, 5)) = true := by decide +kernel

/-- MH-19: two make-up codes under `MH_MAKEUP_CHAIN = ERROR`. -/
theorem test_mhRun_chain :
    after (exec (.mhRun .white) (ready (.mhRun .white) (io 2) [0xDE, 0xC0]))
      (fun t => errorOf t == (2, 0x101, 0, 0, 64)) = true := by decide +kernel

/-- MH-13: a black code. -/
theorem test_mhCode_black :
    after (exec (.mhCode .black) (ready (.mhCode .black) (io 1) [0x60]))
      (fun t => t.results.result0 == 4 && t.results.result1 == 3 && t.results.result2 == 0 &&
        t.regs.inBit == 3) = true := by decide +kernel

/-- MH-11: sixteen bits that begin with no code. -/
theorem test_mhCode_noCode :
    after (exec (.mhCode .white) (ready (.mhCode .white) (io 2) [0x00, 0x10]))
      (fun t => errorOf t == (2, 0x102, 0, 0, 0x10)) = true := by decide +kernel

/-- LZ-1. -/
theorem test_lzwDecode_stream :
    after (exec .lzwDecode (ready .lzwDecode { io 3 with dstLen := 8, param := 2 }
      [0x8C, 0x2D, 0x59]))
      (fun t => bytesAt t 0x400 [1, 1, 1, 1, 1, 2, 2, 2] && t.results.result0 == 7 &&
        t.results.result1 == 4 && t.results.result2 == 10) = true := by decide +kernel

/-- LZ-2: the eighth byte does not fit. -/
theorem test_lzwDecode_overflow :
    after (exec .lzwDecode (ready .lzwDecode { io 3 with dstLen := 7, param := 2 }
      [0x8C, 0x2D, 0x59]))
      (fun t => errorOf t == (2, 0x102, 0, 7, 9) && t.results.outCount == 7 &&
        cursorOf t == (0x100, 3, 0)) = true := by decide +kernel

/-- RL-1, the source's own scenario: a run longer than its row. -/
theorem test_packbits_overrun :
    after (exec .packbits (ready .packbits (oneRow 2 4) [0xFB, 0x11]))
      (fun t => errorOf t == (2, 0x100, 0, 0, 0xFB) && t.results.outCount == 0) = true := by
  decide +kernel

/-- RL-4 cut to its first three packets: FE AA, 02 80 00 2A, FD AA. -/
theorem test_packbits_row :
    after (exec .packbits
      (ready .packbits (oneRow 8 10) [0xFE, 0xAA, 0x02, 0x80, 0x00, 0x2A, 0xFD, 0xAA]))
      (fun t => bytesAt t 0x400 [0xAA, 0xAA, 0xAA, 0x80, 0x00, 0x2A, 0xAA, 0xAA, 0xAA, 0xAA] &&
        cursorOf t == (0x108, 0, 0)) = true := by decide +kernel

/-- RL-2. -/
theorem test_byterun1_row :
    after (exec .byterun1 (ready .byterun1 (oneRow 6 4) [0x80, 0x01, 0x41, 0x42, 0xFF, 0x43]))
      (fun t => bytesAt t 0x400 [0x41, 0x42, 0x43, 0x43] && cursorOf t == (0x106, 0, 0)) = true := by
  decide +kernel

/-- RL-3. -/
theorem test_palmRle_row :
    after (exec .palmRle (ready .palmRle (oneRow 4 5) [0x03, 0x07, 0x02, 0x09]))
      (fun t => bytesAt t 0x400 [7, 7, 7, 9, 9] && cursorOf t == (0x104, 0, 0)) = true := by
  decide +kernel

/-- RL-13: a count of 0. -/
theorem test_palmRle_zero :
    after (exec .palmRle (ready .palmRle (oneRow 2 3) [0x00, 0x05]))
      (fun t => errorOf t == (2, 0x100, 0, 0, 0)) = true := by decide +kernel

/-- PF-1, row 0: type Sub. -/
theorem test_pngUnfilter_sub :
    after (exec (.pngUnfilter true) (ready (.pngUnfilter true)
      { pngRow 6 2 1 with rows := 2, dstStride := 2 } [0x01, 0x05, 0x03, 0x02, 0x01, 0x01]))
      (fun t => bytesAt t 0x400 [0x05, 0x08] && t.engine.phase == .run 1) = true := by
  decide +kernel

/-- PF-17: type 5. -/
theorem test_pngUnfilter_badType :
    after (exec (.pngUnfilter true) (ready (.pngUnfilter true) (pngRow 3 2 1) [0x05, 0x01, 0x02]))
      (fun t => errorOf t == (2, 0x100, 0, 0, 5)) = true := by decide +kernel

/-- A state with the prior row at 0x300 (95_test_vectors.md section 3.5). -/
def withPrior (s : State) (prior : List Byte) : State :=
  { s with mem := writeBytes s.mem 0x300 prior }

/-- PF-24. -/
theorem test_pngNone_first :
    after (exec (.pngNone true) (ready (.pngNone true) (pngRow 2 2 1) [0x05, 0x01]))
      (fun t => bytesAt t 0x400 [0x05, 0x01]) = true := by decide +kernel

/-- PF-3: a stride of 2. -/
theorem test_pngSub_bpp2 :
    after (exec (.pngSub true) (ready (.pngSub true) (pngRow 4 4 2) [1, 2, 3, 4]))
      (fun t => bytesAt t 0x400 [1, 2, 4, 6]) = true := by decide +kernel

/-- PF-10: the sum wraps. -/
theorem test_pngSub_wraps :
    after (exec (.pngSub true) (ready (.pngSub true) (pngRow 2 2 1) [0x80, 0x80]))
      (fun t => bytesAt t 0x400 [0x80, 0x00]) = true := by decide +kernel

/-- PF-4. -/
theorem test_pngUp_prior :
    after (exec (.pngUp false) (withPrior (ready (.pngUp false) (pngRow 4 4 1) [1, 2, 3, 4])
      [0x0A, 0x14, 0x1E, 0x28])) (fun t => bytesAt t 0x400 [0x0B, 0x16, 0x21, 0x2C]) = true := by
  decide +kernel

/-- PF-5. -/
theorem test_pngAvg_prior :
    after (exec (.pngAvg false) (withPrior (ready (.pngAvg false) (pngRow 4 4 1) [1, 2, 3, 4])
      [0x0A, 0x14, 0x1E, 0x28])) (fun t => bytesAt t 0x400 [0x06, 0x0F, 0x19, 0x24]) = true := by
  decide +kernel

/-- PF-11: the sum has nine bits. -/
theorem test_pngAvg_nineBits :
    after (exec (.pngAvg false) (withPrior (ready (.pngAvg false) (pngRow 2 2 1) [0, 0])
      [0xFF, 0xFF])) (fun t => bytesAt t 0x400 [0x7F, 0xBF]) = true := by decide +kernel

/-- PF-12: the tie of the upper and the upper left byte goes to the upper one. -/
theorem test_pngPaeth_tieUp :
    after (exec (.pngPaeth false) (withPrior (ready (.pngPaeth false) (pngRow 2 2 1) [0x0A, 0x00])
      [0x64, 0x50])) (fun t => bytesAt t 0x400 [0x6E, 0x50]) = true := by decide +kernel

/-- PF-13: the tie of the left and the upper left byte goes to the left one. -/
theorem test_pngPaeth_tieLeft :
    after (exec (.pngPaeth false) (withPrior (ready (.pngPaeth false) (pngRow 2 2 1) [0xEC, 0x00])
      [0x64, 0x6E])) (fun t => bytesAt t 0x400 [0x50, 0x50]) = true := by decide +kernel

/-- The operands of an Adam7 command: `PARAM = pass | bits << 8`. -/
def adam7 (n w h stride param : Word) : OperandRegs :=
  { io n with width := w, height := h, dstStride := stride, param := param }

/-- A7-3. -/
theorem test_adam7Geom_pass5 :
    after (exec .adam7Geom (ready .adam7Geom (adam7 0 16 16 0 0x0405) []))
      (fun t => t.results.result0 == 0x04020200 && t.results.result1 == 8 &&
        t.results.result2 == 4 && t.results.result3 == 4) = true := by decide +kernel

/-- A7-4: no rows. -/
theorem test_adam7Geom_noRows :
    after (exec .adam7Geom (ready .adam7Geom (adam7 0 1 1 0 0x0107) []))
      (fun t => t.results.result0 == 0x02010100 && t.results.result1 == 1 &&
        t.results.result2 == 0 && t.results.result3 == 1) = true := by decide +kernel

/-- A state with an image at 0x400 (95_test_vectors.md section 3.6). -/
def withImage (s : State) (image : List Byte) : State :=
  { s with mem := writeBytes s.mem 0x400 image }

/-- A7-13: two bits a pixel, the other bits keep their values. -/
theorem test_adam7Scatter_twoBits :
    after (exec .adam7Scatter (withImage (ready .adam7Scatter (adam7 1 4 1 1 0x0206) [0xE0])
      [0x00]))
      (fun t => bytesAt t 0x400 [0x32] && cursorOf t == (0x101, 0, 0)) = true := by decide +kernel

/-- A7-12: two bytes a pixel. -/
theorem test_adam7Scatter_sixteenBits :
    after (exec .adam7Scatter (withImage (ready .adam7Scatter (adam7 4 2 2 4 0x1007) [1, 2, 3, 4])
      (List.replicate 8 0xEE)))
      (fun t => bytesAt t 0x400 [0xEE, 0xEE, 0xEE, 0xEE, 1, 2, 3, 4]) = true := by decide +kernel

/-- CM-1. -/
theorem test_cmykToRgb_interleaved :
    after (exec (.cmykToRgb false) (ready (.cmykToRgb false) { io 8 with width := 2 }
      [0x00, 0x00, 0x00, 0x00, 0xFF, 0x00, 0x80, 0x10]))
      (fun t => bytesAt t 0x400 [0xFF, 0xFF, 0xFF, 0x00, 0xEF, 0x6F]) = true := by decide +kernel

/-- CM-2: the same bytes as planes. -/
theorem test_cmykToRgb_planar :
    after (exec (.cmykToRgb true) (ready (.cmykToRgb true) { io 8 with width := 2 }
      [0x00, 0x00, 0x00, 0x00, 0xFF, 0x00, 0x80, 0x10]))
      (fun t => bytesAt t 0x400 [0x7F, 0x7F, 0x00, 0xEF, 0xEF, 0xEF]) = true := by decide +kernel

/-- A state with a palette and `PAL_CFG` fields. -/
def withPalette (s : State) (size : BitVec 9) (max : Byte) (pal : PaletteRam) : State :=
  { s with palCfg := ⟨size, max, false⟩, pal := pal }

/-- The two entries that PL-7 loads. -/
def blackWhite : PaletteRam := [(0, ⟨0, 0, 0⟩), (1, ⟨0xFF, 0xFF, 0xFF⟩)]

/-- PL-1: the entry is clamped. -/
theorem test_palWrite_clamps :
    after (exec .palWrite (withPalette
      (ready .palWrite { OperandRegs.reset with param := 3, arg := 0x00FF1080 } []) 256 0x7F []))
      (fun t => storeGet t.pal 3 == some ⟨0x7F, 0x10, 0x7F⟩ && t.status.done) = true := by
  decide +kernel

/-- PL-3: an index at `PAL_SIZE`. -/
theorem test_palWrite_badIndex :
    after (exec .palWrite (withPalette
      (ready .palWrite { OperandRegs.reset with param := 16 } []) 16 0xFF []))
      (fun t => errorOf t == (2, 0, 0, 0, 16) && t.pal == []) = true := by decide +kernel

/-- PL-2. -/
theorem test_palRead_entry :
    after (exec .palRead (withPalette (ready .palRead { OperandRegs.reset with param := 3 } [])
      256 0x7F [(3, ⟨0x7F, 0x10, 0x7F⟩)]))
      (fun t => t.results.result0 == 0x007F107F) = true := by decide +kernel

/-- PL-4: an index at `PAL_SIZE` leaves `RESULT0`. -/
theorem test_palRead_badIndex :
    after (exec .palRead (withPalette (ready .palRead { OperandRegs.reset with param := 16 } [])
      16 0xFF []))
      (fun t => errorOf t == (2, 0, 0, 0, 16) && t.results.result0 == 0) = true := by decide +kernel

/-- PL-8, with its input at 0x100. -/
theorem test_palLookup_row :
    after (exec .palLookup (withPalette (ready .palLookup { io 3 with width := 3 } [1, 0, 1])
      2 0xFF blackWhite))
      (fun t => bytesAt t 0x400 [0xFF, 0xFF, 0xFF, 0, 0, 0, 0xFF, 0xFF, 0xFF] &&
        t.results.outCount == 9) = true := by decide +kernel

/-- PL-9, with its input at 0x100: the third index is at `PAL_SIZE`. -/
theorem test_palLookup_badIndex :
    after (exec .palLookup (withPalette (ready .palLookup { io 3 with width := 3 } [1, 0, 2])
      2 0xFF blackWhite))
      (fun t => errorOf t == (2, 0x102, 0, 2, 2) && t.results.outCount == 0) = true := by
  decide +kernel

/-- PL-7. -/
theorem test_palLoad_two :
    after (exec .palLoad (withPalette (ready .palLoad (io 6) [0, 0, 0, 0xFF, 0xFF, 0xFF])
      2 0xFF []))
      (fun t => t.pal == blackWhite && cursorOf t == (0x106, 0, 0)) = true := by decide +kernel

/-- PL-13 and its validation order: `PAL_LOAD` while attached, PL-14. -/
theorem test_palLoad_locked :
    after (exec .palLoad { startedWith .palLoad (io 6) with palCfg := ⟨2, 0xFF, true⟩ })
      (fun t => errorOf t == (7, 0, 0, 0, 0x73)) = true := by decide +kernel

/-- EX-19: `PAL_CFG` after `PAL_ATTACH` from reset. -/
theorem test_palAttach_locks :
    after (exec .palAttach (ready .palAttach OperandRegs.reset []))
      (fun t => readReg t .palCfg == 0x80FF0100) = true := by decide +kernel

/-- PL-17. -/
theorem test_palReset_unlocks :
    after (exec .palReset { ready .palReset OperandRegs.reset [] with
      palCfg := ⟨2, 0xFF, true⟩, pal := blackWhite })
      (fun t => readReg t .palCfg == 0x00FF0002 && storeGet t.pal 255 == some ⟨0, 0, 0⟩ &&
        storeGet t.pal 1 == some ⟨0, 0, 0⟩) = true := by decide +kernel

/-! ### The host port and the step -/

/-- RL-23: an illegal word, by the machine's step. -/
theorem test_step_illegalWord :
    after (step (State.reset.withFetchWord 32 0x130))
      (fun t => errorOf t == (5, 0, 0, 0, 0x130) && !t.busy) = true := by decide +kernel

/-- A legal word is validated by the machine's step. -/
theorem test_step_validates :
    after (step (State.reset.withFetchWord 32 0x74)) (fun t => t.engine.phase == .run 0) = true := by
  decide +kernel

/-- HI-4 and HI-8: a little-endian read, and a misaligned one. -/
theorem test_host_read :
    (hostAccess ⟨.w32, 0x10000, .read⟩ { State.reset with mem := writeBytes [] 0 [0x11, 0x22, 0x33, 0x44] }).response
        = some (.read 0x44332211 false) ∧
      (hostAccess ⟨.w16, 0x10001, .read⟩ State.reset).response = some (.read 0 true) := by
  decide +kernel

/-- HI-16 and HI-17: `PAL_CFG` drops reserved bits and keeps a legal size. -/
theorem test_host_palCfg :
    readReg (hostWriteReg .palCfg 0x12345678 State.reset) .palCfg = 0x00340078 ∧
      readReg (hostWriteReg .palCfg 0x00800000 State.reset) .palCfg = 0x00800100 := by
  decide +kernel

/-- HI-13 and HI-14. -/
theorem test_host_reserved :
    hostAccess ⟨.w32, 0x074, .write 0xFFFFFFFF⟩ State.reset =
        { State.reset with response := some (.write false) } ∧
      readReg (hostWriteReg .inBit 0xFFFFFFFF State.reset) .inBit = 7 := by decide +kernel

/-- The default parameters are legal (R4, R154): no code word begins another. -/
theorem test_config_legal : configLegal defaultConfig = true := by decide +kernel

/-! ### Witnesses: states and operands that meet the hypotheses of each statement of
Obligations.lean that has any, clause by clause -/

/-- No window check fails. -/
theorem noWindowFails {sh : Shape} {s : State}
    (h : ((windowChecks sh s).all fun p => !p.2) = true) : ∀ c, ¬windowFails sh s c := by
  intro c hc
  have := List.all_eq_true.mp h _ ((windowChecks_fails sh s c).2 hc)
  simp at this

/-- Window check `code` is the first that fails. -/
theorem firstWindowFails {sh : Shape} {s : State} {code : Nat}
    (hm : (code, true) ∈ windowChecks sh s)
    (h : ((windowChecks sh s).all fun p => decide (code ≤ p.1) || !p.2) = true) :
    windowFails sh s code ∧ ∀ c, c < code → ¬windowFails sh s c := by
  refine ⟨(windowChecks_fails sh s code).1 hm, fun c hc hf => ?_⟩
  have := List.all_eq_true.mp h _ ((windowChecks_fails sh s c).2 hf)
  simp at this
  omega

/-- The lowest and the highest reserved bit. -/
theorem witness_DecodeRefusesIllegalWords :
    (12 ≤ 12 ∧ 12 ≤ 31 ∧ (0x00001000 : Word).getLsbD 12 = true) ∧
    12 ≤ 31 ∧ 31 ≤ 31 ∧ (0x80000000 : Word).getLsbD 31 = true := by decide

theorem atValidation (i : Instr) (regs : OperandRegs) : AtValidation (startedWith i regs) :=
  ⟨rfl, rfl⟩

/-- A command started from reset, as the running state of the witnesses. -/
def running : State := startedWith .nop OperandRegs.reset

theorem witness_StepRunsDecodedCommand :
    (running.pending = [] ∧ running.busy = true ∧ decode running.engine.lcmd = .ok .nop) ∧
    (({ running with pending := [.engine] } : State).pending = .engine :: [] ∧ running.busy = true) ∧
    (State.reset.pending = [] ∧ State.reset.busy = false) ∧
    ({ running with pending := [.access ⟨.w32, 0, .read⟩] } : State).pending =
      .access ⟨.w32, 0, .read⟩ :: [] ∧
    ({ running with pending := [.poll] } : State).pending = .poll :: [] := by decide +kernel

/-- An illegal word in the engine. -/
def illegal (w : Word) : State := State.reset.withFetchWord 32 w.toNat

theorem witness_IllegalWordCompletesAtOnce_reservedBits :
    (illegal 0x80000000).pending = [] ∧ AtValidation (illegal 0x80000000) ∧
      (illegal 0x80000000).engine.lcmd.extractLsb' 12 20 ≠ 0 ∧
      (illegal 0x00001000).engine.lcmd.extractLsb' 12 20 ≠ 0 :=
  ⟨rfl, ⟨rfl, rfl⟩, by decide +kernel, by decide +kernel⟩

/-- The first and the last reserved opcode. -/
theorem witness_IllegalWordCompletesAtOnce_reservedOpcode :
    (illegal 0x01).pending = [] ∧ AtValidation (illegal 0x01) ∧
      ((illegal 0x01).engine.lcmd.extractLsb' 0 8).toNat = 0x01 ∧
      (illegal 0xFF).pending = [] ∧ AtValidation (illegal 0xFF) ∧
      ((illegal 0xFF).engine.lcmd.extractLsb' 0 8).toNat = 0xFF :=
  ⟨rfl, ⟨rfl, rfl⟩, by decide +kernel, rfl, ⟨rfl, rfl⟩, by decide +kernel⟩

theorem witness_IllegalWordCompletesAtOnce_reservedMode :
    (illegal 0x410).pending = [] ∧ AtValidation (illegal 0x410) ∧
      modeMask ((illegal 0x410).engine.lcmd.extractLsb' 0 8).toNat = some 0b0011 ∧
      (illegal 0x410).engine.lcmd.extractLsb' 8 4 &&& ~~~0b0011 ≠ 0 :=
  ⟨rfl, ⟨rfl, rfl⟩, by decide +kernel, by decide +kernel⟩

theorem witness_CommandRegisterWrites :
    (State.reset.busy = false ∧ Reg.inBit ∈ commandRegs ∧ Reg.inBit ≠ .palCfg ∧
      Reg.cmd ∈ commandRegs ∧ Reg.cmd ≠ .palCfg) ∧
    running.busy = true ∧ Reg.palCfg ∈ commandRegs := by decide +kernel

theorem witness_ReadOnlyAndReservedIgnoreWrites :
    Reg.id ∈ readOnlyRegs ∧ Reg.errValue ∈ readOnlyRegs ∧
    (0x074 ≤ hostOffset State.reset 0x074 ∧ hostOffset State.reset 0x074 < 0x100 ∧
      hostOffset State.reset 0x074 % 4 = 0) ∧
    (0x074 ≤ hostOffset State.reset 0x0FC ∧ hostOffset State.reset 0x0FC < 0x100 ∧
      hostOffset State.reset 0x0FC % 4 = 0) := by decide +kernel

/-- A narrow and a misaligned register access, both ends of the unmapped gap, a misaligned BUF access
and one past its end are refused; the last register word and the last word of BUF are not. -/
theorem witness_BusErrorExactlyWhenRefused :
    accessRefused State.reset ⟨.w8, 0x00C, .read⟩ ∧ accessRefused State.reset ⟨.w32, 0x002, .read⟩ ∧
    accessRefused State.reset ⟨.w32, 0x100, .read⟩ ∧
    accessRefused State.reset ⟨.w32, 0xFFFC, .write 0⟩ ∧
    accessRefused State.reset ⟨.w16, 0x10001, .read⟩ ∧
    accessRefused State.reset ⟨.w8, 0x20000, .write 0⟩ ∧
    ¬accessRefused State.reset ⟨.w32, 0x0FC, .read⟩ ∧
    ¬accessRefused State.reset ⟨.w32, 0x1FFFC, .write 0⟩ := by
  dsimp only [accessRefused]
  refine ⟨?_, ?_, ?_, ?_, ?_, ?_, ?_, ?_⟩ <;> decide +kernel

theorem witness_BufIsLittleEndian :
    (¬accessRefused State.reset ⟨.w16, 0x1FFFE, .write 0xABCD⟩ ∧
      0x10000 ≤ hostOffset State.reset 0x1FFFE) ∧
    (¬accessRefused State.reset ⟨.w8, 0x10000, .write 0xABCD⟩ ∧
      0x10000 ≤ hostOffset State.reset 0x10000) := by
  dsimp only [accessRefused]
  decide +kernel

theorem witness_StartBeginsCommand :
    (1 : Word).getLsbD 0 = true ∧ (1 : Word).getLsbD 3 = false ∧ State.reset.busy = false := by
  decide +kernel

theorem witness_StartWhileBusyIsIgnored :
    ((3 : Word).getLsbD 3 = false ∧ running.busy = true) ∧
    (2 : Word).getLsbD 3 = false ∧ (2 : Word).getLsbD 0 = false ∧ State.reset.busy = false := by
  decide +kernel

theorem witness_SoftResetKeepsBufAndPalette : (8 : Word).getLsbD 3 = true := by decide

theorem witness_HardwareResetState :
    ({ running with pending := [.hardReset] } : State).pending = .hardReset :: [] := rfl

theorem witness_InterruptLevelAndStatusBits :
    ((6 : Word).getLsbD 1 = true ∧ (6 : Word).getLsbD 2 = true) ∧ (0 : Word).getLsbD 2 = false ∧
    (5 : Word).getLsbD 0 = true ∧ State.reset.busy = false := by decide +kernel

theorem witness_PaletteConfigWrite :
    State.reset.busy = false ∧
    ({ State.reset with palCfg := ⟨2, 0xFF, true⟩ } : State).busy = false := by decide +kernel

/-- RL-17: `DST_LEN` is the first zero register. -/
theorem witness_MissingParameterFirst_first :
    AtValidation (startedWith .packbits (io 2)) ∧
    mustBeOne .packbits = [] ++ .dstLen :: [.rows] ∧
    (∀ q ∈ ([] : List Reg), readReg (startedWith .packbits (io 2)) q ≠ 0) ∧
    readReg (startedWith .packbits (io 2)) .dstLen = 0 :=
  ⟨⟨rfl, rfl⟩, rfl, by decide +kernel, by decide +kernel⟩

/-- RL-16: `ROWS` is the first zero register. -/
theorem witness_MissingParameterFirst_second :
    AtValidation (startedWith .packbits { io 2 with dstLen := 2 }) ∧
    mustBeOne .packbits = [.dstLen] ++ .rows :: [] ∧
    (∀ q ∈ [Reg.dstLen], readReg (startedWith .packbits { io 2 with dstLen := 2 }) q ≠ 0) ∧
    readReg (startedWith .packbits { io 2 with dstLen := 2 }) .rows = 0 :=
  ⟨⟨rfl, rfl⟩, rfl, by decide +kernel, by decide +kernel⟩

/-- LZ-13, LZ-14. -/
theorem witness_ParameterOutOfRange_minsize :
    requiredPresent .lzwDecode (startedWith .lzwDecode { oneRow 2 8 with param := 1 }) ∧
    ¬paramsLegal .lzwDecode (startedWith .lzwDecode { oneRow 2 8 with param := 1 }) ∧
    requiredPresent .lzwDecode (startedWith .lzwDecode { oneRow 2 8 with param := 9 }) ∧
    ¬paramsLegal .lzwDecode (startedWith .lzwDecode { oneRow 2 8 with param := 9 }) := by
  unfold requiredPresent paramsLegal
  decide +kernel

/-- PF-20, PF-21, and a fixed filter. -/
theorem witness_ParameterOutOfRange_bpp :
    requiredPresent (.pngUnfilter false) (startedWith (.pngUnfilter false) (pngRow 2 2 0)) ∧
    ¬paramsLegal (.pngUnfilter false) (startedWith (.pngUnfilter false) (pngRow 2 2 0)) ∧
    fixedFilter (.pngSub true) ≠ none ∧
    requiredPresent (.pngSub true) (startedWith (.pngSub true) (pngRow 2 2 9)) ∧
    ¬paramsLegal (.pngSub true) (startedWith (.pngSub true) (pngRow 2 2 9)) := by
  unfold requiredPresent paramsLegal
  decide +kernel

/-- A7-7, A7-8: `pass` is checked before `bits`. -/
theorem witness_ParameterOutOfRange_adam7 :
    requiredPresent .adam7Geom (startedWith .adam7Geom (adam7 0 1 1 0 0x0300)) ∧
    (startedWith .adam7Geom (adam7 0 1 1 0 0x0300)).regs.param.extractLsb' 0 3 = 0 ∧
    requiredPresent .adam7Scatter (startedWith .adam7Scatter (adam7 0 1 1 0 0x0301)) ∧
    (startedWith .adam7Scatter (adam7 0 1 1 0 0x0301)).regs.param.extractLsb' 0 3 ≠ 0 ∧
    ¬paramsLegal .adam7Scatter (startedWith .adam7Scatter (adam7 0 1 1 0 0x0301)) := by
  unfold requiredPresent paramsLegal
  decide +kernel

/-- The hypotheses of `AddressFaultFirst`. -/
def addressFaultCase (i : Instr) (s : State) (code : Nat) : Prop :=
  AtValidation s ∧ requiredPresent i s ∧ paramsLegal i s ∧ windowFails (shapeOf i s) s code ∧
    ∀ c, c < code → ¬windowFails (shapeOf i s) s c

/-- RL-20, RL-18, RL-21, PF-22, RL-19, PF-23: each check as the first that fails. -/
theorem witness_AddressFaultFirst :
    addressFaultCase .packbits (startedWith .packbits { oneRow 2 4 with srcAddr := 0xFFFF }) 1 ∧
    addressFaultCase .packbits
      (startedWith .packbits { oneRow 2 2 with rows := 2, dstStride := 1 }) 2 ∧
    addressFaultCase .packbits (startedWith .packbits { oneRow 2 4 with dstAddr := 0xFFFE }) 3 ∧
    addressFaultCase (.pngNone false)
      (startedWith (.pngNone false) { pngRow 3 2 1 with prvAddr := 0xFFFF }) 4 ∧
    addressFaultCase .packbits
      (startedWith .packbits { oneRow 4 4 with srcAddr := 0, dstAddr := 2 }) 5 ∧
    addressFaultCase (.pngNone false)
      (startedWith (.pngNone false) { pngRow 3 2 1 with prvAddr := 0x401 }) 6 := by
  have case {i : Instr} {s : State} {code : Nat} (hv : AtValidation s)
      (h1 : (∀ r ∈ mustBeOne i, readReg s r ≠ 0)) (h2 : ∀ p ∈ (shapeOf i s).params, p.2 = true)
      (h3 : (code, true) ∈ windowChecks (shapeOf i s) s)
      (h4 : ((windowChecks (shapeOf i s) s).all fun p => decide (code ≤ p.1) || !p.2) = true) :
      addressFaultCase i s code :=
    ⟨hv, h1, (shape_params i s).1 h2, firstWindowFails h3 h4⟩
  refine ⟨case ⟨rfl, rfl⟩ ?_ ?_ ?_ ?_, case ⟨rfl, rfl⟩ ?_ ?_ ?_ ?_, case ⟨rfl, rfl⟩ ?_ ?_ ?_ ?_,
    case ⟨rfl, rfl⟩ ?_ ?_ ?_ ?_, case ⟨rfl, rfl⟩ ?_ ?_ ?_ ?_, case ⟨rfl, rfl⟩ ?_ ?_ ?_ ?_⟩ <;>
    decide +kernel

/-- A state whose palette is attached. -/
def attached (i : Instr) : State := { startedWith i (io 6) with palCfg := ⟨2, 0xFF, true⟩ }

theorem witness_AttachedPaletteRefusesWrites :
    (AtValidation (attached .palWrite) ∧ (attached .palWrite).palCfg.locked = true) ∧
    AtValidation (attached .palLoad) ∧ (attached .palLoad).palCfg.locked = true ∧
    ¬windowFails (shapeOf .palLoad (attached .palLoad)) (attached .palLoad) 1 :=
  ⟨⟨⟨rfl, rfl⟩, rfl⟩, ⟨rfl, rfl⟩, rfl, noWindowFails (by decide +kernel) 1⟩

/-- A command that reads input, one that does not, and one whose abort is requested. -/
theorem witness_ValidationPasses :
    (∀ s ∈ [startedWith .lzwDecode { oneRow 3 8 with param := 2 },
        { startedWith .lzwDecode { oneRow 3 8 with param := 8 } with
          engine := { (startedWith .lzwDecode { oneRow 3 8 with param := 8 }).engine with
            abortReq := true } }],
      AtValidation s ∧ requiredPresent .lzwDecode s ∧ paramsLegal .lzwDecode s ∧
        ∀ c, ¬windowFails (shapeOf .lzwDecode s) s c) ∧
    AtValidation running ∧ requiredPresent .nop running ∧ paramsLegal .nop running ∧
      (∀ c, ¬windowFails (shapeOf .nop running) running c) ∧
      ((Instr.nop = .palWrite ∨ Instr.nop = .palLoad) → running.palCfg.locked = false) := by
  refine ⟨fun s hs => ?_, ⟨rfl, rfl⟩, fun r hr => absurd hr List.not_mem_nil, trivial,
    noWindowFails (by decide +kernel), fun _ => rfl⟩
  obtain rfl | rfl : _ ∨ _ := by simpa using hs
  all_goals
    refine ⟨⟨rfl, rfl⟩, ?_, (shape_params _ _).1 (by decide +kernel),
      noWindowFails (by decide +kernel)⟩
    unfold requiredPresent
    decide +kernel

/-- The first and the last Adam7 pass. -/
theorem witness_ValidationPasses_adam7 :
    ((1, 0, 0, 8, 8) ∈ [(1, 0, 0, 8, 8), (2, 0, 4, 8, 8), (3, 4, 0, 8, 4), (4, 0, 2, 4, 4),
        (5, 2, 0, 4, 2), (6, 0, 1, 2, 2), (7, 1, 0, 2, 1)] ∧
      ((startedWith .adam7Scatter (adam7 0 1 1 0 0x0801)).regs.param.extractLsb' 0 3).toNat = 1) ∧
    (7, 1, 0, 2, 1) ∈ [(1, 0, 0, 8, 8), (2, 0, 4, 8, 8), (3, 4, 0, 8, 4), (4, 0, 2, 4, 4),
        (5, 2, 0, 4, 2), (6, 0, 1, 2, 2), (7, 1, 0, 2, 1)] ∧
      ((startedWith .adam7Scatter (adam7 0 1 1 0 0x0807)).regs.param.extractLsb' 0 3).toNat = 7 := by
  decide +kernel

/-- Unit `u` of a command is due where the command is in `RUN(u)` and validated. -/
theorem atUnit {i : Instr} {u : Nat} {s : State} (hp : s.engine.phase = .run u)
    (hq : s.hazard = []) (h : unitValidated (shapeOf i s) u s = true) : AtUnit i u s := by
  simp only [unitValidated, Bool.and_eq_true, Option.isNone_iff_eq_none, decide_eq_true_eq] at h
  exact ⟨hp, hq, h.1, h.2⟩

theorem witness_UnitStepEndsInOneOfFourWays : AtUnit .nop 0 (ready .nop OperandRegs.reset []) :=
  atUnit rfl rfl (by decide +kernel)

theorem witness_CommandCompletesWithinItsUnits :
    AtValidation running ∧ running.pending = [] ∧ decode running.engine.lcmd = .ok .nop :=
  ⟨⟨rfl, rfl⟩, rfl, by decide +kernel⟩

/-- One byte less than each command needs. -/
theorem witness_InputEndsEarly :
    (∃ s, fixedFilter (.pngSub true) = some (.sub, true) ∧ AtUnit (.pngSub true) 0 s ∧
      s.engine.stop < s.engine.cursor + 8 * s.regs.dstLen.toNat) ∧
    (∃ s, AtUnit (.cmykToRgb false) 0 s ∧
      s.engine.stop < s.engine.cursor + 32 * s.regs.width.toNat) ∧
    (∃ s, AtUnit .adam7Scatter 0 s ∧ passEmpty s = false ∧
      s.engine.stop < s.engine.cursor + 8 * pixelRowBytes (colsOf s) (bitsOf s)) ∧
    ∃ s, AtUnit .palLoad 0 s ∧ 1 ≤ palSizeOf s ∧
      s.engine.stop < s.engine.cursor + 24 * palSizeOf s :=
  ⟨⟨ready (.pngSub true) (pngRow 1 2 1) [5], rfl, atUnit rfl rfl (by decide +kernel),
      by decide +kernel⟩,
    ⟨ready (.cmykToRgb false) { io 7 with width := 2 } (List.replicate 7 0),
      atUnit rfl rfl (by decide +kernel), by decide +kernel⟩,
    ⟨ready .adam7Scatter (adam7 1 9 9 9 0x0801) [1], atUnit rfl rfl (by decide +kernel),
      by decide +kernel, by decide +kernel⟩,
    ⟨withPalette (ready .palLoad (io 5) [0, 0, 0, 0, 0]) 2 0xFF [],
      atUnit rfl rfl (by decide +kernel), by decide +kernel, by decide +kernel⟩⟩

/-- A `PNG_UNFILTER` row whose input is empty, and one whose type byte is there. -/
def pngEnds (n : Word) (bytes : List Byte) : State :=
  ready (.pngUnfilter true) (pngRow n 2 1) bytes

theorem witness_InputEndsEarly_unfilter :
    (AtUnit (.pngUnfilter true) 0 (pngEnds 0 []) ∧
      (pngEnds 0 []).engine.stop < (pngEnds 0 []).engine.cursor + 8) ∧
    AtUnit (.pngUnfilter true) 0 (pngEnds 2 [4, 9]) ∧ (4 : Byte).toNat ≤ 4 ∧
      spellsBytes (pngEnds 2 [4, 9]) (pngEnds 2 [4, 9]).engine.cursor [4] ∧
      (pngEnds 2 [4, 9]).engine.stop <
        (pngEnds 2 [4, 9]).engine.cursor + 8 + 8 * (pngEnds 2 [4, 9]).regs.dstLen.toNat := by
  unfold spellsBytes
  exact ⟨⟨atUnit rfl rfl (by decide +kernel), by decide +kernel⟩,
    atUnit rfl rfl (by decide +kernel), by decide +kernel⟩

/-- PL-10 as a state, with its input at 0x100. -/
def lookupEnds : State :=
  withPalette (ready .palLookup { io 2 with width := 3 } [1, 0]) 2 0xFF blackWhite

theorem witness_InputEndsEarly_lookup :
    AtUnit .palLookup 0 lookupEnds ∧ [(1 : Byte), 0].length < lookupEnds.regs.width.toNat ∧
    (∀ k ∈ [(1 : Byte), 0], k.toNat < lookupEnds.palCfg.size.toNat) ∧
    spellsBytes lookupEnds lookupEnds.engine.cursor [1, 0] ∧
    lookupEnds.engine.stop < lookupEnds.engine.cursor + 8 * [(1 : Byte), 0].length + 8 := by
  unfold spellsBytes
  exact ⟨atUnit rfl rfl (by decide +kernel), by decide +kernel⟩

/-- RL-12, RL-11 and a repeat without its value byte as states. -/
def packbitsEnds : State := ready .packbits (oneRow 3 4) [0xFF, 0x11, 0x80]
def literalEnds : State := ready .packbits (oneRow 3 4) [0x02, 0x11, 0x22]
def repeatEnds : State := ready .byterun1 (oneRow 1 4) [0xFD]

theorem witness_InputEndsEarly_packets :
    (AtUnit .packbits 0 packbitsEnds ∧ (∀ p ∈ [RunPacket.repeated 2 0x11, .noop], p.legal) ∧
      2 < packbitsEnds.regs.dstLen.toNat ∧
      packbitsEnds.engine.stop < packbitsEnds.engine.cursor + 8 * 3 + 8 ∧
      spellsBytes packbitsEnds packbitsEnds.engine.cursor
        ([RunPacket.repeated 2 0x11, .noop].flatMap RunPacket.encoding ++ [])) ∧
    (AtUnit .packbits 0 literalEnds ∧ (2 : Byte).toNat < 128 ∧
      0 + (2 : Byte).toNat + 1 ≤ literalEnds.regs.dstLen.toNat ∧
      literalEnds.engine.stop < literalEnds.engine.cursor + 8 + 8 * ((2 : Byte).toNat + 1) ∧
      spellsBytes literalEnds literalEnds.engine.cursor [2]) ∧
    AtUnit .byterun1 0 repeatEnds ∧ 128 < (0xFD : Byte).toNat ∧
      0 + (257 - (0xFD : Byte).toNat) ≤ repeatEnds.regs.dstLen.toNat ∧
      repeatEnds.engine.stop < repeatEnds.engine.cursor + 16 ∧
      spellsBytes repeatEnds repeatEnds.engine.cursor [0xFD] := by
  unfold spellsBytes
  refine ⟨⟨atUnit rfl rfl (by decide +kernel), ?_, by decide +kernel⟩,
    ⟨atUnit rfl rfl (by decide +kernel), by decide +kernel⟩,
    atUnit rfl rfl (by decide +kernel), by decide +kernel⟩
  simp [RunPacket.legal]

/-- A `PALM_RLE` row without a count byte, and one without the value byte. -/
def palmEnds (n : Word) (bytes : List Byte) : State := ready .palmRle (oneRow n 3) bytes

theorem witness_InputEndsEarly_pairs :
    (AtUnit .palmRle 0 (palmEnds 2 [2, 9]) ∧
      (palmOutput [(2, 9)]).length < (palmEnds 2 [2, 9]).regs.dstLen.toNat ∧
      (palmEnds 2 [2, 9]).engine.stop < (palmEnds 2 [2, 9]).engine.cursor + 16 * 1 + 8 ∧
      spellsBytes (palmEnds 2 [2, 9]) (palmEnds 2 [2, 9]).engine.cursor
        (palmEncoding [(2, 9)] ++ [])) ∧
    AtUnit .palmRle 0 (palmEnds 1 [3]) ∧
      0 + (3 : Byte).toNat ≤ (palmEnds 1 [3]).regs.dstLen.toNat ∧
      (palmEnds 1 [3]).engine.stop < (palmEnds 1 [3]).engine.cursor + 16 ∧
      spellsBytes (palmEnds 1 [3]) (palmEnds 1 [3]).engine.cursor (palmEncoding [] ++ [3]) := by
  unfold spellsBytes
  exact ⟨⟨atUnit rfl rfl (by decide +kernel), by decide +kernel⟩,
    atUnit rfl rfl (by decide +kernel), by decide +kernel⟩

/-! #### Frames -/

/-- The state that completes test `test_packbits_row`, and one that raises. -/
def packbitsRow : State := ready .packbits (oneRow 2 4) [0xFD, 0x11]

theorem witness_CommandStepRegisterFrame :
    (∃ t, exec .packbits packbitsRow = .next t) ∧ packbitsRow.hazard = [] ∧
    (∃ t, exec .palAttach (ready .palAttach OperandRegs.reset []) = .next t) ∧
    readsInput .palAttach = false ∧ (ready .palAttach OperandRegs.reset []).hazard = [] :=
  ⟨next_of_isNext (by decide +kernel), rfl, next_of_isNext (by decide +kernel), rfl, rfl⟩

theorem witness_SingleUnitStoreFrame :
    (∃ t, storesNothing .palAttach = true ∧
      exec .palAttach (ready .palAttach OperandRegs.reset []) = .next t) ∧
    (∃ t, AtValidation running ∧ exec .nop running = .next t) ∧
    (∃ t, exec .lzwDecode (ready .lzwDecode { io 2 with dstLen := 1, param := 2 } [0x4C, 0x01]) =
      .next t) ∧
    (∃ t, exec .palLookup (withPalette (ready .palLookup { io 3 with width := 3 } [1, 0, 2])
      2 0xFF blackWhite) = .next t) ∧
    ∃ t, exec (.cmykToRgb true) (ready (.cmykToRgb true) { io 4 with width := 1 } [1, 2, 3, 4]) =
      .next t := by
  obtain ⟨a, ha⟩ := next_of_isNext (o := exec .palAttach (ready .palAttach OperandRegs.reset []))
    (by decide +kernel)
  obtain ⟨b, hb⟩ := next_of_isNext (o := exec .nop running) (by decide +kernel)
  exact ⟨⟨a, rfl, ha⟩, ⟨b, ⟨rfl, rfl⟩, hb⟩, next_of_isNext (by decide +kernel),
    next_of_isNext (by decide +kernel), next_of_isNext (by decide +kernel)⟩

theorem witness_RowCommandFrame :
    rowBytes packbitsRow .packbits = some 4 ∧ packbitsRow.engine.phase = .run 0 ∧
    packbitsRow.hazard = [] ∧ ∃ t, exec .packbits packbitsRow = .next t :=
  ⟨by decide +kernel, rfl, rfl, next_of_isNext (by decide +kernel)⟩

/-- A7-13 as a state. -/
def scatterBits : State :=
  withImage (ready .adam7Scatter (adam7 1 4 1 1 0x0206) [0xE0]) [0x00]

/-- A7-12 as a state. -/
def scatterBytes : State :=
  withImage (ready .adam7Scatter (adam7 4 2 2 4 0x1007) [1, 2, 3, 4]) (List.replicate 8 0xEE)

theorem witness_ScatterFrame :
    adam7Pass (passOf scatterBits) = some ⟨0, 1, 2, 2⟩ ∧ scatterBits.engine.phase = .run 0 ∧
    scatterBits.hazard = [] ∧ ∃ t, exec .adam7Scatter scatterBits = .next t :=
  ⟨by decide +kernel, rfl, rfl, next_of_isNext (by decide +kernel)⟩

theorem witness_EngineStaysInsideOutputWindow :
    engineNext packbitsRow ∧ decode packbitsRow.engine.lcmd = .ok .packbits ∧
    ∃ t, step packbitsRow = .next t :=
  ⟨.inl rfl, by decide +kernel, next_of_isNext (by decide +kernel)⟩

/-! #### Modified Huffman -/

/-- The code words of the vectors: white 0, 4, 5 and make-up 64, black 4. -/
def white0 : MhEntry := ⟨8, 0b00110101, 0, .term⟩
def white4 : MhEntry := ⟨4, 0b1011, 4, .term⟩
def white5 : MhEntry := ⟨4, 0b1100, 5, .term⟩
def white64 : MhEntry := ⟨5, 0b11011, 64, .makeup⟩
def black4 : MhEntry := ⟨3, 0b011, 4, .term⟩

theorem witness_MhCodeDecodesTable_code :
    AtUnit (.mhCode .black) 0 (ready (.mhCode .black) (io 1) [0x60]) ∧
    black4 ∈ mhTable (ready (.mhCode .black) (io 1) [0x60]).cfg .black ∧
    spellsMSB (ready (.mhCode .black) (io 1) [0x60]) 0x800 (codeBits black4) := by
  refine ⟨atUnit rfl rfl (by decide +kernel), by decide +kernel, ?_⟩
  unfold spellsMSB
  decide +kernel

/-- MH-11 as a state. -/
def mhNoCode : State := ready (.mhCode .white) (io 2) [0x00, 0x10]

/-- Its bits. -/
def mhNoCodeBits : List Bool := (List.replicate 11 false) ++ true :: List.replicate 4 false

theorem witness_MhCodeDecodesTable_noCode :
    AtUnit (.mhCode .white) 0 mhNoCode ∧ configLegal mhNoCode.cfg = true ∧
    mhNoCodeBits.length = 16 ∧ spellsMSB mhNoCode mhNoCode.engine.cursor mhNoCodeBits ∧
    ∀ entry ∈ mhTable mhNoCode.cfg .white,
      ¬spellsMSB mhNoCode mhNoCode.engine.cursor (codeBits entry) := by
  refine ⟨atUnit rfl rfl (by decide +kernel), test_config_legal, rfl, ?_⟩
  unfold spellsMSB
  decide +kernel

/-- MH-15 as a state, and its run. -/
def mhMakeup : State := ready (.mhRun .white) (io 2) [0xD9, 0xA8]

theorem witness_MhRunAddsCodes_run :
    AtUnit (.mhRun .white) 0 mhMakeup ∧ configLegal mhMakeup.cfg = true ∧
    CodedRun.legal mhMakeup.cfg .white ⟨[white64], white0⟩ ∧
    spellsMSB mhMakeup mhMakeup.engine.cursor (CodedRun.bits ⟨[white64], white0⟩) := by
  refine ⟨atUnit rfl rfl (by decide +kernel), test_config_legal, ?_, ?_⟩
  · unfold CodedRun.legal
    decide +kernel
  · unfold spellsMSB
    decide +kernel

/-- MH-19 as a state. -/
def mhChain : State := ready (.mhRun .white) (io 2) [0xDE, 0xC0]

theorem witness_MhRunAddsCodes_chain :
    AtUnit (.mhRun .white) 0 mhChain ∧ configLegal mhChain.cfg = true ∧
    mhChain.cfg.makeupChain = .error ∧ white64 ∈ mhTable mhChain.cfg .white ∧
    white64.kind = .makeup ∧
    spellsMSB mhChain mhChain.engine.cursor (codeBits white64 ++ codeBits white64) := by
  refine ⟨atUnit rfl rfl (by decide +kernel), test_config_legal, rfl, by decide +kernel, rfl, ?_⟩
  unfold spellsMSB
  decide +kernel

/-- A row of MH-1's width, aligned: its input starts in the middle of a byte that is skipped. -/
def mhRow (align : Bool) : State :=
  ready (.mhRows false align) { io 2 with width := 8, rows := 1, inBit := if align then 3 else 0 }
    (if align then [0xFF, 0xB6] else [0xB6, 0x00])

theorem witness_MhRowsStoreRuns :
    ∀ align : Bool, AtUnit (.mhRows false align) 0 (mhRow align) ∧
      configLegal (mhRow align).cfg = true ∧
      runsLegal (mhRow align).cfg .white [⟨[], white4⟩, ⟨[], black4⟩] ∧
      runsLength [⟨[], white4⟩, ⟨[], black4⟩] = (mhRow align).regs.width.toNat ∧
      runsLength [⟨[], white4⟩, ⟨[], black4⟩].dropLast < (mhRow align).regs.width.toNat ∧
      spellsMSB (mhRow align) (if align then 8 * (((mhRow align).engine.cursor + 7) / 8)
        else (mhRow align).engine.cursor) (runsBits [⟨[], white4⟩, ⟨[], black4⟩]) := by
  intro align
  cases align
  all_goals
    refine ⟨atUnit rfl rfl (by decide +kernel), test_config_legal, ?_, by decide +kernel,
      by decide +kernel, ?_⟩
    · unfold runsLegal runsLegal runsLegal CodedRun.legal
      decide +kernel
    · unfold spellsMSB
      decide +kernel

/-- MH-4 as a state: a white run of 5 in a row of 4. -/
def mhOverrun : State :=
  ready (.mhRows false false) { io 1 with width := 4, rows := 1 } [0xC0]

theorem witness_MhRowsRefuseOverrun :
    AtUnit (.mhRows false false) 0 mhOverrun ∧ configLegal mhOverrun.cfg = true ∧
    runsLegal mhOverrun.cfg .white ([] ++ [⟨[], white5⟩]) ∧
    runsLength [] < mhOverrun.regs.width.toNat ∧
    mhOverrun.regs.width.toNat < runsLength [] + CodedRun.length ⟨[], white5⟩ ∧
    spellsMSB mhOverrun mhOverrun.engine.cursor (runsBits ([] ++ [⟨[], white5⟩])) := by
  refine ⟨atUnit rfl rfl (by decide +kernel), test_config_legal, ?_, by decide +kernel,
    by decide +kernel, ?_⟩
  · unfold runsLegal
    simp only [List.nil_append]
    unfold runsLegal CodedRun.legal
    decide +kernel
  · unfold spellsMSB
    decide +kernel

/-- MH-12 and MH-21 as states, and two `MH_ROWS` rows: make-up 64 and three bits, white 4 and four
bits. -/
def mhCodeEnds : State := ready (.mhCode .white) (io 1) [0x00]
def mhRunEnds : State := ready (.mhRun .white) (io 1) [0xD8]
def mhRowEnds (byte : Byte) : State :=
  ready (.mhRows false false) { io 1 with width := 100, rows := 1 } [byte]

theorem witness_InputEndsEarly_mh :
    (AtUnit (.mhCode .white) 0 mhCodeEnds ∧
      codeCutOff mhCodeEnds .white mhCodeEnds.engine.cursor) ∧
    (AtUnit (.mhRun .white) 0 mhRunEnds ∧ configLegal mhRunEnds.cfg = true ∧
      makeupsLegal mhRunEnds.cfg .white [white64] ∧
      spellsMSB mhRunEnds mhRunEnds.engine.cursor ([white64].flatMap codeBits) ∧
      codeCutOff mhRunEnds .white
        (mhRunEnds.engine.cursor + ([white64].flatMap codeBits).length)) ∧
    (AtUnit (.mhRows false false) 0 (mhRowEnds 0xD8) ∧ configLegal (mhRowEnds 0xD8).cfg = true ∧
      rowPending (mhRowEnds 0xD8) [] [white64] (mhRowEnds 0xD8).engine.cursor ∧
      codeCutOff (mhRowEnds 0xD8) (colourAfter .white [])
        ((mhRowEnds 0xD8).engine.cursor + (rowBits [] [white64]).length)) ∧
    AtUnit (.mhRows false false) 0 (mhRowEnds 0xB0) ∧ configLegal (mhRowEnds 0xB0).cfg = true ∧
      rowPending (mhRowEnds 0xB0) [⟨[], white4⟩] [] (mhRowEnds 0xB0).engine.cursor ∧
      codeCutOff (mhRowEnds 0xB0) (colourAfter .white [⟨[], white4⟩])
        ((mhRowEnds 0xB0).engine.cursor + (rowBits [⟨[], white4⟩] []).length) := by
  refine ⟨⟨atUnit rfl rfl (by decide +kernel), ?_⟩,
    ⟨atUnit rfl rfl (by decide +kernel), test_config_legal, ?_⟩,
    ⟨atUnit rfl rfl (by decide +kernel), test_config_legal, ?_⟩,
    atUnit rfl rfl (by decide +kernel), test_config_legal, ?_⟩
  all_goals
    simp only [codeCutOff, noCodeAt, rowPending, makeupsLegal, runsLegal, CodedRun.legal, spellsMSB]
    decide +kernel

/-- A make-up code and sixteen bits that begin with no code. -/
def mhRunNoCode : State := ready (.mhRun .white) (io 3) [0xD8, 0x00, 0x00]

theorem witness_MhRunAddsCodes_noCode :
    AtUnit (.mhRun .white) 0 mhRunNoCode ∧ configLegal mhRunNoCode.cfg = true ∧
    makeupsLegal mhRunNoCode.cfg .white [white64] ∧ (List.replicate 16 false).length = 16 ∧
    spellsMSB mhRunNoCode mhRunNoCode.engine.cursor
      ([white64].flatMap codeBits ++ List.replicate 16 false) ∧
    noCodeAt mhRunNoCode .white
      (mhRunNoCode.engine.cursor + ([white64].flatMap codeBits).length) := by
  refine ⟨atUnit rfl rfl (by decide +kernel), test_config_legal, ?_⟩
  simp only [noCodeAt, makeupsLegal, spellsMSB]
  decide +kernel

/-- A white run of 4 and then no code, and MH-19's two make-up codes in a row. -/
def mhRowNoCode : State :=
  ready (.mhRows false false) { io 3 with width := 8, rows := 1 } [0xB0, 0x00, 0x00]
def mhRowChain : State :=
  ready (.mhRows false false) { io 2 with width := 200, rows := 1 } [0xDE, 0xC0]

theorem witness_MhRowsRefuseOverrun_codes :
    (AtUnit (.mhRows false false) 0 mhRowNoCode ∧ configLegal mhRowNoCode.cfg = true ∧
      rowPending mhRowNoCode [⟨[], white4⟩] [] mhRowNoCode.engine.cursor ∧
      (List.replicate 16 false).length = 16 ∧
      spellsMSB mhRowNoCode (mhRowNoCode.engine.cursor + (rowBits [⟨[], white4⟩] []).length)
        (List.replicate 16 false) ∧
      noCodeAt mhRowNoCode (colourAfter .white [⟨[], white4⟩])
        (mhRowNoCode.engine.cursor + (rowBits [⟨[], white4⟩] []).length)) ∧
    AtUnit (.mhRows false false) 0 mhRowChain ∧ configLegal mhRowChain.cfg = true ∧
      mhRowChain.cfg.makeupChain = .error ∧
      rowPending mhRowChain [] [white64] mhRowChain.engine.cursor ∧
      white64 ∈ mhTable mhRowChain.cfg (colourAfter .white []) ∧ white64.kind = .makeup ∧
      spellsMSB mhRowChain mhRowChain.engine.cursor (rowBits [] [white64, white64]) := by
  refine ⟨⟨atUnit rfl rfl (by decide +kernel), test_config_legal, ?_⟩,
    atUnit rfl rfl (by decide +kernel), test_config_legal, rfl, ?_⟩
  all_goals
    simp only [noCodeAt, rowPending, makeupsLegal, runsLegal, CodedRun.legal, spellsMSB]
    decide +kernel

/-! #### LZW -/

/-- LZ-1 as a state, and its tokens: code 9 is the next free one when it is read. -/
def lzwRow : State := ready .lzwDecode { io 3 with dstLen := 8, param := 2 } [0x8C, 0x2D, 0x59]

def lzwTokens : List LzwToken :=
  [.clear, .string 1 [1], .string 6 [1, 1], .string 6 [1, 1], .string 2 [2], .string 9 [2, 2]]

theorem witness_LzwDecodesEncoderStreams :
    AtUnit .lzwDecode 0 lzwRow ∧ lzwStreamLegal (minsizeOf lzwRow) [] none lzwTokens ∧
    (lzwStreamBytes lzwTokens).length = lzwRow.regs.dstLen.toNat ∧
    spellsLSB lzwRow lzwRow.engine.cursor
      (lzwStreamBits (minsizeOf lzwRow) lzwTokens (2 ^ minsizeOf lzwRow + 1)) := by
  have hm : minsizeOf lzwRow = 2 := by decide +kernel
  refine ⟨atUnit rfl rfl (by decide +kernel), ?_, by decide +kernel, ?_⟩
  · rw [hm]
    simp only [lzwTokens, lzwStreamLegal, lzwCodeFor, lzwGrow]
    exact ⟨.inl ⟨by decide, rfl⟩, .inr ⟨0, rfl, rfl⟩, .inr ⟨0, rfl, rfl⟩, .inl ⟨by decide, rfl⟩,
      .inr ⟨3, rfl, rfl⟩, trivial⟩
  · unfold spellsLSB
    decide +kernel

/-- LZ-8: `EOI` after one byte of two. -/
def lzwShort : State := ready .lzwDecode { io 2 with dstLen := 2, param := 2 } [0x4C, 0x01]

/-- LZ-11: code 7 while 6 is the next free one. -/
def lzwHigh : State := ready .lzwDecode { io 2 with dstLen := 4, param := 2 } [0xCC, 0x01]

theorem witness_LzwRefusesBadStreams :
    (AtUnit .lzwDecode 0 lzwShort ∧
      lzwStreamLegal (minsizeOf lzwShort) [] none [.clear, .string 1 [1]] ∧
      (lzwStreamBytes [.clear, .string 1 [1]]).length < lzwShort.regs.dstLen.toNat ∧
      spellsLSB lzwShort lzwShort.engine.cursor
        (lzwStreamBits (minsizeOf lzwShort) [.clear, .string 1 [1]]
          (2 ^ minsizeOf lzwShort + 1))) ∧
    AtUnit .lzwDecode 0 lzwHigh ∧
      lzwStreamLegal (minsizeOf lzwHigh) [] none [.clear, .string 1 [1]] ∧
      lzwStreamNext (minsizeOf lzwHigh) [.clear, .string 1 [1]] < 7 ∧
      7 < 2 ^ lzwStreamWidth (minsizeOf lzwHigh) [.clear, .string 1 [1]] ∧
      (lzwStreamBytes [.clear, .string 1 [1]]).length ≤ lzwHigh.regs.dstLen.toNat ∧
      spellsLSB lzwHigh lzwHigh.engine.cursor
        (lzwStreamBits (minsizeOf lzwHigh) [.clear, .string 1 [1]] 7) := by
  have h1 : minsizeOf lzwShort = 2 := by decide +kernel
  have h2 : minsizeOf lzwHigh = 2 := by decide +kernel
  refine ⟨⟨atUnit rfl rfl (by decide +kernel), ?_, by decide +kernel, ?_⟩,
    atUnit rfl rfl (by decide +kernel), ?_, by decide +kernel, by decide +kernel,
    by decide +kernel, ?_⟩
  · rw [h1]
    simp only [lzwStreamLegal, lzwCodeFor, lzwGrow]
    exact ⟨.inl ⟨by decide, rfl⟩, trivial⟩
  · unfold spellsLSB
    decide +kernel
  · rw [h2]
    simp only [lzwStreamLegal, lzwCodeFor, lzwGrow]
    exact ⟨.inl ⟨by decide, rfl⟩, trivial⟩
  · unfold spellsLSB
    decide +kernel

/-- LZ-10: code 7 right after `CLEAR`, and code 6, the next free one, at the start. -/
def lzwNoPrevious (byte : Byte) : State :=
  ready .lzwDecode { io 1 with dstLen := 1, param := 2 } [byte]

/-- LZ-2 as a state: the last string does not fit. -/
def lzwLong : State := ready .lzwDecode { io 3 with dstLen := 7, param := 2 } [0x8C, 0x2D, 0x59]

theorem witness_LzwRefusesBadStreams_noPrevious :
    (AtUnit .lzwDecode 0 (lzwNoPrevious 0x3C) ∧
      lzwStreamLegal (minsizeOf (lzwNoPrevious 0x3C)) [] none [.clear] ∧
      [LzwToken.clear].getLast? = some .clear ∧ 2 ^ minsizeOf (lzwNoPrevious 0x3C) + 1 < 7 ∧
      7 < 2 ^ lzwStreamWidth (minsizeOf (lzwNoPrevious 0x3C)) [.clear] ∧
      spellsLSB (lzwNoPrevious 0x3C) (lzwNoPrevious 0x3C).engine.cursor
        (lzwStreamBits (minsizeOf (lzwNoPrevious 0x3C)) [.clear] 7)) ∧
    AtUnit .lzwDecode 0 (lzwNoPrevious 0x06) ∧
      lzwStreamLegal (minsizeOf (lzwNoPrevious 0x06)) [] none [] ∧
      2 ^ minsizeOf (lzwNoPrevious 0x06) + 1 < 6 ∧
      6 < 2 ^ lzwStreamWidth (minsizeOf (lzwNoPrevious 0x06)) [] ∧
      spellsLSB (lzwNoPrevious 0x06) (lzwNoPrevious 0x06).engine.cursor
        (lzwStreamBits (minsizeOf (lzwNoPrevious 0x06)) [] 6) := by
  refine ⟨⟨atUnit rfl rfl (by decide +kernel), ?_⟩, atUnit rfl rfl (by decide +kernel), ?_⟩
  all_goals
    simp only [lzwStreamLegal, spellsLSB]
    decide +kernel

theorem witness_LzwRefusesBadStreams_overflow :
    AtUnit .lzwDecode 0 lzwLong ∧
    lzwStreamLegal (minsizeOf lzwLong) [] none lzwTokens.dropLast ∧
    lzwStreamLegal (minsizeOf lzwLong) [] none (lzwTokens.dropLast ++ [.string 9 [2, 2]]) ∧
    (lzwStreamBytes lzwTokens.dropLast).length ≤ lzwLong.regs.dstLen.toNat ∧
    lzwLong.regs.dstLen.toNat < (lzwStreamBytes lzwTokens.dropLast).length + [2, 2].length ∧
    spellsLSB lzwLong lzwLong.engine.cursor
      (lzwStreamBits (minsizeOf lzwLong) lzwTokens.dropLast 9) := by
  have hm : minsizeOf lzwLong = 2 := by decide +kernel
  refine ⟨atUnit rfl rfl (by decide +kernel), ?_, ?_, by decide +kernel, by decide +kernel, ?_⟩
  · rw [hm]
    simp only [lzwTokens, List.dropLast, lzwStreamLegal, lzwCodeFor, lzwGrow]
    exact ⟨.inl ⟨by decide, rfl⟩, .inr ⟨0, rfl, rfl⟩, .inr ⟨0, rfl, rfl⟩, .inl ⟨by decide, rfl⟩,
      trivial⟩
  · rw [hm]
    simp only [lzwTokens, List.dropLast, List.cons_append, List.nil_append, lzwStreamLegal,
      lzwCodeFor, lzwGrow]
    exact ⟨.inl ⟨by decide, rfl⟩, .inr ⟨0, rfl, rfl⟩, .inr ⟨0, rfl, rfl⟩, .inl ⟨by decide, rfl⟩,
      .inr ⟨3, rfl, rfl⟩, trivial⟩
  · unfold spellsLSB
    decide +kernel

/-- LZ-12 as a state: two bits where a code of three is due. -/
def lzwEnds : State := ready .lzwDecode { io 1 with dstLen := 1, param := 2 } [0x0C]

theorem witness_InputEndsEarly_lzw :
    AtUnit .lzwDecode 0 lzwEnds ∧
    lzwStreamLegal (minsizeOf lzwEnds) [] none [.clear, .string 1 [1]] ∧
    (lzwStreamBytes [.clear, .string 1 [1]]).length ≤ lzwEnds.regs.dstLen.toNat ∧
    spellsLSB lzwEnds lzwEnds.engine.cursor
      (lzwTokenBits (minsizeOf lzwEnds) [] none [.clear, .string 1 [1]]) ∧
    lzwEnds.engine.stop < lzwEnds.engine.cursor +
      (lzwTokenBits (minsizeOf lzwEnds) [] none [.clear, .string 1 [1]]).length +
      lzwStreamWidth (minsizeOf lzwEnds) [.clear, .string 1 [1]] := by
  have hm : minsizeOf lzwEnds = 2 := by decide +kernel
  refine ⟨atUnit rfl rfl (by decide +kernel), ?_, by decide +kernel, ?_, by decide +kernel⟩
  · rw [hm]
    simp only [lzwStreamLegal, lzwCodeFor, lzwGrow]
    exact ⟨.inl ⟨by decide, rfl⟩, trivial⟩
  · unfold spellsLSB
    decide +kernel

/-! #### Run lengths -/

/-- RL-2 as a state, and RL-8: a repeat of 128. -/
def byterunRow : State := ready .byterun1 (oneRow 6 4) [0x80, 0x01, 0x41, 0x42, 0xFF, 0x43]

def packbitsLong : State := ready .packbits (oneRow 2 128) [0x81, 0x5A]

theorem witness_PackbitsRowStoresPackets :
    (AtUnit .byterun1 0 byterunRow ∧
      (∀ p ∈ [RunPacket.noop, .literal [0x41, 0x42], .repeated 2 0x43], p.legal) ∧
      ([RunPacket.noop, .literal [0x41, 0x42], .repeated 2 0x43].flatMap RunPacket.output).length =
        byterunRow.regs.dstLen.toNat ∧
      [RunPacket.noop, .literal [0x41, 0x42], .repeated 2 0x43].getLast? ≠ some .noop ∧
      spellsBytes byterunRow byterunRow.engine.cursor
        ([RunPacket.noop, .literal [0x41, 0x42], .repeated 2 0x43].flatMap RunPacket.encoding)) ∧
    AtUnit .packbits 0 packbitsLong ∧ RunPacket.legal (.repeated 128 0x5A) ∧
      ([RunPacket.repeated 128 0x5A].flatMap RunPacket.output).length =
        packbitsLong.regs.dstLen.toNat ∧
      spellsBytes packbitsLong packbitsLong.engine.cursor
        ([RunPacket.repeated 128 0x5A].flatMap RunPacket.encoding) := by
  refine ⟨⟨atUnit rfl rfl (by decide +kernel), ?_, by decide +kernel, by decide +kernel, ?_⟩,
    atUnit rfl rfl (by decide +kernel), ?_, by decide +kernel, ?_⟩
  · simp [RunPacket.legal]
  · unfold spellsBytes
    decide +kernel
  · simp [RunPacket.legal]
  · unfold spellsBytes
    decide +kernel

/-- RL-3 as a state. -/
def palmRow : State := ready .palmRle (oneRow 4 5) [0x03, 0x07, 0x02, 0x09]

theorem witness_PalmRowStoresPairs :
    AtUnit .palmRle 0 palmRow ∧ (∀ p ∈ [((3 : Byte), (7 : Byte)), (2, 9)], p.1 ≠ 0) ∧
    (palmOutput [(3, 7), (2, 9)]).length = palmRow.regs.dstLen.toNat ∧
    spellsBytes palmRow palmRow.engine.cursor (palmEncoding [(3, 7), (2, 9)]) := by
  refine ⟨atUnit rfl rfl (by decide +kernel), by simp, by decide +kernel, ?_⟩
  unfold spellsBytes
  decide +kernel

/-- A literal one byte longer than the row, and a run one byte longer. -/
def literalOverrun : State := ready .packbits (oneRow 4 2) [0x02, 0x01, 0x02, 0x03]

def repeatOverrun : State := ready .byterun1 (oneRow 2 3) [0xFD, 0x11]

/-- RL-13 and RL-14 as states. -/
def palmZero : State := ready .palmRle (oneRow 2 3) [0x00, 0x05]

def palmLong : State := ready .palmRle (oneRow 2 3) [0x04, 0x05]

theorem witness_RunLengthOverrunRefused :
    (AtUnit .packbits 0 literalOverrun ∧ 0 < literalOverrun.regs.dstLen.toNat ∧
      (2 : Byte).toNat < 128 ∧ literalOverrun.regs.dstLen.toNat < 0 + (2 : Byte).toNat + 1 ∧
      spellsBytes literalOverrun literalOverrun.engine.cursor [2]) ∧
    (AtUnit .byterun1 0 repeatOverrun ∧ 0 < repeatOverrun.regs.dstLen.toNat ∧
      128 < (0xFD : Byte).toNat ∧
      repeatOverrun.regs.dstLen.toNat < 0 + (257 - (0xFD : Byte).toNat) ∧
      spellsBytes repeatOverrun repeatOverrun.engine.cursor [0xFD]) ∧
    (AtUnit .palmRle 0 palmZero ∧ 0 < palmZero.regs.dstLen.toNat ∧
      spellsBytes palmZero palmZero.engine.cursor [0]) ∧
    AtUnit .palmRle 0 palmLong ∧ palmLong.regs.dstLen.toNat < 0 + (4 : Byte).toNat ∧
      spellsBytes palmLong palmLong.engine.cursor [4] := by
  unfold spellsBytes
  exact ⟨⟨atUnit rfl rfl (by decide +kernel), by decide +kernel⟩,
    ⟨atUnit rfl rfl (by decide +kernel), by decide +kernel⟩,
    ⟨atUnit rfl rfl (by decide +kernel), by decide +kernel⟩,
    atUnit rfl rfl (by decide +kernel), by decide +kernel⟩

/-! #### PNG, Adam7, CMYK -/

/-- The first row of a fixed filter, with `FIRST` and with a prior row. -/
def pngFirst (first : Bool) : State :=
  withPrior (ready (.pngPaeth first) (pngRow 2 2 1) [0x0A, 0x00]) [0x64, 0x50]

/-- Its second row. -/
def pngSecond : State :=
  { (ready (.pngPaeth true) { pngRow 4 2 8 with rows := 2, dstStride := 2 } [1, 2, 3, 4]) with
    engine := ⟨.run 1, encode (.pngPaeth true), 0x810, 0x820, false, none⟩ }

theorem witness_PngFixedFilterRow :
    (∀ first : Bool, fixedFilter (.pngPaeth first) = some (.paeth, first) ∧
      AtUnit (.pngPaeth first) 0 (pngFirst first) ∧
      spellsBytes (pngFirst first) (pngFirst first).engine.cursor [0x0A, 0x00]) ∧
    AtUnit (.pngPaeth true) 1 pngSecond ∧
    spellsBytes pngSecond pngSecond.engine.cursor [3, 4] := by
  unfold spellsBytes
  refine ⟨fun first => ?_, atUnit rfl rfl (by decide +kernel), by decide +kernel⟩
  cases first <;> exact ⟨rfl, atUnit rfl rfl (by decide +kernel), by decide +kernel⟩

/-- A `PNG_UNFILTER` row with a type byte. -/
def pngTyped (type : Byte) : State :=
  ready (.pngUnfilter true) (pngRow 3 2 1) [type, 0x01, 0x02]

theorem witness_PngUnfilterRow :
    (∀ type ∈ [(0 : Byte), 4], AtUnit (.pngUnfilter true) 0 (pngTyped type) ∧
      spellsBytes (pngTyped type) (pngTyped type).engine.cursor [type, 0x01, 0x02]) ∧
    ∀ type ∈ [(5 : Byte), 255], AtUnit (.pngUnfilter true) 0 (pngTyped type) ∧ 4 < type.toNat ∧
      spellsBytes (pngTyped type) (pngTyped type).engine.cursor [type] := by
  unfold spellsBytes
  constructor
  all_goals
    intro type ht
    obtain rfl | rfl : _ ∨ _ := by simpa using ht
    all_goals exact ⟨atUnit rfl rfl (by decide +kernel), by decide +kernel⟩

theorem witness_PngFilterIsInvertible : 1 ≤ 1 ∧ [(0 : Byte)].length = [(7 : Byte)].length := by
  decide

theorem witness_Adam7GeometryResults :
    AtUnit .adam7Geom 0 (ready .adam7Geom (adam7 0 1 1 0 0x0101) []) ∧
    AtUnit .adam7Geom 0 (ready .adam7Geom (adam7 0 1 1 0 0x4007) []) :=
  ⟨atUnit rfl rfl (by decide +kernel), atUnit rfl rfl (by decide +kernel)⟩

theorem witness_Adam7CoversEveryPixelOnce :
    ((0 : Nat) < 1 ∧ (0 : Nat) < 1) ∧
    (adam7Pass 1 = some ⟨0, 0, 8, 8⟩ ∧ 0 < passCols ⟨0, 0, 8, 8⟩ 1 ∧ 0 < passRows ⟨0, 0, 8, 8⟩ 1) ∧
    adam7Pass 7 = some ⟨1, 0, 2, 1⟩ ∧ 0 < passCols ⟨1, 0, 2, 1⟩ 1 ∧ 0 < passRows ⟨1, 0, 2, 1⟩ 2 := by
  decide

theorem witness_ScatterWholeBytePixels :
    AtUnit .adam7Scatter 0 scatterBytes ∧ adam7Pass (passOf scatterBytes) = some ⟨1, 0, 2, 1⟩ ∧
    passEmpty scatterBytes = false ∧ 8 ≤ bitsOf scatterBytes ∧
    [(1 : Byte), 2, 3, 4].length = pixelRowBytes (colsOf scatterBytes) (bitsOf scatterBytes) ∧
    spellsBytes scatterBytes scatterBytes.engine.cursor [1, 2, 3, 4] := by
  unfold spellsBytes
  exact ⟨atUnit rfl rfl (by decide +kernel), by decide +kernel⟩

theorem witness_ScatterSubBytePixels :
    AtUnit .adam7Scatter 0 scatterBits ∧ adam7Pass (passOf scatterBits) = some ⟨0, 1, 2, 2⟩ ∧
    passEmpty scatterBits = false ∧ bitsOf scatterBits < 8 ∧
    [(0xE0 : Byte)].length = pixelRowBytes (colsOf scatterBits) (bitsOf scatterBits) ∧
    spellsBytes scatterBits scatterBits.engine.cursor [0xE0] := by
  unfold spellsBytes
  exact ⟨atUnit rfl rfl (by decide +kernel), by decide +kernel⟩

/-- A7-17 as a state: a pass with no rows. -/
def scatterNothing : State := ready .adam7Scatter (adam7 1 1 1 1 0x0803) []

theorem witness_ScatterEmptyPass :
    AtUnit .adam7Scatter 0 scatterNothing ∧ passEmpty scatterNothing = true :=
  ⟨atUnit rfl rfl (by decide +kernel), by decide +kernel⟩

/-- CM-4 as a state. -/
def cmykPixel (planar : Bool) : State :=
  ready (.cmykToRgb planar) { io 4 with width := 1 } [0x10, 0x20, 0x30, 0xF0]

theorem witness_CmykConvertsPixels :
    ∀ planar : Bool, AtUnit (.cmykToRgb planar) 0 (cmykPixel planar) ∧
      [(0x10 : Byte), 0x20, 0x30, 0xF0].length = 4 * (cmykPixel planar).regs.width.toNat ∧
      spellsBytes (cmykPixel planar) (cmykPixel planar).engine.cursor [0x10, 0x20, 0x30, 0xF0] := by
  unfold spellsBytes
  intro planar
  cases planar <;> exact ⟨atUnit rfl rfl (by decide +kernel), by decide +kernel⟩

/-! #### The palette and `NOP` -/

theorem witness_NopAttachAndReset :
    AtUnit .nop 0 (ready .nop OperandRegs.reset []) ∧
    AtUnit .palAttach 0 (ready .palAttach OperandRegs.reset []) ∧
    AtUnit .palReset 0 (ready .palReset OperandRegs.reset []) :=
  ⟨atUnit rfl rfl (by decide +kernel), atUnit rfl rfl (by decide +kernel),
    atUnit rfl rfl (by decide +kernel)⟩

/-- A palette of 16 entries and an index operand. -/
def indexed (i : Instr) (index : Word) : State :=
  withPalette (ready i { OperandRegs.reset with param := index } []) 16 0x7F []

theorem witness_PaletteWriteClamps :
    (AtUnit .palWrite 0 (indexed .palWrite 15) ∧
      indexOf (indexed .palWrite 15) < (indexed .palWrite 15).palCfg.size.toNat) ∧
    AtUnit .palWrite 0 (indexed .palWrite 16) ∧
      (indexed .palWrite 16).palCfg.size.toNat ≤ indexOf (indexed .palWrite 16) :=
  ⟨⟨atUnit rfl rfl (by decide +kernel), by decide +kernel⟩,
    atUnit rfl rfl (by decide +kernel), by decide +kernel⟩

theorem witness_PaletteReadReturnsEntry :
    (AtUnit .palRead 0 (indexed .palRead 15) ∧
      indexOf (indexed .palRead 15) < (indexed .palRead 15).palCfg.size.toNat) ∧
    AtUnit .palRead 0 (indexed .palRead 16) ∧
      (indexed .palRead 16).palCfg.size.toNat ≤ indexOf (indexed .palRead 16) :=
  ⟨⟨atUnit rfl rfl (by decide +kernel), by decide +kernel⟩,
    atUnit rfl rfl (by decide +kernel), by decide +kernel⟩

/-- PL-8 and PL-9 as states, with their input at 0x100. -/
def lookup (last : Byte) : State :=
  withPalette (ready .palLookup { io 3 with width := 3 } [1, 0, last]) 2 0xFF blackWhite

theorem witness_PaletteLookupExpandsIndices :
    (AtUnit .palLookup 0 (lookup 1) ∧ [(1 : Byte), 0, 1].length = (lookup 1).regs.width.toNat ∧
      (∀ k ∈ [(1 : Byte), 0, 1], k.toNat < (lookup 1).palCfg.size.toNat) ∧
      spellsBytes (lookup 1) (lookup 1).engine.cursor [1, 0, 1]) ∧
    AtUnit .palLookup 0 (lookup 2) ∧ [(1 : Byte), 0].length < (lookup 2).regs.width.toNat ∧
      (∀ k ∈ [(1 : Byte), 0], k.toNat < (lookup 2).palCfg.size.toNat) ∧
      (lookup 2).palCfg.size.toNat ≤ (2 : Byte).toNat ∧
      spellsBytes (lookup 2) (lookup 2).engine.cursor ([1, 0] ++ [2]) := by
  unfold spellsBytes
  exact ⟨⟨atUnit rfl rfl (by decide +kernel), by decide +kernel⟩,
    atUnit rfl rfl (by decide +kernel), by decide +kernel⟩

/-- PL-7 as a state. -/
def loadTwo : State := withPalette (ready .palLoad (io 6) [0, 0, 0, 0xFF, 0xFF, 0xFF]) 2 0xFF []

theorem witness_PaletteLoadFillsEntries :
    AtUnit .palLoad 0 loadTwo ∧
    [(0 : Byte), 0, 0, 0xFF, 0xFF, 0xFF].length = 3 * loadTwo.palCfg.size.toNat ∧
    spellsBytes loadTwo loadTwo.engine.cursor [0, 0, 0, 0xFF, 0xFF, 0xFF] := by
  unfold spellsBytes
  exact ⟨atUnit rfl rfl (by decide +kernel), by decide +kernel⟩

/-! #### Invariants -/

/-- A sound state that is not the reset state: a started `NOP`. -/
theorem running_sound : Inv running where
  buf := ⟨List.Pairwise.nil, fun c hc => absurd hc (by simp [running, startedWith, startWord,
    startCommand, State.reset, State.resetOf])⟩
  pal := ⟨List.Pairwise.nil, fun c hc => absurd hc (by simp [running, startedWith, startWord,
    startCommand, State.reset, State.resetOf])⟩
  palSize := by decide
  oneFlag := by decide
  busyFlags := fun _ => rfl
  code := by decide
  abortBusy := by decide
  latched := fun _ => rfl
  dictionary := fun h => absurd rfl h
  hazard := ⟨fun a ha => absurd ha (by simp [running, startedWith, startWord, startCommand]),
    fun h => absurd rfl h⟩
  validating := fun _ => rfl
  progress := by decide
  running := fun u h => by
    have : Phase.validate = .run u := h
    cases this

theorem witness_EveryStepKeepsSoundness : Inv running ∧ ∃ t, step running = .next t :=
  ⟨running_sound, next_of_isNext (by decide +kernel)⟩

theorem witness_SoundBlockNeverStops : Inv running := running_sound

theorem witness_AttachedPaletteStaysUntilReset :
    (attached .palWrite).palCfg.locked = true ∧ ∃ t, step (attached .palWrite) = .next t :=
  ⟨rfl, next_of_isNext (by decide +kernel)⟩

end Sys2Proof.Tests
end

section
/-! PROOF. The illegal command words (30_encoding.md R101 to R103, R106): the checks of `wordFault`
are those of the decoder, and the engine's step on a word that fails one of them. -/

namespace Sys2Proof

/-! ### The fields of a word (R100) -/

/-- Bits [31:12] as a field are 0 when each of them is (R103). -/
theorem reservedField_eq_zero_iff (w : Word) :
    w.extractLsb' 12 20 = 0 ↔ ∀ k, 12 ≤ k → k ≤ 31 → w.getLsbD k = false := by
  constructor
  · intro h k hlo hhi
    have hbit := congrArg (fun v => v.getLsbD (k - 12)) h
    simpa [BitVec.getLsbD_extractLsb', show k - 12 < 20 by omega,
      show 12 + (k - 12) = k by omega] using hbit
  · intro h
    apply BitVec.eq_of_getLsbD_eq
    intro j hj
    simp [hj, h (12 + j) (by omega) (by omega)]

/-- `OP` stands in bits [7:0] of an instruction's word and `MODE` right above it (R100). -/
theorem getLsbD_encode (i : Instr) (k : Nat) :
    (encode i).getLsbD k =
      (decide (k < 32) && if k < 8 then i.opcode.getLsbD k else i.mode.getLsbD (k - 8)) := by
  rw [encode, BitVec.getLsbD_setWidth, BitVec.getLsbD_append]

theorem encode_opField (i : Instr) : (encode i).extractLsb' 0 8 = i.opcode := by
  apply BitVec.eq_of_getLsbD_eq
  intro j hj
  rw [BitVec.getLsbD_extractLsb', getLsbD_encode]
  simp [hj, show j < 32 by omega]

theorem encode_modeField (i : Instr) : (encode i).extractLsb' 8 4 = i.mode := by
  apply BitVec.eq_of_getLsbD_eq
  intro j hj
  rw [BitVec.getLsbD_extractLsb', getLsbD_encode]
  simp [hj, show 8 + j < 32 by omega]

theorem encode_reservedField (i : Instr) : (encode i).extractLsb' 12 20 = 0 := by
  refine (reservedField_eq_zero_iff _).2 fun k hlo _ => ?_
  rw [getLsbD_encode, if_neg (by omega), BitVec.getLsbD_of_ge _ _ (by omega), Bool.and_false]

/-! ### Well-formed instructions -/

theorem wf_iff (i : Instr) :
    i.wf = true ↔ ∃ mask, modeMask i.opcode.toNat = some mask ∧ i.mode &&& ~~~mask = 0 := by
  rw [Instr.wf]
  cases modeMask i.opcode.toNat <;> simp

/-- The flags are an instruction's only operands, and its opcode names them all (R102, R104). -/
theorem instr_wf (i : Instr) : i.wf = true := by
  cases i with
  | mhRows byteOut align => cases byteOut <;> cases align <;> rfl
  | mhRun colour | mhCode colour => cases colour <;> rfl
  | pngUnfilter f | pngNone f | pngSub f | pngUp f | pngAvg f | pngPaeth f | cmykToRgb f =>
    cases f <;> rfl
  | _ => rfl

/-! ### The answers of `wordFault` (R106) -/

theorem wordFault_of_reservedField {w : Word} (h : w.extractLsb' 12 20 ≠ 0) :
    wordFault w = some .reservedBits := by
  rw [wordFault, if_pos h]

theorem wordFault_of_reservedOpcode {w : Word} (h : w.extractLsb' 12 20 = 0)
    (hmask : modeMask (w.extractLsb' 0 8).toNat = none) :
    wordFault w = some .reservedOpcode := by
  rw [wordFault, if_neg (not_not.2 h), hmask]

theorem wordFault_of_reservedMode {w : Word} {mask : BitVec 4} (h : w.extractLsb' 12 20 = 0)
    (hmask : modeMask (w.extractLsb' 0 8).toNat = some mask)
    (hmode : w.extractLsb' 8 4 &&& ~~~mask ≠ 0) : wordFault w = some .reservedMode := by
  rw [wordFault, if_neg (not_not.2 h), hmask]
  exact if_pos hmode

theorem wordFault_of_legalFields {w : Word} {mask : BitVec 4} (h : w.extractLsb' 12 20 = 0)
    (hmask : modeMask (w.extractLsb' 0 8).toNat = some mask)
    (hmode : w.extractLsb' 8 4 &&& ~~~mask = 0) : wordFault w = none := by
  rw [wordFault, if_neg (not_not.2 h), hmask]
  exact if_neg (not_not.2 hmode)

theorem wordFault_encode (i : Instr) : wordFault (encode i) = none := by
  obtain ⟨mask, hmask, hmode⟩ := (wf_iff i).1 (instr_wf i)
  rw [← encode_opField] at hmask
  rw [← encode_modeField] at hmode
  exact wordFault_of_legalFields (encode_reservedField i) hmask hmode

/-! ### The decoder's checks are those of `wordFault` -/

theorem decode_of_reservedField {w : Word} (h : w.extractLsb' 12 20 ≠ 0) :
    decode w = .error .reservedBits := by
  rw [decode, if_pos h]

theorem decode_of_legalField {w : Word} (h : w.extractLsb' 12 20 = 0) :
    decode w = decodeOp (w.extractLsb' 0 8).toNat (w.extractLsb' 8 4) := by
  rw [decode, if_neg (not_not.2 h)]

/-- A decoded word is the word of its instruction. -/
theorem eq_encode_of_decode_ok {w : Word} {i : Instr} (h : decode w = .ok i) : w = encode i := by
  by_cases hbits : w.extractLsb' 12 20 = 0
  · rw [decode_of_legalField hbits] at h
    obtain ⟨hop, hmode⟩ := decodeOp_ok h
    rw [word_of_parts hbits, encode, hmode, BitVec.eq_of_toNat_eq hop]
  · rw [decode_of_reservedField hbits] at h
    cases h

theorem wordFault_of_decode_ok {w : Word} {i : Instr} (h : decode w = .ok i) :
    wordFault w = none := by
  rw [eq_encode_of_decode_ok h, wordFault_encode]

theorem wordFault_of_decode_error {w : Word} {e : Illegal} (h : decode w = .error e) :
    wordFault w = some e := by
  by_cases hbits : w.extractLsb' 12 20 = 0
  · rw [decode_of_legalField hbits] at h
    obtain ⟨hmask, rfl⟩ | ⟨mask, hmask, hmode, rfl⟩ := decodeOp_error h
    · exact wordFault_of_reservedOpcode hbits hmask
    · exact wordFault_of_reservedMode hbits hmask hmode
  · rw [decode_of_reservedField hbits] at h
    cases h
    exact wordFault_of_reservedField hbits

theorem decode_error_iff_wordFault (w : Word) (e : Illegal) :
    decode w = .error e ↔ wordFault w = some e := by
  refine ⟨wordFault_of_decode_error, fun hfault => ?_⟩
  cases hdec : decode w with
  | ok i => simp [wordFault_of_decode_ok hdec] at hfault
  | error e' => simpa [wordFault_of_decode_error hdec] using hfault

/-! ### The reserved opcodes -/

/-- The opcodes that R106 calls reserved, as ranges with both ends. -/
def reservedOpcodeRanges : List (Nat × Nat) :=
  [(0x01, 0x0F), (0x13, 0x1F), (0x21, 0x2F), (0x33, 0x3F), (0x46, 0x4F), (0x52, 0x5F),
    (0x61, 0x6F), (0x76, 0xFF)]

/-- Tied to the model's map: the opcodes that it gives no `MODE` mask are the reserved ones. -/
theorem modeMask_eq_none_iff {op : Nat} (h : op < 256) :
    modeMask op = none ↔ ∃ r ∈ reservedOpcodeRanges, r.1 ≤ op ∧ op ≤ r.2 := by
  simp only [reservedOpcodeRanges, List.mem_cons, List.not_mem_nil, exists_eq_or_imp, or_false,
    exists_eq_left]
  rw [modeMask]
  split_ifs <;> simp only [false_iff, true_iff] <;> omega

/-- A word that fails one of the three checks of R106, whichever it is, has a fault. -/
theorem exists_wordFault_of_failedCheck {w : Word}
    (h : w.extractLsb' 12 20 ≠ 0 ∨
      (∃ r ∈ reservedOpcodeRanges, r.1 ≤ (w.extractLsb' 0 8).toNat ∧
        (w.extractLsb' 0 8).toNat ≤ r.2) ∨
      ∃ mask, modeMask (w.extractLsb' 0 8).toNat = some mask ∧
        w.extractLsb' 8 4 &&& ~~~mask ≠ 0) :
    ∃ e, wordFault w = some e := by
  by_cases hbits : w.extractLsb' 12 20 = 0
  · rw [← modeMask_eq_none_iff (w.extractLsb' 0 8).isLt] at h
    obtain hres | hop | ⟨mask, hmask, hmode⟩ := h
    · exact absurd hbits hres
    · exact ⟨_, wordFault_of_reservedOpcode hbits hop⟩
    · exact ⟨_, wordFault_of_reservedMode hbits hmask hmode⟩
  · exact ⟨_, wordFault_of_reservedField hbits⟩

/-- Settles O3: the decoder and `wordFault` make the same checks, and the fields of an instruction's
word pass them all. -/
theorem decodeRefusesIllegalWords : Obligations.DecodeRefusesIllegalWords := by
  refine ⟨decode_error_iff_wordFault, ?_, fun i => ⟨instr_wf i, ?_, ?_⟩⟩
  · rintro w ⟨k, hlo, hhi, hbit⟩
    have hres : w.extractLsb' 12 20 ≠ 0 := fun hzero => by
      simp [(reservedField_eq_zero_iff w).1 hzero k hlo hhi] at hbit
    exact ⟨decode_of_reservedField hres, by
      rw [legalWord, wordFault_of_reservedField hres, Option.isNone_some]⟩
  · rw [legalWord, wordFault_encode, Option.isNone_none]
  · exact (reservedField_eq_zero_iff _).1 (encode_reservedField i)

end Sys2Proof

namespace Sys2Proof.Machine

/-- The engine's turn on a word that the decoder refuses is the error completion alone (R106). -/
theorem step_of_decode_error {s : State} {e : Illegal} (hp : s.pending = [])
    (hv : AtValidation s) (hdec : decode s.engine.lcmd = .error e) :
    step s = .next (failedValidation 5 s.engine.lcmd s) := by
  have hraise : illegalStep s = failedValidation 5 s.engine.lcmd s := by
    rw [illegalStep, raise_validation hv.quiet, regOf_toNat, errorCode]
  rw [← hraise]
  simp [step, turn, engineTurn, hp, hv.phase, hdec]

/-- Settles O6: a word that fails a check of R106 is refused by the decoder, whatever the check. -/
theorem illegalWordCompletesAtOnce : Obligations.IllegalWordCompletesAtOnce := by
  intro s hp hv op reserved hillegal
  obtain ⟨e, hfault⟩ := exists_wordFault_of_failedCheck hillegal
  exact step_of_decode_error hp hv ((decode_error_iff_wordFault _ e).2 hfault)

end Sys2Proof.Machine
end

section
/-! PROOF. Decoder and engine (10_state.md R20, 30_encoding.md R107, 40_command_cycle.md R140): a
decoded word is one command, the engine's turn is one step of it, and every command ends. -/

namespace Sys2Proof

theorem decode_encode (i : Instr) : decode (encode i) = .ok i := by
  cases i with
  | mhRows byteOut align => cases byteOut <;> cases align <;> rfl
  | mhRun colour | mhCode colour => cases colour <;> rfl
  | pngUnfilter f | pngNone f | pngSub f | pngUp f | pngAvg f | pngPaeth f | cmykToRgb f =>
    cases f <;> rfl
  | _ => rfl

/-- Settles O2: a decoded word is its instruction's word, and every instruction's word decodes. -/
theorem decodeIsInverseOfEncode : Obligations.DecodeIsInverseOfEncode := by
  intro w i
  constructor
  · exact eq_encode_of_decode_ok
  · rintro rfl
    exact decode_encode i

/-- Settles O1: each word is evaluated. -/
theorem sampleWordsDecode : Obligations.SampleWordsDecode := by
  unfold Obligations.SampleWordsDecode
  decide

end Sys2Proof

namespace Sys2Proof.Machine

/-! ### The engine's turn -/

/-- An idle engine's step of any command leaves the state. -/
theorem exec_idle {s : State} (i : Instr) (h : s.engine.phase = .idle) : exec i s = .next s := by
  rw [exec_eq_commandStep, commandStep, h]

/-- With a legal word latched, the engine's turn is a step of its command in every phase. -/
theorem engineTurn_of_decode_ok {s : State} {i : Instr} (h : decode s.engine.lcmd = .ok i) :
    engineTurn s = exec i s := by
  rw [engineTurn]
  split
  · rw [exec_idle i ‹_›]
  · rw [h]

/-- Where the engine moves next, a step is its turn with the head of `pending` taken off. -/
theorem step_engineNext {s : State} (h : engineNext s) :
    step s = engineTurn { s with pending := s.pending.tail } := by
  obtain hp | ⟨rest, hp⟩ := h
  · have hs : { s with pending := s.pending.tail } = s := by rw [hp, List.tail_nil, ← hp]
    rw [hs, step, turn, hp]
  · rw [step, turn, hp, List.tail_cons]

theorem step_of_decode_ok {s : State} {i : Instr} (hp : s.pending = [])
    (h : decode s.engine.lcmd = .ok i) : step s = exec i s := by
  rw [step, turn, hp]
  exact engineTurn_of_decode_ok h

theorem hostPoll_eq (rest : List HostEvent) (s : State) :
    hostPoll rest s = { s with
      response := some (.read (readReg s .status) false)
      pending := if s.busy then .engine :: .poll :: rest else rest } := by
  rw [hostPoll, show hostAccess ⟨.w32, regBusAddr s.cfg .status, .read⟩ s =
    hostReadReg .status s from rfl, hostReadReg_eq]

/-- Settles O4: one case per head of the list of events. -/
theorem stepRunsDecodedCommand : Obligations.StepRunsDecodedCommand := by
  refine ⟨fun s i hp _ hd => step_of_decode_ok hp hd, ?_, ?_, ?_, ?_⟩
  · intro s i rest hp _ hd
    rw [step_engineNext (.inr ⟨rest, hp⟩), hp, List.tail_cons]
    exact engineTurn_of_decode_ok hd
  · intro s hp hb
    rw [step, turn, hp]
    simp only [engineTurn, (not_busy_iff s).1 hb]
  · intro s a rest hp
    rw [step, turn, hp]
  · intro s rest hp
    rw [step, turn, hp]
    exact congrArg _ (hostPoll_eq rest s)

theorem withFetchWord_encode (s : State) (i : Instr) :
    s.withFetchWord 32 (encode i).toNat = startWord (encode i) s := by
  rw [State.withFetchWord, Nat.mod_eq_of_lt (encode i).isLt, BitVec.ofNat_toNat,
    BitVec.setWidth_eq]

/-- Settles O5: the started word is the latched one, and it decodes to its instruction. -/
theorem startedWordRuns : Obligations.StartedWordRuns := by
  intro s i
  rw [withFetchWord_encode]
  exact ⟨step_of_decode_ok rfl (decode_encode i), rfl, rfl⟩

/-! ### Every command ends (R140) -/

/-- The block is idle after at most `n` engine steps, at least one, and busy before. -/
def CompletesWithin (n : Nat) (s : State) : Prop :=
  ∃ (k : Nat) (t : State), 1 ≤ k ∧ k ≤ n ∧ Host.Core.run core k s = .next t ∧ t.busy = false ∧
    ∀ (j : Nat) (r : State), j < k → Host.Core.run core j s = .next r → r.busy = true

theorem run_zero (s : State) : Host.Core.run core 0 s = .next s := rfl

theorem completesWithin_of_last {n : Nat} {s t : State} (hb : s.busy = true)
    (hs : step s = .next t) (ht : t.busy = false) : CompletesWithin (n + 1) s := by
  refine ⟨1, t, Nat.le_refl _, by omega, run_succ hs 0, ht, fun j r hj hr => ?_⟩
  obtain rfl : j = 0 := by omega
  cases hr
  exact hb

theorem completesWithin_succ {n : Nat} {s t : State} (hb : s.busy = true)
    (hs : step s = .next t) (ht : CompletesWithin n t) : CompletesWithin (n + 1) s := by
  obtain ⟨k, e, -, hk, hrun, he, hbusy⟩ := ht
  refine ⟨k + 1, e, by omega, by omega, (run_succ hs k).trans hrun, he, fun j r hj hr => ?_⟩
  cases j with
  | zero => cases hr; exact hb
  | succ j => exact hbusy j r (by omega) ((run_succ hs j).symm.trans hr)

/-- From a unit that is due, the command ends within the units that are left. -/
theorem completesWithin_of_atUnit {i : Instr} (left : Nat) :
    ∀ {u : Nat} {s : State}, AtUnit i u s → s.pending = [] → decode s.engine.lcmd = .ok i →
      (shapeOf i s).units - u = left → CompletesWithin left s := by
  induction left with
  | zero =>
    intro u s hu _ _ hl
    have := hu.due
    omega
  | succ left ih =>
    intro u s hu hp hd hl
    have hb : s.busy = true := (busy_iff s).2 (by rw [hu.phase]; simp)
    have hexec := exec_unit hu
    have hstep := (step_of_decode_ok hp hd).trans hexec
    obtain ⟨hlcmd, hpend, -⟩ := exec_keeps hexec
    obtain hidle | ⟨hnext, hshape⟩ := unit_next hu
    · exact completesWithin_of_last hb hstep ((not_busy_iff _).2 hidle)
    · exact completesWithin_succ hb hstep
        (ih hnext (hpend.trans hp) (by rw [hlcmd]; exact hd) (by rw [hshape]; omega))

/-- Settles O26: the validation step, then by induction over the units that are left. -/
theorem commandCompletesWithinItsUnits : Obligations.CommandCompletesWithinItsUnits := by
  intro i s hv hp hd
  have hb : s.busy = true := (busy_iff s).2 (by rw [hv.phase]; simp)
  have hexec := exec_validate (i := i) hv
  have hstep := (step_of_decode_ok hp hd).trans hexec
  obtain ⟨hlcmd, hpend, -⟩ := exec_keeps hexec
  obtain hidle | ⟨hnext, hshape⟩ := validate_next (i := i) hv
  · exact completesWithin_of_last hb hstep ((not_busy_iff _).2 hidle)
  · exact completesWithin_succ hb hstep (completesWithin_of_atUnit _ hnext (hpend.trans hp)
      (by rw [hlcmd]; exact hd) (by rw [hshape, Nat.sub_zero]))

/-! ### Where a step stores (R134, R334) -/

/-- The empty unit of `ADAM7_SCATTER` does nothing (R247). -/
theorem scatterUnit_empty {u : Nat} {s : State} (h : passEmpty s = true) :
    scatterUnit u s = .done s := by
  rw [scatterUnit]
  split
  · rfl
  · rw [if_pos h]

/-- A unit that is due stores inside the output window of its command. -/
theorem unit_outside_output {i : Instr} {u : Nat} {s : State} (h : AtUnit i u s) {a : Nat}
    (ha : ¬inOutput i s a) : storeGet (unitOf i u s).state.mem a = storeGet s.mem a := by
  by_cases he : i = .adam7Scatter ∧ passEmpty s = true
  · obtain ⟨rfl, he⟩ := he
    rw [unitOf, scatterUnit_empty he]
    rfl
  · refine unit_outside h.valid fun hr => ha (unitRegion_inOutput h.due (fun hi => ?_) hr)
    simpa [hi] using he

/-- A step of a command stores inside its output window, or where the host has written. -/
theorem exec_outside_output {i : Instr} {s t : State} (h : exec i s = .next t) :
    sameBytes s t fun a => ¬inOutput i s a ∧ a ∉ s.hazard := by
  rintro a ⟨hout, hhaz⟩
  obtain ⟨-, rfl⟩ | ⟨-, rfl⟩ | ⟨u, hu, rfl⟩ | ⟨-, hp, rfl⟩ := exec_next_cases h
  · rfl
  · rw [(validateStep_keeps _ s).1]
  · rw [(unitStep_stores i u s).1, unit_outside_output hu hout]
  · rw [(hazardStep_keeps _ hp).1]
    refine storeGet_freeAt_outside _ _ fun hmem => ?_
    obtain ⟨rb, n, ho, hlo, hhi, -⟩ | hz := mem_hazardAddrs hmem
    · exact hout ⟨rb, n, ho, hlo, hhi⟩
    · exact hhaz hz

theorem inOutput_pending (i : Instr) (s : State) (p : List HostEvent) (a : Nat) :
    inOutput i { s with pending := p } a ↔ inOutput i s a := by
  have hshape : shapeOf i { s with pending := p } = shapeOf i s := shapeOf_congr rfl rfl
  simp only [inOutput, hshape]

/-- Settles O32: an engine step is a step of the latched command. -/
theorem engineStaysInsideOutputWindow : Obligations.EngineStaysInsideOutputWindow := by
  intro s t i he hd hs a ⟨hout, hhaz⟩
  rw [step_engineNext he, engineTurn_of_decode_ok (by exact hd)] at hs
  exact exec_outside_output hs a ⟨fun h => hout ((inOutput_pending i s _ a).1 h), hhaz⟩

end Sys2Proof.Machine
end

section
/-! PROOF. The host port (10_state.md R22 to R41, R52, 20_memory.md R71 to R81,
70_reset_and_hazards.md R330, R331): reads and writes of registers and of BUF, `START`, and the
resets. -/

namespace Sys2Proof.Machine

/-! ### Registers -/

theorem readReg_response (s : State) (x : Option Response) (r : Reg) :
    readReg { s with response := x } r = readReg s r := by
  cases r <;> rfl

/-- A register other than `CTRL`, `STATUS` and `PAL_CFG` is written only while `BUSY` is 0, if at
all (R22, R23). -/
theorem writeReg_operand {r : Reg} (hctrl : r ≠ .ctrl) (hstatus : r ≠ .status)
    (hpal : r ≠ .palCfg) (v : Word) (s : State) :
    writeReg r v s = if s.busy then s else { s with regs := operandWritten s.regs r v } := by
  cases r
  case ctrl => exact absurd rfl hctrl
  case status => exact absurd rfl hstatus
  case palCfg => exact absurd rfl hpal
  all_goals rfl

theorem writeReg_command {r : Reg} (hr : r ∈ commandRegs) (hp : r ≠ .palCfg) (v : Word)
    (s : State) :
    writeReg r v s = if s.busy then s else { s with regs := operandWritten s.regs r v } :=
  writeReg_operand (by rintro rfl; simp [commandRegs] at hr)
    (by rintro rfl; simp [commandRegs] at hr) hp v s

theorem writeReg_command_busy {r : Reg} (hr : r ∈ commandRegs) (v : Word) {s : State}
    (hb : s.busy = true) : writeReg r v s = s := by
  by_cases hp : r = .palCfg
  · subst hp
    simp [writeReg, hb]
  · rw [writeReg_command hr hp, if_pos hb]

/-- A read-only register ignores a write (R23). -/
theorem writeReg_readOnly {r : Reg} (hr : r ∈ readOnlyRegs) (v : Word) (s : State) :
    writeReg r v s = s := by
  have hops : ∀ r ∈ readOnlyRegs, operandWritten s.regs r v = s.regs := by
    simp [readOnlyRegs, operandWritten]
  rw [writeReg_operand (by rintro rfl; simp [readOnlyRegs] at hr)
    (by rintro rfl; simp [readOnlyRegs] at hr) (by rintro rfl; simp [readOnlyRegs] at hr), hops r hr,
    ite_self]

/-- The three bits that `IN_BIT` has. -/
theorem extractLow3_setWidth (v : Word) : (v.extractLsb' 0 3).setWidth 32 = v &&& 7 := by
  apply BitVec.eq_of_toNat_eq
  rw [BitVec.toNat_and, BitVec.toNat_setWidth, BitVec.extractLsb'_toNat, Nat.shiftRight_zero,
    show (7 : Word).toNat = 2 ^ 3 - 1 from rfl, Nat.and_two_pow_sub_one_eq_mod]
  omega

/-- A written operand register holds the value without its reserved bits. -/
theorem readReg_operandWritten_same {r : Reg} (hr : r ∈ commandRegs) (hp : r ≠ .palCfg) (v : Word)
    (s : State) :
    readReg { s with regs := operandWritten s.regs r v } r =
      if r = .inBit then v &&& 7 else v := by
  by_cases hi : r = .inBit
  · subst hi
    exact extractLow3_setWidth v
  · rw [if_neg hi]
    have hread : ∀ r ∈ commandRegs, r ≠ .palCfg → r ≠ .inBit →
        readReg { s with regs := operandWritten s.regs r v } r = v := by
      simp [commandRegs, readReg, operandWritten]
    exact hread r hr hp hi

theorem readReg_operandWritten_ne {r q : Reg} (h : q ≠ r) (v : Word) (s : State) :
    readReg { s with regs := operandWritten s.regs r v } q = readReg s q := by
  cases r <;> cases q <;> first | rfl | exact absurd rfl h

/-- Settles O7: an idle write is `operandWritten`, a busy one is ignored. -/
theorem commandRegisterWrites : Obligations.CommandRegisterWrites := by
  constructor
  · intro s r v hb hr hp
    have hw : hostWriteReg r v s =
        { s with regs := operandWritten s.regs r v, response := some (.write false) } := by
      rw [hostWriteReg_eq, writeReg_command hr hp, hb]
      rfl
    have hread : ∀ q, readReg (hostWriteReg r v s) q =
        readReg { s with regs := operandWritten s.regs r v } q := by
      intro q
      rw [hw]
      exact readReg_response { s with regs := operandWritten s.regs r v } _ q
    have hsame := (hread r).trans (readReg_operandWritten_same hr hp v s)
    refine ⟨hsame, fun q hq => (hread q).trans (readReg_operandWritten_ne hq v s), ?_, ?_⟩
    · rw [hostReadReg_eq, hsame]
    · rw [hw]
  · intro s r v hb hr
    rw [hostWriteReg_eq, writeReg_command_busy hr v hb]

/-- Settles O8: `ID` and `MEMSIZE` are read-only registers. -/
theorem idAndMemsizeAreFixed : Obligations.IdAndMemsizeAreFixed := by
  intro s v
  refine ⟨by rw [hostReadReg_eq]; rfl, by rw [hostReadReg_eq]; rfl, ?_, ?_⟩
  · rw [hostWriteReg_eq, writeReg_readOnly (by decide)]
  · rw [hostWriteReg_eq, writeReg_readOnly (by decide)]

/-- Settles O9: no register stands at a reserved offset. -/
theorem readOnlyAndReservedIgnoreWrites : Obligations.ReadOnlyAndReservedIgnoreWrites := by
  constructor
  · intro s r v hr
    rw [hostWriteReg_eq, writeReg_readOnly hr]
  · intro s addr v hlo hhi hal
    have hok : regAccessOk .w32 (hostOffset s addr) = true := by simp [regAccessOk, hhi, hal]
    constructor
    · simp [hostAccess, hostWrite, hok, regAt_reserved hlo]
    · simp [hostAccess, hostRead, hok, regAt_reserved hlo]

/-! ### Refused accesses (R71 to R73) -/

theorem accessRefused_iff (s : State) (a : Access) :
    accessRefused s a ↔ regAccessOk a.width (hostOffset s a.addr) = false ∧
      bufAccessOk s a.width (hostOffset s a.addr) = false := by
  have hbase : bufBase = 0x10000 := rfl
  rw [accessRefused]
  obtain ⟨hreg, hlt, hw, hal⟩ | ⟨hreg, hbuf, hlo, hal, hhi⟩ | ⟨hreg, hbuf, hnreg, hnbuf⟩ :=
    access_cases s a.width (hostOffset s a.addr)
  · refine iff_of_false ?_ fun h => by cases hreg.symm.trans h.1
    rintro (⟨-, h⟩ | ⟨h, -⟩ | ⟨h, -⟩)
    · exact h ⟨hw, hal⟩
    · omega
    · omega
  · exact iff_of_false (by omega) fun h => by cases hbuf.symm.trans h.2
  · refine iff_of_true ?_ ⟨hreg, hbuf⟩
    by_cases hlow : hostOffset s a.addr < 0x100
    · exact .inl ⟨hlow, fun h => hnreg ⟨hlow, h⟩⟩
    · exact .inr (by omega)

/-- Settles O10: an access is refused exactly when it is neither to a register nor to BUF. -/
theorem busErrorExactlyWhenRefused : Obligations.BusErrorExactlyWhenRefused := by
  rintro s ⟨w, addr, kind⟩
  rw [accessRefused_iff]
  constructor
  · rintro ⟨hreg, hbuf⟩
    cases kind <;> simp [hostAccess, hostRead, hostWrite, hreg, hbuf]
  · intro h
    by_cases hreg : regAccessOk w (hostOffset s addr) = true
    · cases kind <;> simp [hostAccess, hostRead, hostWrite, hreg]
    · have hbuf : bufAccessOk s w (hostOffset s addr) = true := by simpa [hreg] using h
      cases kind <;> simp [hostAccess, hostRead, hostWrite, hreg, hbuf]

/-! ### BUF (R74, R85) -/

@[simp] theorem bytesOfWord_length (v : Word) (n : Nat) : (bytesOfWord v n).length = n := by
  simp [bytesOfWord]

theorem bytesOfWord_getElem? (v : Word) {n k : Nat} (h : k < n) :
    (bytesOfWord v n)[k]? = some (v.extractLsb' (8 * k) 8) := by
  simp [bytesOfWord, h]

theorem littleEndian_append (xs ys : List Byte) :
    littleEndian (xs ++ ys) = littleEndian xs + 256 ^ xs.length * littleEndian ys := by
  induction xs with
  | nil => simp [littleEndian]
  | cons x xs ih =>
    rw [List.cons_append, littleEndian, littleEndian, ih, List.length_cons, Nat.pow_succ]
    ring

/-- The low bytes of a value, put together again (R74). -/
theorem littleEndian_bytesOfWord (v : Word) (n : Nat) :
    littleEndian (bytesOfWord v n) = v.toNat % 2 ^ (8 * n) := by
  induction n with
  | zero => simp [bytesOfWord, littleEndian, Nat.mod_one]
  | succ n ih =>
    have hsplit : bytesOfWord v (n + 1) = bytesOfWord v n ++ [v.extractLsb' (8 * n) 8] := by
      simp [bytesOfWord, List.range_succ]
    rw [hsplit, littleEndian_append, ih, bytesOfWord_length, littleEndian, littleEndian,
      BitVec.extractLsb'_toNat, Nat.shiftRight_eq_div_pow, Nat.mul_succ, Nat.pow_add, Nat.mod_mul,
      Nat.pow_mul]
    simp

/-- A read of bytes that were all just written gives them back. -/
theorem readRange_of_written {s : State} {a : Nat} {bytes : List Byte}
    (h : ∀ k, k < bytes.length → storeGet s.mem (a + k) = bytes[k]?) :
    readRange s a bytes.length = bytes := by
  refine List.ext_getElem? fun k => ?_
  by_cases hk : k < bytes.length
  · rw [readRange_getElem? _ _ _ _ hk, readBuf, readMem, h k hk, List.getElem?_eq_getElem hk]
    rfl
  · rw [List.getElem?_eq_none (by rw [readRange_length]; omega), List.getElem?_eq_none (by omega)]

/-- Settles O11: the access is `MemWrite` of the low bytes, and they are read back. -/
theorem bufIsLittleEndian : Obligations.BufIsLittleEndian := by
  intro s w addr v href hlo
  rw [accessRefused_iff] at href
  have hreg : regAccessOk w (hostOffset s addr) = false := by
    simp only [regAccessOk, Bool.and_eq_false_iff, decide_eq_false_iff_not]
    omega
  have hbuf : bufAccessOk s w (hostOffset s addr) = true := by simpa [hreg] using href
  have hw : hostAccess ⟨w, addr, .write v⟩ s =
      { hostWriteBuf (hostOffset s addr - bufBase) (bytesOfWord v (widthBytes w)) s with
        response := some (.write false) } := by
    simp [hostAccess, hostWrite, hreg, hbuf]
  have hin : ∀ k, k < widthBytes w → storeGet (hostAccess ⟨w, addr, .write v⟩ s).mem
      (hostOffset s addr - 0x10000 + k) = (bytesOfWord v (widthBytes w))[k]? := by
    intro k hk
    rw [hw]
    exact storeGet_writeBytes_inside _ _ _ _ (by rwa [bytesOfWord_length])
  refine ⟨fun k hk => (hin k hk).trans (bytesOfWord_getElem? v hk), fun a ha => ?_, ?_⟩
  · rw [hw]
    exact storeGet_writeBytes_outside _ _ _ _ (by rwa [bytesOfWord_length])
  · have hrange := readRange_of_written (s := hostAccess ⟨w, addr, .write v⟩ s)
      (a := hostOffset s addr - 0x10000) (bytes := bytesOfWord v (widthBytes w))
      (by rw [bytesOfWord_length]; exact hin)
    rw [bytesOfWord_length] at hrange
    rw [← littleEndian_bytesOfWord, ← hrange]
    have hoff : hostOffset (hostAccess ⟨w, addr, .write v⟩ s) addr = hostOffset s addr := by
      rw [hw]
      rfl
    have hbuf' : bufAccessOk (hostAccess ⟨w, addr, .write v⟩ s) w (hostOffset s addr) = true := by
      rw [hw]
      exact hbuf
    generalize hostAccess ⟨w, addr, .write v⟩ s = t at *
    simp [hostAccess, hostRead, hoff, hreg, hbuf', bufBase]

/-- Settles O12: of the four answers to an access, those to a read. -/
theorem readsHaveNoSideEffect : Obligations.ReadsHaveNoSideEffect := by
  intro s w addr
  simp only [hostAccess, hostRead]
  split
  · rfl
  · split <;> rfl

/-! ### `CTRL` and `STATUS` -/

/-- Settles O13: of the four things a write to `CTRL` can do, the start. -/
theorem startBeginsCommand : Obligations.StartBeginsCommand := by
  intro s v h0 h3 hb
  rw [hostWriteReg_eq, writeReg]
  obtain ⟨h3', -⟩ | ⟨-, -, -, hw⟩ | ⟨-, hb', -⟩ | ⟨-, h0', -⟩ := writeCtrl_cases v s
  · cases h3.symm.trans h3'
  · rw [hw]
    rfl
  · cases hb.symm.trans hb'
  · cases h0.symm.trans h0'

/-- Settles O14: of the four things a write to `CTRL` can do, the last two. -/
theorem startWhileBusyIsIgnored : Obligations.StartWhileBusyIsIgnored := by
  constructor
  · intro s v h3 hb
    rw [hostWriteReg_eq, writeReg]
    obtain ⟨h3', -⟩ | ⟨-, -, hb', -⟩ | ⟨-, -, hw⟩ | ⟨-, -, hb', -⟩ := writeCtrl_cases v s
    · cases h3.symm.trans h3'
    · cases hb.symm.trans hb'
    · rw [hw]
    · cases hb.symm.trans hb'
  · intro s v h3 h0 hb
    rw [hostWriteReg_eq, writeReg]
    obtain ⟨h3', -⟩ | ⟨-, h0', -⟩ | ⟨-, hb', -⟩ | ⟨-, -, -, hw⟩ := writeCtrl_cases v s
    · cases h3.symm.trans h3'
    · cases h0.symm.trans h0'
    · cases hb.symm.trans hb'
    · rw [hw]

/-- After a reset every register has its reset value (R332). -/
theorem readReg_resetOf (cfg : Config) (r : Reg) :
    readReg (State.resetOf cfg) r = resetValue cfg r := by
  have hstatus : statusWord State.reset = 0 := by decide
  have hpal : palCfgWord PaletteConfig.reset = 0x00FF0100 := by decide
  cases r with
  | status => exact hstatus
  | palCfg => exact hpal
  | _ => rfl

theorem readReg_softReset (s : State) (r : Reg) :
    readReg (softReset s) r = resetValue s.cfg r := by
  rw [← readReg_resetOf]
  cases r <;> rfl

theorem readReg_hardwareReset (s : State) (r : Reg) :
    readReg (hardwareReset s) r = resetValue s.cfg r := by
  rw [← readReg_resetOf]
  cases r <;> rfl

/-- Settles O15: the write is a soft reset. -/
theorem softResetKeepsBufAndPalette : Obligations.SoftResetKeepsBufAndPalette := by
  intro s v h3
  have hw : hostWriteReg .ctrl v s = { softReset s with response := some (.write false) } := by
    rw [hostWriteReg_eq, writeReg, writeCtrl, if_pos h3]
  rw [hw]
  exact ⟨fun r => (readReg_response _ _ r).trans (readReg_softReset s r), rfl, rfl, rfl, rfl, rfl⟩

/-- Settles O16: nothing is written in BUF and in the palette after a hardware reset. -/
theorem hardwareResetState : Obligations.HardwareResetState := by
  refine ⟨fun s rest hp => ?_, readReg_resetOf _, rfl, rfl, fun _ => rfl, fun _ => rfl⟩
  refine ⟨hardwareReset { s with pending := rest }, by rw [step, turn, hp], ?_, rfl, rfl,
    fun _ => rfl, fun _ => rfl, rfl⟩
  exact readReg_hardwareReset { s with pending := rest }

/-- The word of `STATUS` over its six fields (R27). -/
theorem statusFields_eq (busy done err aborted irq : Bool) (code : BitVec 4) :
    (BitVec.ofBool busy).setWidth 32
      ||| ((BitVec.ofBool done).setWidth 32 <<< 1)
      ||| ((BitVec.ofBool err).setWidth 32 <<< 2)
      ||| ((BitVec.ofBool aborted).setWidth 32 <<< 3)
      ||| ((BitVec.ofBool irq).setWidth 32 <<< 4)
      ||| (code.setWidth 32 <<< 8) =
    (0 : BitVec 20) ++ code ++ (0 : BitVec 3) ++ BitVec.ofBool irq ++ BitVec.ofBool aborted ++
      BitVec.ofBool err ++ BitVec.ofBool done ++ BitVec.ofBool busy := by
  revert busy done err aborted irq code
  decide

theorem irq_of_writeCtrl {v : Word} {s : State}
    (h : v.getLsbD 2 = false ∨ (v.getLsbD 0 = true ∧ s.busy = false)) :
    (writeCtrl v s).irq = false := by
  obtain ⟨-, hw⟩ | ⟨-, -, -, hw⟩ | ⟨-, hb, hw⟩ | ⟨-, h0, -, hw⟩ := writeCtrl_cases v s <;> rw [hw]
  · rfl
  · simp [State.irq, StatusFlags.reset]
  · have h2 : v.getLsbD 2 = false := h.resolve_right fun h' => by cases hb.symm.trans h'.2
    rw [State.irq, h2, Bool.false_and]
  · have h2 : v.getLsbD 2 = false := h.resolve_right fun h' => by cases h0.symm.trans h'.1
    rw [State.irq, h2, Bool.false_and]

/-- Settles O17: the fields of the word, and the interrupt after each write that takes it down. -/
theorem interruptLevelAndStatusBits : Obligations.InterruptLevelAndStatusBits := by
  have hctrl : ∀ (s : State) (v : Word),
      (hostWriteReg .ctrl v s).irq = (writeCtrl v s).irq := fun s v => by
    rw [hostWriteReg_eq]
    rfl
  refine ⟨fun s => ?_, fun s v h1 h2 => ?_, fun s v h2 => ?_, fun s v h0 hb => ?_, fun _ => rfl⟩
  · have hbusy : s.busy = decide (s.engine.phase ≠ .idle) := by
      rw [Bool.eq_iff_iff, busy_iff, decide_eq_true_eq]
    rw [← hbusy]
    exact statusFields_eq _ _ _ _ _ _
  · rw [hostWriteReg_eq]
    simp [State.irq, writeReg, flagsWritten, h1, h2]
  · rw [hctrl, irq_of_writeCtrl (.inl h2)]
  · rw [hctrl, irq_of_writeCtrl (.inr ⟨h0, hb⟩)]

/-- Settles O18: the write is `acknowledge`. -/
theorem statusWriteClearsFlags : Obligations.StatusWriteClearsFlags := by
  intro s v
  rw [hostWriteReg_eq]
  rfl

/-- A size that is 1 to 256, as a number (R41). -/
theorem palSize_legal_iff (v : Word) :
    (1 ≤ v.extractLsb' 0 9 ∧ v.extractLsb' 0 9 ≤ 256) ↔
      ¬(v.toNat % 512 = 0 ∨ 256 < v.toNat % 512) := by
  rw [BitVec.le_def, BitVec.le_def, BitVec.extractLsb'_toNat, Nat.shiftRight_zero]
  simp
  omega

/-- Settles O19: the write is ignored, or is `palCfgWritten`. -/
theorem paletteConfigWrite : Obligations.PaletteConfigWrite := by
  intro s v hb
  rw [hostWriteReg_eq, writeReg, hb, Bool.false_or]
  cases hl : s.palCfg.locked with
  | true => rfl
  | false =>
    simp only [palCfgWritten, palSize_legal_iff, hl, ite_not]
    rfl

end Sys2Proof.Machine
end

section
/-! PROOF. The command cycle (40_command_cycle.md R122 to R126, R133, R135, 47_palette.md R269): each
way a validation can fail, the validation that passes, and the four ends of a unit. -/

namespace Sys2Proof.Machine

/-! ### A validation that fails -/

theorem exec_failedValidation {i : Instr} {s : State} {kind : ErrorKind} {v : Nat}
    (hv : AtValidation s)
    (h : firstError (shapeOf i s) s = some (validationError s kind v)) :
    exec i s = .next (failedValidation (errorCode kind) (regOf v) s) := by
  rw [exec_validate hv, ← raise_validation hv.quiet]
  simp only [validateStep, h]

/-- The first zero register is the missing one (R105, R135). -/
theorem missing_some {i : Instr} {s : State} {pre post : List Reg} {r : Reg}
    (hsplit : mustBeOne i = pre ++ r :: post) (hpre : ∀ q ∈ pre, readReg s q ≠ 0)
    (hr : readReg s r = 0) :
    missingParameter (shapeOf i s) s = some (validationError s .missingParameter (regOffset r)) := by
  have hnone : (pre.map fun q => (q, readReg s q)).find? (fun p => p.2 == 0) = none := by
    rw [List.find?_eq_none]
    intro p hp
    obtain ⟨q, hq, rfl⟩ := List.mem_map.1 hp
    simpa using hpre q hq
  have hfind : (shapeOf i s).required.find? (fun p => p.2 == 0) = some (r, readReg s r) := by
    rw [shape_required, hsplit, List.map_append, List.find?_append, hnone, Option.none_or,
      List.map_cons, List.find?_cons_of_pos (by simpa using hr)]
  rw [missingParameter, hfind]
  rfl

theorem regOffset_lt (r : Reg) : regOffset r < 2 ^ 32 := by
  cases r <;> decide

/-- Settles O20: the missing parameter is the first check. -/
theorem missingParameterFirst : Obligations.MissingParameterFirst := by
  intro i s pre r post hv hsplit hpre hr
  rw [← regOf_of_lt (regOffset_lt r)]
  refine exec_failedValidation (kind := .missingParameter) hv ?_
  rw [firstError, missing_some hsplit hpre hr]
  rfl

/-- The first parameter out of its range, behind legal ones (R104). -/
theorem unsupported_some {sh : Shape} {s : State} {pre post : List (Nat × Bool)} {v : Nat}
    (hsplit : sh.params = pre ++ (v, false) :: post) (hpre : ∀ p ∈ pre, p.2 = true) :
    unsupportedParameter sh s = some (validationError s .unsupported v) := by
  have hnone : pre.find? (fun p => !p.2) = none := by
    rw [List.find?_eq_none]
    intro p hp
    simp [hpre p hp]
  rw [unsupportedParameter, hsplit, List.find?_append, hnone, Option.none_or,
    List.find?_cons_of_pos rfl]
  rfl

theorem exec_unsupported {i : Instr} {s : State} {pre post : List (Nat × Bool)} {v : Nat}
    (hv : AtValidation s) (hreq : requiredPresent i s)
    (hsplit : (shapeOf i s).params = pre ++ (v, false) :: post) (hpre : ∀ p ∈ pre, p.2 = true) :
    exec i s = .next (failedValidation 3 (regOf v) s) := by
  refine exec_failedValidation (kind := .unsupported) hv ?_
  rw [firstError, missing_none hreq, unsupported_some hsplit hpre]
  rfl

/-- The LZW and the PNG commands have one parameter, `PARAM[3:0]`. -/
theorem shape_params_low {i : Instr} (s : State)
    (h : i = .lzwDecode ∨ fixedFilter i ≠ none ∨ ∃ first, i = .pngUnfilter first) :
    ∃ legal, (shapeOf i s).params = [((s.regs.param.extractLsb' 0 4).toNat, legal)] := by
  cases i
  case lzwDecode | pngUnfilter | pngSub | pngUp | pngAvg | pngPaeth | pngNone => exact ⟨_, rfl⟩
  all_goals simp [fixedFilter] at h

/-- The Adam7 commands have two, the pass before the pixel size. -/
theorem shape_params_adam7 {i : Instr} (s : State) (h : i = .adam7Geom ∨ i = .adam7Scatter) :
    (shapeOf i s).params =
      [(passOf s, passLegal (passOf s)), (bitsOf s, bitsLegal (bitsOf s))] := by
  obtain rfl | rfl := h <;> rfl

theorem regOf_toNat_narrow {w : Nat} (v : BitVec w) (hw : w ≤ 32) :
    regOf v.toNat = v.setWidth 32 := by
  rw [regOf_of_lt (v.isLt.trans_le (Nat.pow_le_pow_right (by decide) hw)), BitVec.ofNat_toNat]

/-- Settles O21: the first illegal parameter of the command's list. -/
theorem parameterOutOfRange : Obligations.ParameterOutOfRange := by
  intro i s hv hreq
  refine ⟨fun hi hbad => ?_, fun hi hpass => ?_, fun hi hpass hbad => ?_⟩
  · obtain ⟨legal, hparams⟩ := shape_params_low s hi
    have hlegal : legal = false := by
      rw [← shape_params, hparams] at hbad
      simpa using hbad
    rw [← regOf_toNat_narrow _ (by decide)]
    exact exec_unsupported (pre := []) hv hreq (by rw [hparams, hlegal]; rfl) (by simp)
  · have hzero : passOf s = 0 := by rw [passOf, hpass]; rfl
    exact exec_unsupported (pre := []) hv hreq
      (by rw [shape_params_adam7 s hi, hzero]; rfl) (by simp)
  · have hparams := shape_params_adam7 s hi
    have hlegal : passLegal (passOf s) = true := by
      have hne : passOf s ≠ 0 := fun h => hpass (BitVec.eq_of_toNat_eq h)
      have hlt : passOf s < 2 ^ 3 := (s.regs.param.extractLsb' 0 3).isLt
      exact (passLegal_iff _).2 ⟨by omega, by omega⟩
    have hbits : bitsLegal (bitsOf s) = false := by
      rw [← shape_params, hparams] at hbad
      simpa [hlegal] using hbad
    rw [← regOf_toNat_narrow _ (by decide)]
    exact exec_unsupported (pre := [(passOf s, true)]) hv hreq
      (by rw [hparams, hlegal, hbits]; rfl) (by simp)

theorem shape_prior (i : Instr) (s : State) : (shapeOf i s).prior = true ↔
    i ∈ [.pngUnfilter false, .pngNone false, .pngSub false, .pngUp false, .pngAvg false,
      .pngPaeth false] := by
  cases i with
  | pngUnfilter f | pngNone f | pngSub f | pngUp f | pngAvg f | pngPaeth f =>
    cases f <;> simp [shapeOf, pngShape]
  | _ => simp [shapeOf, mhRowsShape, mhRunShape, lzwShape, runLengthShape, adam7GeomShape,
      adam7ScatterShape, pixelShape, palLoadShape]

/-- Settles O22: the tables of the shapes, and the window checks behind the two that pass. -/
theorem addressFaultFirst : Obligations.AddressFaultFirst := by
  constructor
  · intro i s
    exact ⟨by cases i <;> rfl, shape_input i s, shape_prior i s⟩
  · intro i s code hv hreq hparams hfails hfirst
    have hle := (windowFails_le hfails).2
    rw [← regOf_of_lt (n := code) (by omega)]
    refine exec_failedValidation (kind := .addressFault) hv ?_
    rw [firstError, missing_none hreq, unsupported_none hparams, address_some hfails hfirst]
    rfl

/-- The lock is the last check (R122 step 5). -/
theorem firstError_locked {i : Instr} {s : State} {op : Nat} (hreq : requiredPresent i s)
    (hparams : paramsLegal i s) (hwin : ∀ c, ¬windowFails (shapeOf i s) s c)
    (hlock : s.palCfg.locked = true) (hop : (shapeOf i s).lockCheck = some op) :
    firstError (shapeOf i s) s = some (validationError s .paletteLocked op) := by
  rw [firstError, missing_none hreq, unsupported_none hparams, address_none hwin, paletteLocked,
    if_pos hlock, hop]
  rfl

/-- Without an output and a prior window only the input window is checked. -/
theorem windowFails_input_only {sh : Shape} {s : State} {c : Nat} (ho : sh.output = none)
    (hp : sh.prior = false) (h : windowFails sh s c) : c = 1 := by
  obtain ⟨hlo, hhi⟩ := windowFails_le h
  interval_cases c <;> simp [windowFails, ho, hp] at h ⊢

/-- Settles O23: neither command has another check that fails. -/
theorem attachedPaletteRefusesWrites : Obligations.AttachedPaletteRefusesWrites := by
  constructor
  · intro s hv hlock
    refine exec_failedValidation (kind := .paletteLocked) (v := 0x70) hv
      (firstError_locked (by simp [requiredPresent, mustBeOne]) trivial (fun c hc => ?_) hlock rfl)
    obtain rfl := windowFails_input_only rfl rfl hc
    simp [windowFails, shapeOf] at hc
  · intro s hv hlock hin
    refine exec_failedValidation (kind := .paletteLocked) (v := 0x73) hv
      (firstError_locked (by simp [requiredPresent, mustBeOne]) trivial (fun c hc => ?_) hlock rfl)
    obtain rfl := windowFails_input_only rfl rfl hc
    exact hin hc

/-! ### A validation that passes -/

theorem shape_lockCheck {i : Instr} (s : State) (hw : i ≠ .palWrite) (hl : i ≠ .palLoad) :
    (shapeOf i s).lockCheck = none := by
  cases i
  case palWrite => exact absurd rfl hw
  case palLoad => exact absurd rfl hl
  all_goals rfl

theorem shape_lzwSize (i : Instr) (s : State) :
    (shapeOf i s).lzwSize = if i = .lzwDecode then some (minsizeOf s) else none := by
  cases i <;> rfl

theorem firstError_of_passes {i : Instr} {s : State} (hreq : requiredPresent i s)
    (hparams : paramsLegal i s) (hwin : ∀ c, ¬windowFails (shapeOf i s) s c)
    (hlock : (i = .palWrite ∨ i = .palLoad) → s.palCfg.locked = false) :
    firstError (shapeOf i s) s = none := by
  have hpal : paletteLocked (shapeOf i s) s = none := by
    rw [paletteLocked]
    split
    · rename_i hl
      rw [shape_lockCheck s (fun hi => by simp [hlock (.inl hi)] at hl)
        (fun hi => by simp [hlock (.inr hi)] at hl)]
      rfl
    · rfl
  rw [firstError, missing_none hreq, unsupported_none hparams, address_none hwin, hpal]
  rfl

theorem finishAborted_eq {s : State} (h : s.hazard = []) :
    finishAborted s = { s with
      status := { s.status with done := true, aborted := true }
      engine := { s.engine with phase := .idle, abortReq := false, lzw := none } } := by
  obtain ⟨⟩ := s
  subst h
  rfl

/-- The units and the total of `ADAM7_SCATTER` in a pass with this geometry (R123, R241). -/
theorem scatterShape_geometry {s : State} {g : PassGeometry} (h : adam7Pass (passOf s) = some g) :
    let cols := passCols g s.regs.width.toNat
    let rows := passRows g s.regs.height.toNat
    colsOf s = cols ∧ rowsOf s = rows ∧ (shapeOf .adam7Scatter s).total = rows ∧
      (shapeOf .adam7Scatter s).units = (if cols = 0 ∨ rows = 0 then 1 else rows) ∧
      ((shapeOf .adam7Scatter s).emptyUnit = true ↔ cols = 0 ∨ rows = 0) := by
  simp only [shapeOf, adam7ScatterShape, passEmpty, colsOf_eq h, rowsOf_eq h, Bool.or_eq_true,
    beq_iff_eq, and_self]

/-- The pass table of R240, a pass with the four numbers of its geometry. -/
def passTable : List (Nat × Nat × Nat × Nat × Nat) :=
  [(1, 0, 0, 8, 8), (2, 0, 4, 8, 8), (3, 4, 0, 8, 4), (4, 0, 2, 4, 4), (5, 2, 0, 4, 2),
    (6, 0, 1, 2, 2), (7, 1, 0, 2, 1)]

/-- Tied to the model's table: both have the same rows. -/
theorem mem_passTable_iff {pass sr sc ri ci : Nat} :
    (pass, sr, sc, ri, ci) ∈ passTable ↔ adam7Pass pass = some ⟨sr, sc, ri, ci⟩ := by
  constructor
  · intro h
    simp only [passTable, List.mem_cons, Prod.mk.injEq, List.not_mem_nil, or_false] at h
    obtain ⟨rfl, rfl, rfl, rfl, rfl⟩ | ⟨rfl, rfl, rfl, rfl, rfl⟩ | ⟨rfl, rfl, rfl, rfl, rfl⟩ |
      ⟨rfl, rfl, rfl, rfl, rfl⟩ | ⟨rfl, rfl, rfl, rfl, rfl⟩ | ⟨rfl, rfl, rfl, rfl, rfl⟩ |
      ⟨rfl, rfl, rfl, rfl, rfl⟩ := h <;> rfl
  · intro h
    obtain ⟨rfl, hg⟩ | ⟨rfl, hg⟩ | ⟨rfl, hg⟩ | ⟨rfl, hg⟩ | ⟨rfl, hg⟩ | ⟨rfl, hg⟩ | ⟨rfl, hg⟩ :=
      adam7Pass_cases h <;> cases hg <;> decide

/-- Settles O24: the tables of the shapes, and `prepare` field by field. -/
theorem validationPasses : Obligations.ValidationPasses := by
  constructor
  · intro i s units total
    cases i with
    | adam7Scatter =>
      rintro pass sr sc ri ci hmem rfl
      exact scatterShape_geometry (mem_passTable_iff.1 hmem)
    | _ => exact ⟨rfl, rfl, rfl⟩
  · intro i s hv hreq hparams hwin hlock b ready
    have hready : prepare (shapeOf i s) s = ready := by
      rw [prepare_eq, regOf_of_lt (shape_total_lt i s), shape_input, shape_byte, shape_lzwSize]
      simp only [ready, setupCursor, alignUp, ite_and, ite_not]
      congr 2
      by_cases hi : i = .lzwDecode <;> simp [hi, minsizeOf]
    have hnone := firstError_of_passes hreq hparams hwin hlock
    rw [exec_validate hv]
    obtain ⟨e, he, -⟩ | ⟨-, habort, hs⟩ | ⟨-, habort, hs⟩ := validateStep_cases (shapeOf i s) s
    · cases hnone.symm.trans he
    · rw [hs, hready, habort, if_pos rfl, finishAborted_eq (s := ready) hv.quiet]
    · rw [hs, hready, habort, if_neg Bool.false_ne_true]

/-! ### The ends of a unit -/

/-- What a completed unit leaves as it is. -/
theorem unit_done_keeps {i : Instr} {u : Nat} {s s1 : State} (h : unitOf i u s = .done s1) :
    s1.status = s.status ∧ s1.regs = s.regs ∧ s1.errors = s.errors ∧
      s1.engine = { s.engine with cursor := s1.engine.cursor } ∧
      s1.results.progDone = s.results.progDone ∧ s1.results.progTotal = s.results.progTotal := by
  have hs1 := unit_done h
  exact ⟨by rw [hs1], by rw [hs1], by rw [hs1], by rw [hs1], by rw [hs1], by rw [hs1]⟩

/-- Write-back of the cursor, or not (R125, R126, R132). -/
theorem writeBackIf_eq (sh : Shape) (s : State) :
    writeBackIf sh s = { s with
      regs := if sh.input then writtenBack s.engine.cursor s.engine.stop s.regs else s.regs } := by
  rw [writeBackIf]
  split <;> rfl

/-- Settles O25: a unit raises, or completes and is followed by one of three things. -/
theorem unitStepEndsInOneOfFourWays : Obligations.UnitStepEndsInOneOfFourWays := by
  intro i u s hu
  have hdue := hu.due
  refine ⟨_, exec_unit hu, ?_⟩
  cases ho : unitOf i u s with
  | raised s1 e =>
    obtain ⟨hs1, hkind, hres⟩ := unit_raised ho
    rw [unitStep_raised ho]
    refine .inl ⟨?_, rfl, rfl, ?_, ?_, ?_, ?_, fun hi => ?_⟩
    · rw [raise_status, hkind, hs1]
      rfl
    · rw [raise_regs, hs1]
    · rw [raise_pal, hs1]
    · rw [raise_palCfg, hs1]
    · rw [raise_results, hs1]
    · rw [raise_results]
      exact congrArg _ (hres hi)
  | done s1 =>
    obtain ⟨hstatus, hregs, herr, heng, hdone, htotal⟩ := unit_done_keeps ho
    have habort : s1.engine.abortReq = s.engine.abortReq := by rw [heng]
    rw [unitStep_done ho]
    refine .inr ⟨?_, ?_, ?_, ?_⟩
    · rw [afterUnit_eq]
      exact herr
    · rw [afterUnit_eq, ← hdone]
      rfl
    · rw [afterUnit_eq]
      exact htotal
    obtain ⟨hlast, hs⟩ | ⟨hnot, hab, hs⟩ | ⟨hnot, hab, hs⟩ := afterUnit_cases (shapeOf i s) u
      { s1 with epoch := s1.epoch + 1, results := bumpProgress (shapeOf i s) s1.results }
    all_goals rw [hs]
    · rw [writeBackIf_eq, shape_input]
      refine .inl ⟨hlast, rfl, rfl, ?_, ?_⟩
      · rw [← hstatus]
        rfl
      · rw [← hregs]
        rfl
    · rw [writeBackIf_eq, shape_input]
      refine .inr (.inl ⟨by omega, habort.symm.trans hab, rfl, rfl, ?_, ?_⟩)
      · rw [← hstatus]
        rfl
      · rw [← hregs]
        rfl
    · exact .inr (.inr ⟨by omega, habort.symm.trans hab, rfl, hstatus, hregs⟩)

end Sys2Proof.Machine
end

section
/-! PROOF. Frames (40_command_cycle.md R134, R136, R137, 47_palette.md R269): what a step of a command
leaves of the registers, of the palette and of BUF. -/

namespace Sys2Proof.Machine

/-! ### Registers and palette -/

/-- The operand registers differ at most in the three of the cursor (R132). -/
def SameButCursor (s t : State) : Prop :=
  t.regs = { s.regs with
    srcAddr := t.regs.srcAddr, srcLen := t.regs.srcLen, inBit := t.regs.inBit }

theorem SameButCursor.of_eq {s t : State} (h : t.regs = s.regs) : SameButCursor s t := by
  rw [SameButCursor, h]

/-- After a unit only the write-back touches the registers, and only where there is input. -/
theorem afterUnit_regs (sh : Shape) (u : Nat) (s : State) :
    SameButCursor s (afterUnit sh u s) ∧ (sh.input = false → (afterUnit sh u s).regs = s.regs) := by
  have hback : SameButCursor s (writeBackIf sh s) ∧
      (sh.input = false → (writeBackIf sh s).regs = s.regs) := by
    rw [writeBackIf]
    split
    · exact ⟨rfl, fun h => by simp [h] at *⟩
    · exact ⟨rfl, fun _ => rfl⟩
  obtain ⟨-, hs⟩ | ⟨-, -, hs⟩ | ⟨-, -, hs⟩ := afterUnit_cases sh u s <;> rw [hs]
  · exact hback
  · exact hback
  · exact ⟨rfl, fun _ => rfl⟩

theorem unitStep_regs (i : Instr) (u : Nat) (s : State) :
    SameButCursor s (unitStep (shapeOf i s) (unitOf i) u s) ∧
      (readsInput i = false → (unitStep (shapeOf i s) (unitOf i) u s).regs = s.regs) := by
  cases ho : unitOf i u s with
  | raised s1 e =>
    have hregs : s1.regs = s.regs := by rw [(unit_raised ho).1]
    rw [unitStep_raised ho]
    exact ⟨.of_eq hregs, fun _ => hregs⟩
  | done s1 =>
    obtain ⟨-, hregs, -⟩ := unit_done_keeps ho
    rw [unitStep_done ho, ← shape_input i s]
    obtain ⟨hsame, hnone⟩ := afterUnit_regs (shapeOf i s) u
      { s1 with epoch := s1.epoch + 1, results := bumpProgress (shapeOf i s) s1.results }
    rw [SameButCursor] at hsame ⊢
    exact ⟨by rw [hsame, ← hregs], fun hi => (hnone hi).trans hregs⟩

/-- A unit step leaves the palette, its configuration and the results unless its command is one of
those that write them. -/
theorem unitStep_special (i : Instr) (u : Nat) (s : State) :
    let t := unitStep (shapeOf i s) (unitOf i) u s
    (i ≠ .palWrite → i ≠ .palLoad → i ≠ .palReset → t.pal = s.pal) ∧
    (i ≠ .palAttach → i ≠ .palReset → t.palCfg = s.palCfg) ∧
    ((∀ c, i ≠ .mhRun c) → (∀ c, i ≠ .mhCode c) → i ≠ .lzwDecode → i ≠ .adam7Geom →
      i ≠ .palRead → t.results.result0 = s.results.result0 ∧
        t.results.result1 = s.results.result1 ∧ t.results.result2 = s.results.result2 ∧
        t.results.result3 = s.results.result3) := by
  cases ho : unitOf i u s with
  | raised s1 e =>
    rw [unitStep_raised ho, (unit_raised ho).1]
    exact ⟨fun _ _ _ => rfl, fun _ _ => rfl, fun _ _ _ _ _ => ⟨rfl, rfl, rfl, rfl⟩⟩
  | done s1 =>
    obtain ⟨hpal, hcfg, hres⟩ := unit_done_special ho
    rw [unitStep_done ho, afterUnit_eq]
    refine ⟨hpal, hcfg, fun h1 h2 h3 h4 h5 => ?_⟩
    have hs1 := hres h1 h2 h3 h4 h5
    simp only [bumpProgress]
    rw [hs1]
    exact ⟨rfl, rfl, rfl, rfl⟩

theorem shape_loads {i : Instr} (s : State) (h : i ≠ .palLoad) : (shapeOf i s).loads = 0 := by
  cases i
  case palLoad => exact absurd rfl h
  all_goals rfl

/-- Settles O28: one case per kind of step. -/
theorem commandStepRegisterFrame : Obligations.CommandStepRegisterFrame := by
  intro i s t h
  obtain ⟨hlcmd, hpend, hcfg, hirq, hresp, hgen⟩ := exec_keeps h
  refine ⟨hcfg, hirq, hlcmd, hpend, hresp, hgen, ?_⟩
  obtain ⟨-, rfl⟩ | ⟨-, rfl⟩ | ⟨u, -, rfl⟩ | ⟨hz, hp, rfl⟩ := exec_next_cases h
  · exact ⟨rfl, fun _ _ => rfl, fun _ _ _ => rfl, fun _ _ => rfl,
      fun _ _ _ _ _ _ => ⟨rfl, rfl, rfl, rfl⟩⟩
  · obtain ⟨-, hpal, hpalCfg, hregs, -, hres⟩ := validateStep_keeps (shapeOf i s) s
    refine ⟨SameButCursor.of_eq hregs, fun _ _ => hregs, fun _ _ _ => hpal, fun _ _ => hpalCfg,
      fun _ _ _ _ _ _ => ?_⟩
    rw [hres]
    exact ⟨rfl, rfl, rfl, rfl⟩
  · obtain ⟨hsame, hregs⟩ := unitStep_regs i u s
    obtain ⟨hpal, hpalCfg, hres⟩ := unitStep_special i u s
    exact ⟨hsame, fun hi _ => hregs hi, hpal, hpalCfg, fun _ => hres⟩
  · obtain ⟨-, hpal, hpalCfg, hregs⟩ := hazardStep_keeps (shapeOf i s) hp
    refine ⟨hregs, fun _ h => absurd h hz, fun _ hl _ => ?_, fun _ _ => hpalCfg,
      fun h => absurd h hz⟩
    rw [hpal, shape_loads s hl]
    exact ite_self _

/-! ### BUF -/

/-- Without a hazard a step stores at most where its unit may. -/
theorem exec_outside_region {i : Instr} {s t : State} (h : exec i s = .next t)
    (hq : s.hazard = []) {a : Nat} (ha : ∀ u, s.engine.phase = .run u → ¬unitRegion i u s a) :
    storeGet t.mem a = storeGet s.mem a := by
  obtain ⟨-, rfl⟩ | ⟨-, rfl⟩ | ⟨u, hu, rfl⟩ | ⟨hz, -, -⟩ := exec_next_cases h
  · rfl
  · rw [(validateStep_keeps _ s).1]
  · rw [(unitStep_stores i u s).1, unit_outside hu.valid (ha u hu.phase)]
  · exact absurd hq hz

theorem unitRegion_storesNothing {i : Instr} (h : storesNothing i = true) (u : Nat) (s : State)
    (a : Nat) : ¬unitRegion i u s a := by
  cases i <;> simp only [storesNothing, Bool.false_eq_true] at h
  all_goals
    rintro ⟨rb, hrb, -⟩
    cases hrb

/-- Settles O29: none of these commands has a region beyond its one output. -/
theorem singleUnitStoreFrame : Obligations.SingleUnitStoreFrame := by
  refine ⟨fun i s t hi hq h a _ => ?_, fun i s t hv h a _ => ?_, fun i rb s t hi hq h a ha => ?_⟩
  · exact exec_outside_region h hq fun u _ => unitRegion_storesNothing hi u s a
  · refine exec_outside_region h hv.quiet fun u hu => ?_
    cases hv.phase.symm.trans hu
  · refine exec_outside_region h hq fun u _ hr => ha ?_
    obtain ⟨rfl, rfl⟩ | ⟨rfl | ⟨planar, rfl⟩, rfl⟩ := hi <;> exact hr

/-- The region of a row command's unit is its output row. -/
theorem inRow_of_unitRegion {i : Instr} {u rb : Nat} {s : State} {a : Nat}
    (hrb : rowBytes s i = some rb) (h : unitRegion i u s a) : inRow rb u s a := by
  cases i
  case lzwDecode | cmykToRgb | palLookup | adam7Scatter => cases hrb
  all_goals
    obtain ⟨rb', hrb', hin⟩ := h
    cases hrb.symm.trans hrb'
    exact hin

/-- Settles O30: the region of unit `u` is output row `u`. -/
theorem rowCommandFrame : Obligations.RowCommandFrame := by
  intro i u rb s t hrb hp hq h a ha
  refine exec_outside_region h hq fun u' hu hr => ha ?_
  cases hp.symm.trans hu
  exact inRow_of_unitRegion hrb hr

/-- Settles O31: the region of unit `k` is the full-image row of reduced row `k`. -/
theorem scatterFrame : Obligations.ScatterFrame := by
  intro k g s t hg hp hq h a ha
  refine exec_outside_region h hq fun u hu hr => ha ?_
  cases hp.symm.trans hu
  obtain ⟨g', hg', hin⟩ := hr
  cases hg.symm.trans hg'
  exact hin

end Sys2Proof.Machine
end

section
/-! PROOF. Modified Huffman (41_huffman_mh.md R155 to R162): what `MH_CODE`, `MH_RUN` and `MH_ROWS`
decode, refuse, and do where the input ends. -/

namespace Sys2Proof.Machine

/-! ### `MH_CODE` and `MH_RUN` -/

theorem exec_mhCode_done {colour : Colour} {s : State} {x : MhEntry} {b : Nat}
    (h : AtUnit (.mhCode colour) 0 s)
    (hd : decodeCode s colour 0 0 s.engine.cursor = .ok (x, b)) :
    exec (.mhCode colour) s = .next (completed true
      { s with
        results := { s.results with
          result0 := regOf x.run
          result1 := regOf x.len
          result2 := if x.kind = .makeup then 1 else 0 }
        engine := { s.engine with cursor := b } }) := by
  refine exec_single_done h rfl rfl ?_
  simp only [unitOf, mhCodeUnit, hd]
  cases x.kind <;> rfl

theorem exec_mhCode_refused {colour : Colour} {s : State} {e : ErrInfo}
    (h : AtUnit (.mhCode colour) 0 s)
    (hd : decodeCode s colour 0 0 s.engine.cursor = .error e) :
    exec (.mhCode colour) s = .next (raise e { s with epoch := s.epoch + 1 }) :=
  exec_raised h (by simp only [unitOf, mhCodeUnit, hd])

/-- Settles O33: the matcher on a code word of the table, and on none. -/
theorem mhCodeDecodesTable : Obligations.MhCodeDecodesTable := by
  constructor
  · intro colour s x hu hc hx hs
    exact exec_mhCode_done hu (decodeCode_spelled hc hx hs)
  · intro colour s bits hu _ hl hs hn
    exact exec_mhCode_refused hu (decodeCode_unmatched hl hs hn)

theorem exec_mhRun_refused {colour : Colour} {s : State} {e : ErrInfo}
    (h : AtUnit (.mhRun colour) 0 s)
    (hd : decodeRun s colour 0 0 s.engine.cursor = .error e) :
    exec (.mhRun colour) s = .next (raise e { s with epoch := s.epoch + 1 }) :=
  exec_raised h (by simp only [unitOf, mhRunUnit, hd])

/-- Settles O34: a legal run, a second make-up code, and a code that is refused behind make-up
codes. -/
theorem mhRunAddsCodes : Obligations.MhRunAddsCodes := by
  refine ⟨?_, ?_, ?_⟩
  · intro colour s r hu hc hr hs
    refine exec_single_done hu rfl rfl ?_
    simp only [unitOf, mhRunUnit, decodeRun_spelled hc hr hs, Nat.add_sub_cancel_left]
  · intro colour s x y hu hc hch hx hxk hy hyk hs
    exact exec_mhRun_refused hu (decodeRun_chained hc hch hx hxk hy hyk hs)
  · intro colour s makeups bits hu hc hm b hl hs hn
    obtain ⟨hs1, hs2⟩ := spellsMSB_append.1 hs
    exact exec_mhRun_refused hu (decodeRun_refused hc hm hs1 (decodeCode_unmatched hl hs2 hn))

/-! ### `MH_ROWS` -/

theorem exec_mhRows_done {byteOut align : Bool} {u b : Nat} {s : State} {pix : List Bool}
    (h : AtUnit (.mhRows byteOut align) u s)
    (hd : decodeRow align s u s.engine.cursor = .ok (pix, b)) :
    exec (.mhRows byteOut align) s =
      .next (rowDone (.mhRows byteOut align) u (mhRowBytesOf byteOut s pix) b s) :=
  exec_row_done (rb := mhRowBytes byteOut s) h (by simp only [unitRow, hd])

theorem exec_mhRows_failed {byteOut align : Bool} {u : Nat} {s : State} {e : ErrInfo}
    (h : AtUnit (.mhRows byteOut align) u s)
    (hd : decodeRow align s u s.engine.cursor = .error e) :
    exec (.mhRows byteOut align) s = .next (rowFailed u (mhRowBytes byteOut s) e s) :=
  exec_row_failed h (by simp only [unitRow, hd])

/-- Where a row begins (R159). -/
theorem rowStart_eq (align : Bool) (b : Nat) :
    (if align then alignUp b else b) = if align then 8 * ((b + 7) / 8) else b := by
  rw [alignUp_eq]

theorem runsBits_append_one (runs : List CodedRun) (r : CodedRun) :
    runsBits (runs ++ [r]) = runsBits runs ++ r.bits := by
  simp [runsBits]

/-- `DecodeRow` (R157) at the last of runs that do not fill the row before it. -/
theorem decodeRow_at_last {align : Bool} {s : State} {row b b' : Nat} {runs : List CodedRun}
    {r : CodedRun} (hc : configLegal s.cfg = true) (hb : (if align then alignUp b else b) = b')
    (hl : runsLegal s.cfg .white (runs ++ [r])) (hw : runsLength runs < s.regs.width.toNat)
    (hs : spellsMSB s b' (runsBits (runs ++ [r]))) :
    ∃ fuel, decodeRow align s row b = rowLoop s row (fuel + 1) (runPixels .white runs)
      (colourAfter .white runs) (b' + (runsBits runs).length) := by
  obtain ⟨hlruns, hlr, -⟩ := runsLegal_append.1 hl
  rw [runsBits_append_one] at hs
  have hlen := hs.1
  have hpos := CodedRun.bits_pos hc hlr
  rw [List.length_append] at hlen
  obtain ⟨fuel, hf, he⟩ := rowLoop_runs (row := row) hc runs (s.engine.stop - b') [] .white b'
    hlruns (by omega) (by simpa using hw) (spellsMSB_append.1 hs).1
  refine ⟨fuel - 1, ?_⟩
  rw [decodeRow]
  simp only [hb]
  rw [he, List.nil_append, Nat.sub_add_cancel (by omega)]

/-- The row assembler at a legal run (R157): it is too long, or its pixels are added. -/
theorem rowLoop_run {s : State} {row fuel b : Nat} {pix : List Bool} {colour : Colour}
    {r : CodedRun} (hc : configLegal s.cfg = true) (hw : pix.length < s.regs.width.toNat)
    (hr : r.legal s.cfg colour) (hs : spellsMSB s b r.bits) :
    rowLoop s row (fuel + 1) pix colour b =
      if pix.length + r.length > s.regs.width.toNat then
        .error ⟨.invalidStructure, (b + r.bits.length) / 8, row, pix.length, r.length,
          b + r.bits.length⟩
      else rowLoop s row fuel (pix ++ List.replicate r.length (pixelOf colour))
        (otherColour colour) (b + r.bits.length) := by
  rw [rowLoop, if_neg (by omega)]
  simp only [decodeRun_spelled hc hr hs]

theorem rowLoop_full {s : State} {row fuel b : Nat} {pix : List Bool} {colour : Colour}
    (h : s.regs.width.toNat ≤ pix.length) : rowLoop s row fuel pix colour b = .ok (pix, b) := by
  cases fuel <;> rw [rowLoop, if_pos h]

/-- `DecodeRow` (R157) over runs of which the last reaches `WIDTH`. -/
theorem decodeRow_spelled {align : Bool} {s : State} {row b b' : Nat} {runs : List CodedRun}
    {r : CodedRun} (hc : configLegal s.cfg = true) (hb : (if align then alignUp b else b) = b')
    (hl : runsLegal s.cfg .white (runs ++ [r])) (hw : runsLength runs < s.regs.width.toNat)
    (hfull : runsLength runs + r.length = s.regs.width.toNat)
    (hs : spellsMSB s b' (runsBits (runs ++ [r]))) :
    decodeRow align s row b =
      .ok (runPixels .white (runs ++ [r]), b' + (runsBits (runs ++ [r])).length) := by
  obtain ⟨fuel, he⟩ := decodeRow_at_last (row := row) hc hb hl hw hs
  have hlr := (runsLegal_append.1 hl).2.1
  rw [runsBits_append_one] at hs ⊢
  have hpix := runPixels_length .white runs
  rw [he, rowLoop_run hc (by omega) hlr (spellsMSB_append.1 hs).2, if_neg (by omega),
    rowLoop_full (by rw [List.length_append, List.length_replicate]; omega), runPixels_append,
    List.length_append, Nat.add_assoc]
  simp only [runPixels, List.append_nil]

/-- `DecodeRow` (R157) over runs of which the last passes `WIDTH`. -/
theorem decodeRow_overrun {align : Bool} {s : State} {row b b' : Nat} {runs : List CodedRun}
    {r : CodedRun} (hc : configLegal s.cfg = true) (hb : (if align then alignUp b else b) = b')
    (hl : runsLegal s.cfg .white (runs ++ [r])) (hw : runsLength runs < s.regs.width.toNat)
    (hover : s.regs.width.toNat < runsLength runs + r.length)
    (hs : spellsMSB s b' (runsBits (runs ++ [r]))) :
    decodeRow align s row b = .error ⟨.invalidStructure,
      (b' + (runsBits (runs ++ [r])).length) / 8, row, runsLength runs, r.length,
      b' + (runsBits (runs ++ [r])).length⟩ := by
  obtain ⟨fuel, he⟩ := decodeRow_at_last (row := row) hc hb hl hw hs
  have hlr := (runsLegal_append.1 hl).2.1
  rw [runsBits_append_one] at hs ⊢
  have hpix := runPixels_length .white runs
  rw [he, rowLoop_run hc (by omega) hlr (spellsMSB_append.1 hs).2, if_pos (by omega), hpix,
    List.length_append, Nat.add_assoc]

/-- Settles O35: the runs before the last do not reach `WIDTH`, the last one does. -/
theorem mhRowsStoreRuns : Obligations.MhRowsStoreRuns := by
  intro byteOut align u s runs hu hc hl hfull hw b hs
  obtain rfl | ⟨runs, r, rfl⟩ := runs.eq_nil_or_concat'
  · simp [runsLength] at hfull hw
    omega
  rw [List.dropLast_concat] at hw
  have hsum : runsLength (runs ++ [r]) = runsLength runs + r.length := by simp [runsLength]
  have hpix : (runPixels .white (runs ++ [r])).length = s.regs.width.toNat :=
    (runPixels_length _ _).trans hfull
  exact ⟨_, mhRowBytesOf_stores hpix, mhRowBytesOf_length hpix, exec_mhRows_done hu
    (decodeRow_spelled hc (rowStart_eq align _) hl hw (by omega) hs)⟩

/-- A row whose runs so far do not fill it, with a run that is refused behind its make-up codes. -/
theorem exec_mhRows_pending {byteOut align : Bool} {u b : Nat} {s : State}
    {runs : List CodedRun} {makeups : List MhEntry} {e : ErrInfo}
    (hu : AtUnit (.mhRows byteOut align) u s) (hc : configLegal s.cfg = true)
    (hb : (if align then alignUp s.engine.cursor else s.engine.cursor) = b)
    (hp : rowPending s runs makeups b)
    (h : decodeCode s (colourAfter .white runs) u (runsLength runs)
      (b + (rowBits runs makeups).length) = .error e) :
    exec (.mhRows byteOut align) s = .next (rowFailed u (mhRowBytes byteOut s) e s) := by
  obtain ⟨hl, hw, hm, hs⟩ := hp
  obtain ⟨hs1, hs2⟩ := spellsMSB_append.1 hs
  rw [rowBits, List.length_append, ← Nat.add_assoc] at h
  exact exec_mhRows_failed hu
    (decodeRow_refused hc hb hl hw hs1 (decodeRun_refused hc hm hs2 h))

/-- Settles O36: the three errors, each behind runs that do not fill the row. -/
theorem mhRowsRefuseOverrun : Obligations.MhRowsRefuseOverrun := by
  refine ⟨?_, ?_, ?_⟩
  · intro byteOut align u s runs r hu hc hl hw hover b b' hs
    exact exec_mhRows_failed hu
      (decodeRow_overrun hc (rowStart_eq align _) hl hw hover hs)
  · intro byteOut align u s runs makeups bits hu hc b b' hp hl hs hn
    exact exec_mhRows_pending hu hc (rowStart_eq align _) hp (decodeCode_unmatched hl hs hn)
  · intro byteOut align u s runs x y hu hc hch b b' hp hy hyk hs
    obtain ⟨hl, hw, ⟨hx, -⟩, -⟩ := hp
    obtain ⟨hxm, hxk⟩ := hx x (List.mem_singleton_self x)
    obtain ⟨hs1, hs2⟩ := spellsMSB_append.1 hs
    have hb' : b' = b + (runsBits runs).length + x.len + y.len := by
      simp [b', rowBits, Nat.add_assoc]
    rw [hb']
    refine exec_mhRows_failed hu (decodeRow_refused hc (rowStart_eq align _) hl hw hs1 ?_)
    exact decodeRun_chained hc hch hxm hxk hy hyk (by simpa using hs2)

/-! ### The end of the input (R139) -/

theorem mhCode_inputEnds {colour : Colour} {s : State} (hu : AtUnit (.mhCode colour) 0 s)
    (h : codeCutOff s colour s.engine.cursor) :
    exec (.mhCode colour) s = .next (raise (inputEnded s 0 0 s.engine.stop)
      { s with epoch := s.epoch + 1 }) :=
  exec_mhCode_refused hu (decodeCode_cutOff h)

theorem mhRun_inputEnds {colour : Colour} {s : State} {makeups : List MhEntry}
    (hu : AtUnit (.mhRun colour) 0 s) (hc : configLegal s.cfg = true)
    (hm : makeupsLegal s.cfg colour makeups)
    (hs : spellsMSB s s.engine.cursor (makeups.flatMap codeBits))
    (h : codeCutOff s colour (s.engine.cursor + (makeups.flatMap codeBits).length)) :
    exec (.mhRun colour) s = .next (raise (inputEnded s 0 0 s.engine.stop)
      { s with epoch := s.epoch + 1 }) :=
  exec_mhRun_refused hu (decodeRun_refused hc hm hs (decodeCode_cutOff h))

theorem mhRows_inputEnds {byteOut align : Bool} {u : Nat} {s : State} {runs : List CodedRun}
    {makeups : List MhEntry} (hu : AtUnit (.mhRows byteOut align) u s)
    (hc : configLegal s.cfg = true) :
    let b := if align then 8 * ((s.engine.cursor + 7) / 8) else s.engine.cursor
    rowPending s runs makeups b →
    codeCutOff s (colourAfter .white runs) (b + (rowBits runs makeups).length) →
    exec (.mhRows byteOut align) s = .next (rowFailed u (mhRowBytes byteOut s)
      (inputEnded s u (runsLength runs) s.engine.stop) s) :=
  fun hp h => exec_mhRows_pending hu hc (rowStart_eq align _) hp (decodeCode_cutOff h)

end Sys2Proof.Machine
end

section
/-! PROOF. LZW (42_lzw.md R184 to R189): the decoder on an encoder's stream with one more code behind
it, whatever that code is, and where the input ends. -/

namespace Sys2Proof.Machine

/-! ### The last code -/

theorem lzwLoop_eoi {s : State} {m len fuel b : Nat} {r : LzwRun}
    (hread : readBitsLSB s r.dict.width r.cursor = some (eoiCode m, b)) :
    lzwLoop s m len (fuel + 1) r =
      if r.out.length = len then .done { r with ncodes := r.ncodes + 1, cursor := b }
      else .raised { r with ncodes := r.ncodes + 1, cursor := b }
        (lzwError b r.out.length r.out.length) := by
  have hne : eoiCode m ≠ clearCode m := by simp [eoiCode, clearCode]
  rw [lzwLoop, hread]
  simp only [if_neg hne, if_true]

/-- A code that cannot come from the encoder (R184). -/
theorem lzwLoop_badCode {s : State} {m len fuel b code : Nat} {r : LzwRun}
    (hread : readBitsLSB s r.dict.width r.cursor = some (code, b)) (hcode : 2 ^ m + 1 < code)
    (hstep : dictStep r.dict code = none) :
    lzwLoop s m len (fuel + 1) r =
      .raised { r with ncodes := r.ncodes + 1, cursor := b } (lzwError b r.out.length code) := by
  have hnc : code ≠ clearCode m := by rw [clearCode]; omega
  have hne : code ≠ eoiCode m := by rw [eoiCode]; omega
  rw [lzwLoop, hread]
  simp only [if_neg hnc, if_neg hne, hstep]

/-- A string that does not fit (R184, R187). -/
theorem lzwLoop_overflow {s : State} {m len fuel b code : Nat} {r : LzwRun} {w : List Byte}
    {d : LzwDict} (hread : readBitsLSB s r.dict.width r.cursor = some (code, b))
    (hnc : code ≠ clearCode m) (hne : code ≠ eoiCode m)
    (hstep : dictStep r.dict code = some (w, d)) (hlen : len < r.out.length + w.length) :
    ∃ r', r'.out = r.out ++ w.take (len - r.out.length) ∧
      lzwLoop s m len (fuel + 1) r = .raised r' (lzwError b len code) := by
  refine ⟨{ r with
    ncodes := r.ncodes + 1, cursor := b, out := r.out ++ w.take (len - r.out.length) }, rfl, ?_⟩
  rw [lzwLoop, hread]
  simp only [if_neg hnc, if_neg hne, hstep]
  rw [if_pos hlen]

/-- A code above the next free one stands for no string (R184). -/
theorem dictStep_above {d : LzwDict} {code : Nat} (h : dictNext d < code) :
    dictStep d code = none := by
  rw [dictStep]
  cases d.prev with
  | none =>
    rw [dictNext] at h
    simp only
    rw [if_pos (by rw [clearCode]; omega)]
  | some p =>
    simp only
    rw [if_neg (by omega), if_neg (by omega)]

/-- Without a previous code only the literals stand for a string (R184). -/
theorem dictStep_noPrev {d : LzwDict} {code : Nat} (hp : d.prev = none)
    (h : 2 ^ d.minsize ≤ code) : dictStep d code = none := by
  rw [dictStep, hp]
  exact if_pos h

theorem lzwTokenPrev_start {tokens : List LzwToken}
    (h : tokens = [] ∨ tokens.getLast? = some .clear) : lzwTokenPrev none tokens = none := by
  obtain rfl | h := h
  · rfl
  · exact lzwTokenPrev_clear h none

/-! ### The whole stream -/

/-- Settles O37: behind the encoder's stream the decoder has its strings and its table, and reads
`EOI`. -/
theorem lzwDecodesEncoderStreams : Obligations.LzwDecodesEncoderStreams := by
  intro s tokens hu hl hlen m bits hs
  obtain ⟨h2, h8⟩ := minsize_of_atUnit hu
  obtain ⟨fuel, r, hd, hwid, hout, hcodes, hread, hdec⟩ :=
    lzwDecode_stream h2 h8 hl hlen.le (control_lt_width h2 h8) hs
  have hdone := hdec.trans (lzwLoop_eoi hread)
  rw [if_pos (by rw [hout, hlen])] at hdone
  refine exec_single_done hu rfl rfl ?_
  simp only [unitOf, lzwUnit, hdone, lzwStore, hout, hlen, regOf_toNat, hcodes, hwid,
    dictNext_of_matches hd]
  rfl

/-- A decode that raises completes the command with its error, and the bytes put out are kept. -/
theorem exec_lzw_raised {s : State} {r : LzwRun} {e : ErrInfo} {kept : List Byte}
    (hu : AtUnit .lzwDecode 0 s) (h : lzwDecode s = .raised r e) (hk : r.out = kept) :
    ∃ mem, exec .lzwDecode s = .next (raise e
        { s with
          mem := mem
          results := { s.results with outCount := BitVec.ofNat 32 kept.length }
          epoch := s.epoch + 1 }) ∧
      (∀ k, k < kept.length → storeGet mem (s.regs.dstAddr.toNat + k) = kept[k]?) ∧
      ∀ a, a < s.regs.dstAddr.toNat ∨ s.regs.dstAddr.toNat + s.regs.dstLen.toNat ≤ a →
        storeGet mem a = storeGet s.mem a := by
  subst hk
  obtain ⟨mem, hunit, hin, hout⟩ := lzwUnit_raised h
  exact ⟨mem, exec_raised hu hunit, hin, hout⟩

/-- The decode of a stream with an early `EOI` behind it (R187). -/
theorem lzwDecode_early {s : State} {tokens : List LzwToken} (hu : AtUnit .lzwDecode 0 s)
    (hl : lzwStreamLegal (minsizeOf s) [] none tokens)
    (hlen : (lzwStreamBytes tokens).length < s.regs.dstLen.toNat)
    (hs : spellsLSB s s.engine.cursor
      (lzwStreamBits (minsizeOf s) tokens (eoiCode (minsizeOf s)))) :
    ∃ r, r.out = lzwStreamBytes tokens ∧ lzwDecode s = .raised r (lzwError
      (s.engine.cursor + (lzwStreamBits (minsizeOf s) tokens (eoiCode (minsizeOf s))).length)
      (lzwStreamBytes tokens).length (lzwStreamBytes tokens).length) := by
  obtain ⟨h2, h8⟩ := minsize_of_atUnit hu
  obtain ⟨fuel, r, -, -, hout, -, hread, hdec⟩ :=
    lzwDecode_stream h2 h8 hl hlen.le (control_lt_width h2 h8) hs
  rw [lzwLoop_eoi hread, if_neg (by rw [hout]; omega), hout] at hdec
  exact ⟨_, rfl, hdec⟩

/-- The decode of a stream with a code behind it that no encoder writes there (R184). -/
theorem lzwDecode_badCode {s : State} {tokens : List LzwToken} {code : Nat}
    (hu : AtUnit .lzwDecode 0 s) (hl : lzwStreamLegal (minsizeOf s) [] none tokens)
    (hlen : (lzwStreamBytes tokens).length ≤ s.regs.dstLen.toNat)
    (hfit : code < 2 ^ lzwStreamWidth (minsizeOf s) tokens)
    (hbad : lzwStreamNext (minsizeOf s) tokens < code ∨
      ((tokens = [] ∨ tokens.getLast? = some .clear) ∧ 2 ^ minsizeOf s + 1 < code))
    (hs : spellsLSB s s.engine.cursor (lzwStreamBits (minsizeOf s) tokens code)) :
    ∃ r, r.out = lzwStreamBytes tokens ∧ lzwDecode s = .raised r (lzwError
      (s.engine.cursor + (lzwStreamBits (minsizeOf s) tokens code).length)
      (lzwStreamBytes tokens).length code) := by
  obtain ⟨h2, h8⟩ := minsize_of_atUnit hu
  obtain ⟨fuel, r, hd, -, hout, -, hread, hdec⟩ := lzwDecode_stream h2 h8 hl hlen hfit hs
  have hcode : 2 ^ minsizeOf s + 1 < code := by
    obtain h | ⟨-, h⟩ := hbad
    · rw [lzwStreamNext] at h
      omega
    · exact h
  have hstep : dictStep r.dict code = none := by
    obtain h | ⟨h, -⟩ := hbad
    · exact dictStep_above (by rwa [dictNext_of_matches hd])
    · exact dictStep_noPrev (hd.start (lzwTokenPrev_start h)).1 (by rw [hd.minsize]; omega)
  rw [lzwLoop_badCode hread hcode hstep, hout] at hdec
  exact ⟨_, rfl, hdec⟩

/-- The decode of a stream with a code behind it whose string does not fit (R184, R187). -/
theorem lzwDecode_overflow {s : State} {tokens : List LzwToken} {code : Nat} {w : List Byte}
    (hu : AtUnit .lzwDecode 0 s)
    (hl : lzwStreamLegal (minsizeOf s) [] none (tokens ++ [.string code w]))
    (hlen : (lzwStreamBytes tokens).length ≤ s.regs.dstLen.toNat)
    (hover : s.regs.dstLen.toNat < (lzwStreamBytes tokens).length + w.length)
    (hs : spellsLSB s s.engine.cursor (lzwStreamBits (minsizeOf s) tokens code)) :
    ∃ r, r.out = (lzwStreamBytes tokens ++ w).take s.regs.dstLen.toNat ∧
      lzwDecode s = .raised r (lzwError
        (s.engine.cursor + (lzwStreamBits (minsizeOf s) tokens code).length)
        ((lzwStreamBytes tokens ++ w).take s.regs.dstLen.toNat).length code) := by
  obtain ⟨h2, h8⟩ := minsize_of_atUnit hu
  obtain ⟨hltokens, hcode, -⟩ := (lzwStreamLegal_append tokens [] none).1 hl
  have hfit : code < 2 ^ lzwStreamWidth (minsizeOf s) tokens := by
    obtain ⟨-, r, -, hd, -⟩ := lzwDecode_tokens h2 h8 hltokens hlen (spellsLSB_append hs).1
    have hlt := (codeFor_lt hd hcode).1
    rwa [lzwTokenTable_length] at hlt
  obtain ⟨fuel, r, hd, -, hout, -, hread, hdec⟩ := lzwDecode_stream h2 h8 hltokens hlen hfit hs
  obtain ⟨-, hnc, hne⟩ := codeFor_lt hd hcode
  obtain ⟨d', hstep, -⟩ := dictStep_matches hd hcode
  obtain ⟨r', hr', hloop⟩ := lzwLoop_overflow (s := s) (len := s.regs.dstLen.toNat)
    (fuel := fuel) hread hnc hne hstep (by rw [hout]; exact hover)
  have hkept : ((lzwStreamBytes tokens ++ w).take s.regs.dstLen.toNat).length =
      s.regs.dstLen.toNat := by
    rw [List.length_take, List.length_append]
    omega
  refine ⟨r', ?_, by rw [hkept]; exact hdec.trans hloop⟩
  rw [hr', hout, List.take_append, List.take_of_length_le hlen]

/-- Settles O38: an early `EOI`, a code no encoder writes for either reason, a string too long. -/
theorem lzwRefusesBadStreams : Obligations.LzwRefusesBadStreams := by
  intro s tokens code value kept hu hl m len out bits b hcases hs
  obtain ⟨rfl, rfl, hlen, rfl⟩ | ⟨hnext, hfit, rfl, hlen, rfl⟩ |
    ⟨hstart, hcode, hfit, rfl, hlen, rfl⟩ | ⟨w, hlw, rfl, hlen, hover, rfl⟩ := hcases
  · obtain ⟨r, hr, hdec⟩ := lzwDecode_early hu hl hlen hs
    exact exec_lzw_raised hu hdec hr
  · obtain ⟨r, hr, hdec⟩ := lzwDecode_badCode hu hl hlen hfit (.inl hnext) hs
    exact exec_lzw_raised hu hdec hr
  · obtain ⟨r, hr, hdec⟩ := lzwDecode_badCode hu hl hlen hfit (.inr ⟨hstart, hcode⟩) hs
    exact exec_lzw_raised hu hdec hr
  · obtain ⟨r, hr, hdec⟩ := lzwDecode_overflow hu hlw hlen hover hs
    exact exec_lzw_raised hu hdec hr

/-- The end of the input (R139, R187). -/
theorem lzwDecode_inputEnds {s : State} {tokens : List LzwToken} (hu : AtUnit .lzwDecode 0 s) :
    let m := minsizeOf s
    let out := lzwStreamBytes tokens
    let b := s.engine.cursor + (lzwTokenBits m [] none tokens).length
    lzwStreamLegal m [] none tokens → out.length ≤ s.regs.dstLen.toNat →
    spellsLSB s s.engine.cursor (lzwTokenBits m [] none tokens) →
    s.engine.stop < b + lzwStreamWidth m tokens →
    ∃ mem, exec .lzwDecode s = .next (raise (inputEnded s 0 out.length b)
        { s with
          mem := mem
          results := { s.results with outCount := BitVec.ofNat 32 out.length }
          epoch := s.epoch + 1 }) ∧
      (∀ k, k < out.length → storeGet mem (s.regs.dstAddr.toNat + k) = out[k]?) ∧
      ∀ a, a < s.regs.dstAddr.toNat ∨ s.regs.dstAddr.toNat + s.regs.dstLen.toNat ≤ a →
        storeGet mem a = storeGet s.mem a := by
  intro m out b hl hlen hs he
  obtain ⟨h2, h8⟩ := minsize_of_atUnit hu
  obtain ⟨r, hr, hdec⟩ := lzwDecode_cutOff h2 h8 hl hlen hs he
  exact exec_lzw_raised hu hdec hr

end Sys2Proof.Machine
end

section
/-! PROOF. Run lengths (43_run_length.md R200 to R204): rows of packets and of Palm pairs that fill
their row, that do not fit it, and that the input ends in. -/

namespace Sys2Proof.Machine

/-! ### `PACKBITS` and `BYTERUN1` -/

/-- Settles O39: the control bytes read alike, so the rows do (R203). -/
theorem packbitsIsByterun1 : Obligations.PackbitsIsByterun1 := by
  refine ⟨fun n => ⟨packbitsPacket_eq n, rfl⟩, fun s => ?_⟩
  have hunit : unitOf .packbits = unitOf .byterun1 :=
    congrArg runLengthUnit (funext packbitsPacket_eq)
  rw [exec_eq_commandStep, exec_eq_commandStep, hunit]
  rfl

theorem unitRow_packets {i : Instr} (h : i = .packbits ∨ i = .byterun1) (u : Nat) (s : State) :
    unitRow i u s =
      some (s.regs.dstLen.toNat, runLengthRow s byterun1Packet u s.engine.cursor) := by
  obtain rfl | rfl := h
  · rw [unitRow, funext packbitsPacket_eq]
  · rfl

/-- Settles O40: the row that the packets spell is stored. -/
theorem packbitsRowStoresPackets : Obligations.PackbitsRowStoresPackets := by
  intro i u s ps hi hu hl hlen hne hs
  exact exec_row_done hu ((unitRow_packets hi u s).trans
    (by rw [packetRow_spelled hl hlen hne hs]))

/-- The control bytes below 0x80 and above it (R202). -/
theorem byterun1Packet_literal {n : Byte} (h : n.toNat < 128) :
    byterun1Packet n = .literal (n.toNat + 1) := by
  rw [byterun1Packet, if_pos h]

theorem byterun1Packet_repeated {n : Byte} (h : 128 < n.toNat) :
    byterun1Packet n = .repeated (257 - n.toNat) := by
  rw [byterun1Packet, if_neg (by omega), if_neg (by omega)]

/-- The end of the input behind whole packets: at a control byte, in a literal's bytes, at a
repeat's value byte (R139). -/
theorem packets_inputEnds {i : Instr} {u : Nat} {s : State} {ps : List RunPacket}
    {rest : List Byte} {fellShort : Nat} (hi : i = .packbits ∨ i = .byterun1) (hu : AtUnit i u s)
    (hl : ∀ p ∈ ps, p.legal) :
    let count := (ps.flatMap RunPacket.output).length
    let b := s.engine.cursor + 8 * (ps.flatMap RunPacket.encoding).length
    count < s.regs.dstLen.toNat →
    ((rest = [] ∧ s.engine.stop < b + 8 ∧ fellShort = b) ∨
      (∃ n : Byte, rest = [n] ∧ n.toNat < 128 ∧ count + n.toNat + 1 ≤ s.regs.dstLen.toNat ∧
        s.engine.stop < b + 8 + 8 * (n.toNat + 1) ∧
        fellShort = b + 8 + 8 * ((s.engine.stop - (b + 8)) / 8)) ∨
      ∃ n : Byte, rest = [n] ∧ 128 < n.toNat ∧ count + (257 - n.toNat) ≤ s.regs.dstLen.toNat ∧
        s.engine.stop < b + 16 ∧ fellShort = b + 8) →
    spellsBytes s s.engine.cursor (ps.flatMap RunPacket.encoding ++ rest) →
    exec i s = .next (rowFailed u s.regs.dstLen.toNat (inputEnded s u count fellShort) s) := by
  intro count b hlen hcases hs
  obtain ⟨hs1, hs2⟩ := spellsBytes_append hs
  obtain ⟨fuel, hfuel, hrow⟩ := packetRow_packets (row := u) hl hlen hs1
  refine exec_row_failed hu ((unitRow_packets hi u s).trans ?_)
  rw [hrow]
  obtain ⟨-, hstop, rfl⟩ | ⟨n, rfl, hn, hfit, hstop, rfl⟩ | ⟨n, rfl, hn, hfit, hstop, rfl⟩ := hcases
  · rw [packetLoop_noControl hlen hstop]
  · rw [packetLoop_cutLiteral hfuel hs2 (byterun1Packet_literal hn) (by omega) hlen
      (by rwa [← Nat.add_assoc]) hstop]
  · rw [packetLoop_cutRepeat hfuel hs2 (byterun1Packet_repeated hn) hlen hfit hstop]

/-! ### `PALM_RLE` -/

/-- Settles O41: the row that the pairs spell is stored. -/
theorem palmRowStoresPairs : Obligations.PalmRowStoresPairs := by
  intro u s pairs hu hz hlen hs
  exact exec_row_done (rb := s.regs.dstLen.toNat) hu
    (by rw [unitRow, palmRow_spelled hz hlen hs])

/-- Settles O42: the packet, or the pair, that does not fit. -/
theorem runLengthOverrunRefused : Obligations.RunLengthOverrunRefused := by
  constructor
  · intro i u s ps n hi hu hl count b hlen hn hs
    exact exec_row_failed hu ((unitRow_packets hi u s).trans
      (by rw [packetRow_overrun hl hlen hn hs]; rfl))
  · intro u s pairs n hu hz count b hlen hn hs
    exact exec_row_failed (rb := s.regs.dstLen.toNat) hu
      (by rw [unitRow, palmRow_refused hz hlen hn hs]; rfl)

/-- The end of the input behind whole pairs: at a count byte, at a value byte (R139). -/
theorem pairs_inputEnds {u : Nat} {s : State} {pairs : List (Byte × Byte)} {rest : List Byte}
    {fellShort : Nat} (hu : AtUnit .palmRle u s) (hz : ∀ p ∈ pairs, p.1 ≠ 0) :
    let count := (palmOutput pairs).length
    let b := s.engine.cursor + 16 * pairs.length
    count < s.regs.dstLen.toNat →
    ((rest = [] ∧ s.engine.stop < b + 8 ∧ fellShort = b) ∨
      ∃ n : Byte, rest = [n] ∧ n ≠ 0 ∧ count + n.toNat ≤ s.regs.dstLen.toNat ∧
        s.engine.stop < b + 16 ∧ fellShort = b + 8) →
    spellsBytes s s.engine.cursor (palmEncoding pairs ++ rest) →
    exec .palmRle s =
      .next (rowFailed u s.regs.dstLen.toNat (inputEnded s u count fellShort) s) := by
  intro count b hlen hcases hs
  obtain ⟨hs1, hs2⟩ := spellsBytes_append hs
  rw [palmEncoding_length, ← Nat.mul_assoc] at hs2
  obtain ⟨fuel, hfuel, hrow⟩ := palmRow_pairs (row := u) hz hlen.le hs1
  refine exec_row_failed (rb := s.regs.dstLen.toNat) hu ?_
  rw [unitRow, hrow]
  obtain ⟨-, hstop, rfl⟩ | ⟨n, rfl, hn, hfit, hstop, rfl⟩ := hcases
  · rw [packetLoop_noControl hlen hstop]
  · have hpacket : palmPacket n = .repeated n.toNat := by
      rw [palmPacket, if_neg fun h : n.toNat = 0 => hn (BitVec.eq_of_toNat_eq h)]
    rw [packetLoop_cutRepeat hfuel hs2 hpacket hlen hfit hstop]

end Sys2Proof.Machine
end

section
/-! PROOF. PNG filters (44_png_filter.md R222 to R238): the predictors, the rows of the fixed-filter
commands and of `PNG_UNFILTER`, and that a filtered row is reconstructed. -/

namespace Sys2Proof.Machine

/-! ### Rows -/

/-- The prior row in the words of R230. -/
theorem priorRow_eq (first : Bool) (s : State) (u : Nat) :
    priorRow first s u = if u = 0 then
        (if first then List.replicate s.regs.dstLen.toNat 0
          else readRange s s.regs.prvAddr.toNat s.regs.dstLen.toNat)
      else readRange s (s.regs.dstAddr.toNat + (u - 1) * s.regs.dstStride.toNat)
        s.regs.dstLen.toNat := rfl

/-- A row whose filtered bytes are there is reconstructed from them and the prior row (R231). -/
theorem filterRow_spelled {t : PngFilter} {first : Bool} {s : State} {u b : Nat} {xs : List Byte}
    (hlen : xs.length = s.regs.dstLen.toNat) (hs : spellsBytes s b xs) :
    filterRow t first s u b = .ok (reconRow t (bppOf s) xs (priorRow first s u) [] [],
      b + 8 * s.regs.dstLen.toNat) := by
  have hread := readBytes_spelled hs
  rw [hlen] at hread
  rw [filterRow, hread]

/-- Settles O43: the predictors by definition, the row by `filterRow`. -/
theorem pngFixedFilterRow : Obligations.PngFixedFilterRow := by
  refine ⟨fun a b c => ⟨rfl, rfl, rfl, rfl, rfl⟩, ?_⟩
  intro i t first u s xs hi hu hlen hs prior
  have hbpp := bpp_of_atUnit hu (.inl (by rw [hi]; exact Option.some_ne_none _))
  exact ⟨_, reconRow_reconstructs hbpp xs prior, exec_row_done hu
    ((unitRow_fixedFilter hi u s).trans (by rw [filterRow_spelled hlen hs, priorRow_eq]))⟩

/-- The type bytes of R229. -/
theorem filterOfType_listed {type : Byte} {t : PngFilter}
    (h : (type, t) ∈ [((0 : Byte), PngFilter.none), (1, .sub), (2, .up), (3, .average),
      (4, .paeth)]) : filterOfType type.toNat = some t := by
  simp only [List.mem_cons, Prod.mk.injEq, List.not_mem_nil, or_false] at h
  obtain ⟨rfl, rfl⟩ | ⟨rfl, rfl⟩ | ⟨rfl, rfl⟩ | ⟨rfl, rfl⟩ | ⟨rfl, rfl⟩ := h <;> rfl

theorem filterOfType_none {n : Nat} (h : 4 < n) : filterOfType n = none := by
  obtain ⟨k, rfl⟩ := Nat.exists_eq_add_of_lt h
  rw [show 4 + k + 1 = k + 5 by omega]
  rfl

/-- A type byte above 4 is refused at its address (R229). -/
theorem typedRow_badType {first : Bool} {s : State} {u b : Nat} {type : Byte} {xs : List Byte}
    (hs : spellsBytes s b (type :: xs)) (h : 4 < type.toNat) :
    typedRow first s u b = .error ⟨.invalidStructure, b / 8, u, 0, type.toNat, b + 8⟩ := by
  rw [typedRow, readByte_spelled hs]
  simp only [filterOfType_none h]

/-- Settles O44: behind a legal type byte the row is that of its filter. -/
theorem pngUnfilterRow : Obligations.PngUnfilterRow := by
  constructor
  · intro first t type u s xs hu ht hlen hs prior
    have hbpp := bpp_of_atUnit hu (.inr ⟨first, rfl⟩)
    obtain ⟨-, -, hxs⟩ := spellsBytes_cons.1 hs
    refine ⟨_, reconRow_reconstructs hbpp xs prior,
      exec_row_done (rb := s.regs.dstLen.toNat) hu ?_⟩
    rw [unitRow, typedRow_typed hs (filterOfType_listed ht), filterRow_spelled hlen hxs,
      priorRow_eq]
  · intro first type u s hu h hs
    exact exec_row_failed (rb := s.regs.dstLen.toNat) hu (by rw [unitRow, typedRow_badType hs h])

/-! ### The filters are invertible (R238) -/

@[simp] theorem pngFilt_length (t : PngFilter) (bpp : Nat) (raw prior : List Byte) :
    (pngFilt t bpp raw prior).length = raw.length := by
  simp [pngFilt]

/-- Taking a prediction away modulo 256 and adding it again. -/
theorem sub_add_mod_256 (x : Byte) (p : Nat) :
    ((BitVec.ofInt 8 ((x.toNat : Int) - p)).toNat + p) % 256 = x.toNat := by
  have hlt := x.isLt
  rw [BitVec.toNat_ofInt]
  omega

/-- The raw row is a reconstruction of its filtered row. -/
theorem raw_reconstructs_pngFilt (t : PngFilter) (bpp : Nat) (raw prior : List Byte) :
    reconstructs t bpp (pngFilt t bpp raw prior) prior raw := by
  refine ⟨(pngFilt_length t bpp raw prior).symm, fun i hi => ?_⟩
  rw [pngFilt_length] at hi
  have hbyte : (pngFilt t bpp raw prior)[i]?.getD 0 =
      BitVec.ofInt 8 ((((raw[i]?).getD 0).toNat : Int) -
        pngPred t (neighbour raw bpp i) ((prior[i]?).getD 0) (neighbour prior bpp i)) := by
    simp [pngFilt, hi]
  rw [hbyte, sub_add_mod_256]

theorem neighbour_congr {xs ys : List Byte} {bpp i : Nat} (hb : 1 ≤ bpp)
    (h : ∀ k, k < i → (xs[k]?).getD 0 = (ys[k]?).getD 0) :
    neighbour xs bpp i = neighbour ys bpp i := by
  rw [neighbour, neighbour]
  split
  · exact h _ (by omega)
  · rfl

/-- A filtered row has one reconstruction: each byte follows from those before it. -/
theorem reconstructs_unique {t : PngFilter} {bpp : Nat} {xs prior out out' : List Byte}
    (hb : 1 ≤ bpp) (h : reconstructs t bpp xs prior out) (h' : reconstructs t bpp xs prior out') :
    out = out' := by
  obtain ⟨hlen, hbyte⟩ := h
  obtain ⟨hlen', hbyte'⟩ := h'
  have hsame : ∀ i, i < xs.length → (out[i]?).getD 0 = (out'[i]?).getD 0 := by
    intro i
    induction i using Nat.strong_induction_on with
    | _ i ih =>
      intro hi
      apply BitVec.eq_of_toNat_eq
      rw [hbyte i hi, hbyte' i hi, neighbour_congr hb fun k hk => ih k hk (by omega)]
  refine List.ext_getElem (hlen.trans hlen'.symm) fun i hi hi' => ?_
  simpa [hi, hi'] using hsame i (by omega)

/-- Settles O45: the raw row and the reconstructed one both reconstruct the filtered row. -/
theorem pngFilterIsInvertible : Obligations.PngFilterIsInvertible := by
  intro t bpp raw prior hb _
  exact reconstructs_unique hb (reconRow_reconstructs hb _ _)
    (raw_reconstructs_pngFilt t bpp raw prior)

/-! ### The end of the input (R139) -/

theorem dstLen_pos_of_png {i : Instr} {u : Nat} {s : State} (hu : AtUnit i u s)
    (h : Reg.dstLen ∈ mustBeOne i) : 1 ≤ s.regs.dstLen.toNat :=
  toNat_pos_of_ne (required_of_atUnit hu h)

theorem fixedFilter_inputEnds {i : Instr} {t : PngFilter} {first : Bool} {u : Nat} {s : State}
    (hi : fixedFilter i = some (t, first)) (hu : AtUnit i u s)
    (he : s.engine.stop < s.engine.cursor + 8 * s.regs.dstLen.toNat) :
    exec i s = .next (rowFailed u s.regs.dstLen.toNat
      (inputEnded s u ((s.engine.stop - s.engine.cursor) / 8)
        (s.engine.cursor + 8 * ((s.engine.stop - s.engine.cursor) / 8))) s) := by
  have hmust : Reg.dstLen ∈ mustBeOne i := by
    cases i <;> simp only [fixedFilter, reduceCtorEq] at hi
    all_goals exact List.mem_cons_self
  exact exec_row_failed hu ((unitRow_fixedFilter hi u s).trans
    (by rw [filterRow_ended (dstLen_pos_of_png hu hmust) he]))

theorem unfilter_noType {first : Bool} {u : Nat} {s : State} (hu : AtUnit (.pngUnfilter first) u s)
    (he : s.engine.stop < s.engine.cursor + 8) :
    exec (.pngUnfilter first) s = .next (rowFailed u s.regs.dstLen.toNat
      (inputEnded s u (Config.typeByteCol s.epoch).toNat s.engine.cursor) s) :=
  exec_row_failed (rb := s.regs.dstLen.toNat) hu (by rw [unitRow, typedRow_noType he])

theorem unfilter_inputEnds {first : Bool} {type : Byte} {u : Nat} {s : State}
    (hu : AtUnit (.pngUnfilter first) u s) (ht : type.toNat ≤ 4)
    (hs : spellsBytes s s.engine.cursor [type]) :
    let b := s.engine.cursor + 8
    s.engine.stop < b + 8 * s.regs.dstLen.toNat →
    exec (.pngUnfilter first) s = .next (rowFailed u s.regs.dstLen.toNat
      (inputEnded s u ((s.engine.stop - b) / 8) (b + 8 * ((s.engine.stop - b) / 8))) s) := by
  intro b he
  obtain ⟨t, htype⟩ := filterOfType_some ht
  refine exec_row_failed (rb := s.regs.dstLen.toNat) hu ?_
  rw [unitRow, typedRow_typed hs htype,
    filterRow_ended (dstLen_pos_of_png hu List.mem_cons_self) he]

end Sys2Proof.Machine
end

section
/-! PROOF. Adam7 (45_adam7.md R240 to R247): the results of `ADAM7_GEOM`, that the passes cover an
image once, and what `ADAM7_SCATTER` stores. -/

namespace Sys2Proof.Machine

/-! ### Geometry -/

/-- The word of R240 as a number, byte by byte. -/
theorem geometryWord_eq {p : Nat} {g : PassGeometry} (h : adam7Pass p = some g) :
    geometryWord g = g.sc + 2 ^ 8 * g.sr + 2 ^ 16 * g.ci + 2 ^ 24 * g.ri ∧
      geometryWord g < 2 ^ 32 := by
  obtain ⟨-, rfl⟩ | ⟨-, rfl⟩ | ⟨-, rfl⟩ | ⟨-, rfl⟩ | ⟨-, rfl⟩ | ⟨-, rfl⟩ | ⟨-, rfl⟩ :=
    adam7Pass_cases h <;> decide

theorem pass_of_atUnit {i : Instr} {u : Nat} {s : State} (hu : AtUnit i u s)
    (hi : i = .adam7Geom ∨ i = .adam7Scatter) :
    (∃ g, adam7Pass (passOf s) = some g) ∧ bitsLegal (bitsOf s) = true := by
  obtain ⟨hpass, hbits⟩ := (params_legal hu.valid).2.2 hi
  obtain ⟨h1, h7⟩ := (passLegal_iff _).1 hpass
  exact ⟨adam7Pass_of_legal h1 h7, hbits⟩

theorem colsOf_lt (s : State) : colsOf s < 2 ^ 32 := (colsOf_le s).trans_lt s.regs.width.isLt

/-- Settles O46: the four results of the unit, with the pass's row of the table. -/
theorem adam7GeometryResults : Obligations.Adam7GeometryResults := by
  intro s hu
  obtain ⟨⟨⟨sr, sc, ri, ci⟩, hg⟩, -⟩ := pass_of_atUnit hu (.inl rfl)
  refine ⟨sr, sc, ri, ci, mem_passTable_iff.2 hg, ?_⟩
  intro w h cols rows
  have hcols : colsOf s = cols := colsOf_eq hg
  have hrows : rowsOf s = rows := rowsOf_eq hg
  obtain ⟨hword, hlt⟩ := geometryWord_eq hg
  refine exec_single_done hu rfl rfl ?_
  simp only [unitOf, geomUnit, hg]
  rw [regOf_of_lt hlt, hword, regOf_of_lt (colsOf_lt s), regOf_of_lt (rowsOf_lt s), hcols, hrows]
  rfl

/-! ### The passes cover an image once (R243) -/

/-- The pass of a pixel, from the low bits of its coordinates. -/
def passOfPixel (x y : Nat) : Nat :=
  if y % 2 = 1 then 7
  else if x % 2 = 1 then 6
  else if y % 4 = 2 then 5
  else if x % 4 = 2 then 4
  else if y % 8 = 4 then 3
  else if x % 8 = 4 then 2
  else 1

/-- Every pixel is a pixel of its pass (R242). -/
theorem passOfPixel_covers (x y : Nat) : ∃ g j k, adam7Pass (passOfPixel x y) = some g ∧
    x = g.sc + j * g.ci ∧ y = g.sr + k * g.ri := by
  rw [passOfPixel]
  split_ifs
  · exact ⟨⟨1, 0, 2, 1⟩, x, y / 2, rfl, by simp only; omega, by simp only; omega⟩
  · exact ⟨⟨0, 1, 2, 2⟩, x / 2, y / 2, rfl, by simp only; omega, by simp only; omega⟩
  · exact ⟨⟨2, 0, 4, 2⟩, x / 2, y / 4, rfl, by simp only; omega, by simp only; omega⟩
  · exact ⟨⟨0, 2, 4, 4⟩, x / 4, y / 4, rfl, by simp only; omega, by simp only; omega⟩
  · exact ⟨⟨4, 0, 8, 4⟩, x / 4, y / 8, rfl, by simp only; omega, by simp only; omega⟩
  · exact ⟨⟨0, 4, 8, 8⟩, x / 8, y / 8, rfl, by simp only; omega, by simp only; omega⟩
  · exact ⟨⟨0, 0, 8, 8⟩, x / 8, y / 8, rfl, by simp only; omega, by simp only; omega⟩

/-- A pixel of a pass has that pass. -/
theorem passOfPixel_of_mem {p j k : Nat} {g : PassGeometry} (h : adam7Pass p = some g) :
    passOfPixel (g.sc + j * g.ci) (g.sr + k * g.ri) = p := by
  rw [passOfPixel]
  obtain ⟨rfl, rfl⟩ | ⟨rfl, rfl⟩ | ⟨rfl, rfl⟩ | ⟨rfl, rfl⟩ | ⟨rfl, rfl⟩ | ⟨rfl, rfl⟩ |
    ⟨rfl, rfl⟩ := adam7Pass_cases h <;> simp only <;> split_ifs <;> omega

/-- A pixel of an image is one pixel of one pass. -/
theorem pixel_unique {p p' j j' k k' : Nat} {g g' : PassGeometry} (h : adam7Pass p = some g)
    (h' : adam7Pass p' = some g') (hx : g.sc + j * g.ci = g'.sc + j' * g'.ci)
    (hy : g.sr + k * g.ri = g'.sr + k' * g'.ri) : p = p' ∧ j = j' ∧ k = k' := by
  obtain rfl : p = p' := by
    rw [← passOfPixel_of_mem (j := j) (k := k) h, hx, hy, passOfPixel_of_mem h']
  cases h.symm.trans h'
  obtain ⟨hri, hci⟩ := adam7Pass_pos h
  exact ⟨rfl, Nat.eq_of_mul_eq_mul_right hci (by omega), Nat.eq_of_mul_eq_mul_right hri (by omega)⟩

/-- Settles O47: the pass of each pixel, and the counts of R241 as bounds of the coordinates. -/
theorem adam7CoversEveryPixelOnce : Obligations.Adam7CoversEveryPixelOnce := by
  constructor
  · intro w h x y hx hy
    obtain ⟨g, j, k, hg, rfl, rfl⟩ := passOfPixel_covers x y
    obtain ⟨hri, hci⟩ := adam7Pass_pos hg
    refine ⟨(_, j, k), ⟨g, hg, (lt_passCols_iff hci).2 hx, (lt_passRows_iff hri).2 hy, rfl, rfl⟩, ?_⟩
    rintro ⟨p, j', k'⟩ ⟨g', hg', -, -, hx', hy'⟩
    obtain ⟨hp, hj, hk⟩ := pixel_unique hg' hg hx'.symm hy'.symm
    exact Prod.ext hp (Prod.ext hj hk)
  · intro w h p j k g hg hj hk
    obtain ⟨hri, hci⟩ := adam7Pass_pos hg
    exact ⟨(lt_passCols_iff hci).1 hj, (lt_passRows_iff hri).1 hk⟩

/-! ### `ADAM7_SCATTER` -/

/-- Settles O48: the row is written pixel by pixel. -/
theorem scatterWholeBytePixels : Obligations.ScatterWholeBytePixels := by
  intro k g s row hu hg he h8 hlen hs size line
  have hbits : bitsOf s = 8 * size := by
    have := bitsLegal_cases (pass_of_atUnit hu (.inr rfl)).2
    omega
  have hfit : colsOf s * size ≤ row.length := by rw [hlen, pixelRowBytes_whole _ hbits]
  exact ⟨_, exec_scatter_row hu hg he hlen hs,
    scatterWhole_fold (adam7Pass_pos hg).2 h8 hbits row s.mem (colsOf s) hfit⟩

/-- Settles O49: the row is written pixel by pixel, each bit for bit. -/
theorem scatterSubBytePixels : Obligations.ScatterSubBytePixels := by
  intro k g s row hu hg he h8 hlen hs d line leftBit
  have hd : d = 1 ∨ d = 2 ∨ d = 4 := by
    have := bitsLegal_cases (pass_of_atUnit hu (.inr rfl)).2
    omega
  exact ⟨_, exec_scatter_row hu hg he hlen hs,
    scatterSub_fold (adam7Pass_pos hg).2 hd row s.mem (colsOf s)⟩

/-- Settles O50: the empty unit is the only one, and it counts the whole total. -/
theorem scatterEmptyPass : Obligations.ScatterEmptyPass := by
  intro s hu he
  have hemp : (shapeOf .adam7Scatter s).emptyUnit = true := he
  have hunits : 0 + 1 = (shapeOf .adam7Scatter s).units := by
    simp only [shapeOf, adam7ScatterShape, he, if_true]
  have hunit : unitOf .adam7Scatter 0 s = .done s := scatterUnit_empty he
  rw [exec_unit hu, unitStep_done hunit, afterUnit, if_pos hunits, bumpProgress,
    hemp, ← regOf_of_lt (rowsOf_lt s)]
  rfl

/-- The end of the input in a reduced row (R139): nothing is stored. -/
theorem scatter_inputEnds {u : Nat} {s : State} (hu : AtUnit .adam7Scatter u s)
    (he : passEmpty s = false)
    (hstop : s.engine.stop < s.engine.cursor + 8 * pixelRowBytes (colsOf s) (bitsOf s)) :
    exec .adam7Scatter s = .next (raise
      (inputEnded s u ((s.engine.stop - s.engine.cursor) / 8)
        (s.engine.cursor + 8 * ((s.engine.stop - s.engine.cursor) / 8)))
      { s with epoch := s.epoch + 1 }) := by
  obtain ⟨⟨g, hg⟩, hbits⟩ := pass_of_atUnit hu (.inr rfl)
  have hcols : 0 < colsOf s := by
    simp only [passEmpty, Bool.or_eq_false_iff, beq_eq_false_iff_ne] at he
    omega
  have hpos : 0 < bitsOf s := by
    have := bitsLegal_cases hbits
    omega
  have hbytes : 1 ≤ pixelRowBytes (colsOf s) (bitsOf s) :=
    Nat.succ_le_of_lt ((Nat.zero_le _).trans_lt (pixel_byte_inside hcols hpos))
  refine exec_raised hu ?_
  simp only [unitOf, scatterUnit, hg, he, readBytes_short hbytes hstop]
  rfl

end Sys2Proof.Machine
end

section
/-! PROOF. CMYK (46_cmyk.md R256, R257), the palette commands (47_palette.md R267 to R275), `NOP`, and
the end of the input for every command that reads one (40_command_cycle.md R139). -/

namespace Sys2Proof.Machine

/-! ### CMYK -/

theorem readBytes_of_length {s : State} {b n : Nat} {bytes : List Byte} (hlen : bytes.length = n)
    (hs : spellsBytes s b bytes) : readBytes s n b = .ok (bytes, b + 8 * n) := by
  subst hlen
  exact readBytes_spelled hs

/-- Settles O51: the converted row, sample by sample. -/
theorem cmykConvertsPixels : Obligations.CmykConvertsPixels := by
  intro planar s input hu hlen hs w ink
  refine ⟨cmykRow s.cfg.cmykFormula planar w input, cmykRow_length _ _ _ _, ?_, ?_⟩
  · intro i c hi hc
    rw [cmykRow_sample _ _ _ hi hc, Option.map_some]
    refine congrArg some ((cmykSample_toNat _ _ _).trans ?_)
    cases s.cfg.cmykFormula <;> rfl
  · refine exec_single_done hu rfl rfl ?_
    simp only [unitOf, cmykUnit, readBytes_of_length hlen hs, ← Nat.mul_assoc]
    rfl

/-! ### `NOP`, `PAL_ATTACH` and `PAL_RESET` -/

/-- A store with one value at every key of a list. -/
theorem storeGet_const {α : Type} (e : α) (keys : List Nat) (a : Nat) :
    storeGet (keys.map fun k => (k, e)) a = if a ∈ keys then some e else none := by
  induction keys with
  | nil => simp [storeGet]
  | cons k rest ih =>
    rw [List.map_cons, storeGet, ih]
    by_cases h : a = k <;> simp [h]

/-- Settles O52: the units, one by one. -/
theorem nopAttachAndReset : Obligations.NopAttachAndReset := by
  refine ⟨fun s hu => exec_single_done hu rfl rfl rfl, fun s hu => exec_single_done hu rfl rfl rfl,
    fun s hu => ⟨_, fun k => ?_, exec_single_done hu rfl rfl rfl⟩⟩
  rw [storeGet_const]
  simp only [List.mem_range]

/-! ### `PAL_WRITE` and `PAL_READ` -/

/-- Settles O53: the index check, then the clamped entry. -/
theorem paletteWriteClamps : Obligations.PaletteWriteClamps := by
  intro s hu index stored
  constructor
  · intro hi
    refine ⟨clampRgb s.palCfg.max (argRgb s), clampSample_toNat _ _, clampSample_toNat _ _,
      clampSample_toNat _ _, exec_single_done hu rfl rfl ?_⟩
    exact if_neg (Nat.not_le.2 hi)
  · intro hi
    exact exec_raised hu (if_pos hi)

/-- An entry as a number (R266). -/
theorem rgbWord_eq (e : Rgb) :
    rgbWord e = BitVec.ofNat 32 (2 ^ 16 * e.r.toNat + 2 ^ 8 * e.g.toNat + e.b.toNat) := by
  have hr := e.r.isLt
  have hg := e.g.isLt
  have hb := e.b.isLt
  have hrg : (e.r ++ e.g).toNat = 2 ^ 8 * e.r.toNat + e.g.toNat := by
    rw [BitVec.toNat_append, ← Nat.shiftLeft_add_eq_or_of_lt hg, Nat.shiftLeft_eq, Nat.mul_comm]
  have hrgb : (e.r ++ e.g ++ e.b).toNat = 2 ^ 8 * (e.r ++ e.g).toNat + e.b.toNat := by
    rw [BitVec.toNat_append, ← Nat.shiftLeft_add_eq_or_of_lt hb, Nat.shiftLeft_eq, Nat.mul_comm]
  rw [rgbWord, ← BitVec.ofNat_toNat, hrgb, hrg]
  congr 1
  omega

/-- Settles O54: the index check, then the entry as a number. -/
theorem paletteReadReturnsEntry : Obligations.PaletteReadReturnsEntry := by
  intro s hu index entry
  constructor
  · intro hi
    rw [← rgbWord_eq]
    exact exec_single_done hu rfl rfl (if_neg (Nat.not_le.2 hi))
  · intro hi
    exact exec_raised hu (if_pos hi)

/-! ### `PAL_LOOKUP` and `PAL_LOAD` -/

theorem exec_palLookup_refused {s : State} {e : ErrInfo} (hu : AtUnit .palLookup 0 s)
    (h : lookupLoop s s.regs.width.toNat 0 s.engine.cursor = .error e) :
    exec .palLookup s = .next (raise e
      { s with
        mem := freeRegion s.epoch s.mem s.regs.dstAddr.toNat (3 * s.regs.width.toNat)
        epoch := s.epoch + 1 }) := by
  have hunit : unitOf .palLookup 0 s = .raised { s with
      mem := freeRegion s.epoch s.mem s.regs.dstAddr.toNat (3 * s.regs.width.toNat) } e := by
    simp only [unitOf, palLookupUnit, h]
  exact exec_raised hu hunit

/-- Settles O55: the loop over legal index bytes, and at the first illegal one. -/
theorem paletteLookupExpandsIndices : Obligations.PaletteLookupExpandsIndices := by
  constructor
  · intro s indices hu hlen hk hs
    have hloop := lookupLoop_spelled indices 0 s.engine.cursor hk hs
    rw [hlen] at hloop
    refine exec_single_done hu rfl rfl ?_
    simp only [unitOf, palLookupUnit, hloop]
    rfl
  · intro s indices bad hu hlen hk hbad hs
    have hloop := lookupLoop_refused hbad indices _ 0 s.engine.cursor hlen hk hs
    rw [Nat.zero_add] at hloop
    exact exec_palLookup_refused hu hloop

/-- Settles O56: the triples as clamped entries, filled in from entry 0. -/
theorem paletteLoadFillsEntries : Obligations.PaletteLoadFillsEntries := by
  intro s bytes hu hlen hs stored
  have hentries := entriesOf_length s.palCfg.max (palSizeOf s) bytes
  refine ⟨palFill s.pal 0 (entriesOf s.palCfg.max (palSizeOf s) bytes), fun k hk => ?_,
    fun k hk => ?_, ?_⟩
  · refine ⟨clampRgb s.palCfg.max ⟨(bytes[3 * k]?).getD 0, (bytes[3 * k + 1]?).getD 0,
      (bytes[3 * k + 2]?).getD 0⟩, ?_, clampSample_toNat _ _, clampSample_toNat _ _,
      clampSample_toNat _ _⟩
    have hin := storeGet_palFill_inside (entriesOf s.palCfg.max (palSizeOf s) bytes) s.pal 0 k
      (by rwa [hentries])
    rw [Nat.zero_add] at hin
    exact hin.trans (entriesOf_getElem? _ _ _ _ hk)
  · exact storeGet_palFill_outside _ _ _ _ (.inr (by rwa [hentries, Nat.zero_add]))
  · have hread : readBytes s (3 * palSizeOf s) s.engine.cursor =
        .ok (bytes, s.engine.cursor + 8 * (3 * palSizeOf s)) := readBytes_of_length hlen hs
    refine exec_single_done hu rfl rfl ?_
    simp only [unitOf, palLoadUnit, hread, ← Nat.mul_assoc]
    rfl

/-! ### The end of the input (R139) -/

theorem cmyk_inputEnds {planar : Bool} {s : State} (hu : AtUnit (.cmykToRgb planar) 0 s)
    (he : s.engine.stop < s.engine.cursor + 32 * s.regs.width.toNat) :
    exec (.cmykToRgb planar) s = .next (raise
      (inputEnded s 0 ((s.engine.stop - s.engine.cursor) / 8)
        (s.engine.cursor + 8 * ((s.engine.stop - s.engine.cursor) / 8)))
      { s with epoch := s.epoch + 1 }) := by
  have hw : 1 ≤ s.regs.width.toNat :=
    toNat_pos_of_ne (required_of_atUnit hu (r := .width) List.mem_cons_self)
  have hread := readBytes_short (s := s) (n := 4 * s.regs.width.toNat) (b := s.engine.cursor)
    (by omega) (by omega)
  refine exec_raised hu ?_
  simp only [unitOf, cmykUnit, hread]
  rfl

theorem palLoad_inputEnds {s : State} (hu : AtUnit .palLoad 0 s) (h1 : 1 ≤ palSizeOf s)
    (he : s.engine.stop < s.engine.cursor + 24 * palSizeOf s) :
    exec .palLoad s = .next (raise (inputEnded s 0 0 s.engine.cursor)
      { s with epoch := s.epoch + 1 }) := by
  have hread := readBytes_short (s := s) (n := 3 * palSizeOf s) (b := s.engine.cursor)
    (by omega) (by omega)
  refine exec_raised hu ?_
  simp only [unitOf, palLoadUnit, hread]
  rfl

theorem palLookup_inputEnds {s : State} {indices : List Byte} (hu : AtUnit .palLookup 0 s)
    (hlen : indices.length < s.regs.width.toNat)
    (hk : ∀ k ∈ indices, k.toNat < s.palCfg.size.toNat)
    (hs : spellsBytes s s.engine.cursor indices) :
    let b := s.engine.cursor + 8 * indices.length
    s.engine.stop < b + 8 →
    exec .palLookup s = .next (raise (inputEnded s 0 indices.length b)
      { s with
        mem := freeRegion s.epoch s.mem s.regs.dstAddr.toNat (3 * s.regs.width.toNat)
        epoch := s.epoch + 1 }) := by
  intro b he
  have hloop := lookupLoop_ended indices _ 0 s.engine.cursor hlen hk hs he
  rw [Nat.zero_add] at hloop
  exact exec_palLookup_refused hu hloop

/-- Settles O27: one lemma per command that reads input. -/
theorem inputEndsEarly : Obligations.InputEndsEarly :=
  ⟨fun _ _ _ _ _ hi hu he => fixedFilter_inputEnds hi hu he,
    fun _ _ _ hu he => unfilter_noType hu he,
    fun _ _ _ _ hu ht hs => unfilter_inputEnds hu ht hs,
    fun _ _ hu he => cmyk_inputEnds hu he,
    fun _ _ hu hne he => scatter_inputEnds hu hne he,
    fun _ hu h1 he => palLoad_inputEnds hu h1 he,
    fun _ _ hu hlen hk hs => palLookup_inputEnds hu hlen hk hs,
    fun _ _ hu h => mhCode_inputEnds hu h,
    fun _ _ _ hu hc hm hs h => mhRun_inputEnds hu hc hm hs h,
    fun _ _ _ _ _ _ hu hc => mhRows_inputEnds hu hc,
    fun _ _ hu => lzwDecode_inputEnds hu,
    fun _ _ _ _ _ _ hi hu hl => packets_inputEnds hi hu hl,
    fun _ _ _ _ _ hu hz => pairs_inputEnds hu hz⟩

end Sys2Proof.Machine
end

section
/-! PROOF. The invariant (10_state.md R27, R28, R41 to R50, 60_exceptions.md R301, R308, 47_palette.md
R269): every state has an idle engine, one that validates or one in a unit, and every step leads from
one of the three to one of the three. -/

namespace Sys2Proof.Machine

/-! ### The parts of the invariant -/

/-- What does not depend on the engine's phase: BUF, the palette and `PAL_SIZE`. -/
structure Canonical (s : State) : Prop where
  buf : Memory.wf s.cfg.memSize s.mem
  pal : PaletteRam.wf s.pal
  palSize : 1 ≤ palSizeOf s ∧ palSizeOf s ≤ 256

theorem Inv.canonical {s : State} (h : Inv s) : Canonical s := ⟨h.buf, h.pal, h.palSize⟩

theorem Canonical.of_stores {s t : State} (h : Canonical s) (hcfg : t.cfg = s.cfg)
    (hbuf : Memory.wf s.cfg.memSize t.mem) (hpal : PaletteRam.wf t.pal)
    (hsize : t.palCfg.size = s.palCfg.size) : Canonical t :=
  ⟨by rwa [hcfg], hpal, by rw [palSizeOf, hsize]; exact h.palSize⟩

/-- `DONE` and `ERR` are never both 1, and the error code is one of R301 (R27). -/
structure FlagsSound (f : StatusFlags) : Prop where
  oneFlag : ¬(f.done = true ∧ f.err = true)
  code : (f.err = true → 2 ≤ f.errCode ∧ f.errCode ≤ 7) ∧ (f.err = false → f.errCode = 0)

theorem Inv.flags {s : State} (h : Inv s) : FlagsSound s.status := ⟨h.oneFlag, h.code⟩

theorem flagsSound_reset : FlagsSound StatusFlags.reset := by
  constructor <;> decide

theorem errorCode_range (kind : ErrorKind) : 2 ≤ errorCode kind ∧ errorCode kind ≤ 7 := by
  cases kind <;> decide

/-- Every completion of a running command leaves sound flags. -/
theorem flagsSound_completed (c : Completion) :
    FlagsSound (flagsCompleted StatusFlags.reset c) := by
  cases c with
  | success => constructor <;> decide
  | aborted => constructor <;> decide
  | error kind =>
    exact ⟨fun h => Bool.false_ne_true h.1, fun _ => errorCode_range kind,
      fun h => Bool.noConfusion h⟩

theorem flagsSound_written {f : StatusFlags} (h : FlagsSound f) (v : Word) :
    FlagsSound (flagsWritten f v) := by
  obtain ⟨hone, herr, hnone⟩ := h
  have hcode : (flagsWritten f v).errCode = if v.getLsbD 2 then 0 else f.errCode := rfl
  have hflag : (flagsWritten f v).err = (f.err && !v.getLsbD 2) := rfl
  refine ⟨fun h => hone ?_, ?_, ?_⟩
  · simp only [flagsWritten, Bool.and_eq_true] at h
    exact ⟨h.1.1, h.2.1⟩
  · rw [hcode, hflag]
    cases v.getLsbD 2 with
    | true => simp
    | false => simpa using herr
  · rw [hcode, hflag]
    cases v.getLsbD 2 with
    | true => simp
    | false => simpa using hnone

theorem flagsWritten_reset (v : Word) : flagsWritten StatusFlags.reset v = StatusFlags.reset := by
  simp [flagsWritten, StatusFlags.reset]

/-- Unit `u` of the latched command `i` is next, whether or not the host has written into a window
of it: what the invariant says of `RUN(u)`. -/
structure InRun (i : Instr) (u : Nat) (s : State) : Prop where
  phase : s.engine.phase = .run u
  decoded : decode s.engine.lcmd = .ok i
  latched : s.engine.lcmd = s.regs.cmd
  status : s.status = StatusFlags.reset
  dictionary : s.engine.lzw ≠ none → i = .lzwDecode
  hazard : ∀ a ∈ s.hazard, a < s.cfg.memSize
  due : u < (shapeOf i s).units
  done : s.results.progDone = BitVec.ofNat 32 u
  total : s.results.progTotal = regOf (shapeOf i s).total
  valid : s.hazard = [] → firstError (shapeOf i s) s = none

/-- The latched command is about to be validated: what the invariant says of `VALIDATE`. -/
structure InValidate (s : State) : Prop where
  phase : s.engine.phase = .validate
  latched : s.engine.lcmd = s.regs.cmd
  status : s.status = StatusFlags.reset
  dictionary : s.engine.lzw = none
  hazard : ∀ a ∈ s.hazard, a < s.cfg.memSize
  results : s.results = ResultRegs.reset

/-- The engine is idle: what the invariant says of `IDLE`. -/
structure InIdle (s : State) : Prop where
  phase : s.engine.phase = .idle
  abort : s.engine.abortReq = false
  dictionary : s.engine.lzw = none
  hazard : s.hazard = []
  flags : FlagsSound s.status
  progress : s.results.progDone ≤ s.results.progTotal

theorem Inv.inRun {s : State} {i : Instr} {u : Nat} (h : Inv s) (hp : s.engine.phase = .run u)
    (hd : decode s.engine.lcmd = .ok i) : InRun i u s := by
  have hb : s.busy = true := (busy_iff s).2 (by rw [hp]; simp)
  obtain ⟨i', hd', hdue, hdone, htotal, hvalid⟩ := h.running u hp
  cases hd.symm.trans hd'
  refine ⟨hp, hd, h.latched hb, h.busyFlags hb, fun hl => ?_, h.hazard.1, hdue, hdone, htotal,
    hvalid⟩
  cases hd.symm.trans (h.dictionary hl).1
  rfl

theorem Inv.inValidate {s : State} (h : Inv s) (hp : s.engine.phase = .validate) :
    InValidate s := by
  have hb : s.busy = true := (busy_iff s).2 (by rw [hp]; simp)
  refine ⟨hp, h.latched hb, h.busyFlags hb, ?_, h.hazard.1, h.validating hp⟩
  by_contra hl
  obtain ⟨-, u, hu⟩ := h.dictionary hl
  cases hp.symm.trans hu

theorem Inv.inIdle {s : State} (h : Inv s) (hp : s.engine.phase = .idle) : InIdle s := by
  have hb : ¬s.busy = true := by rw [busy_iff, hp]; simp
  refine ⟨hp, ?_, ?_, ?_, h.flags, h.progress⟩
  · exact Bool.eq_false_iff.2 fun ha => hb (h.abortBusy ha)
  · by_contra hl
    obtain ⟨-, u, hu⟩ := h.dictionary hl
    cases hp.symm.trans hu
  · by_contra hz
    exact hb (h.hazard.2 hz)

/-! ### Units and progress (R44, R123) -/

/-- The empty unit is the only one; every other command has its total as units. -/
theorem shape_units (i : Instr) (s : State) :
    ((shapeOf i s).emptyUnit = true → (shapeOf i s).units = 1) ∧
      ((shapeOf i s).emptyUnit = false → (shapeOf i s).units = (shapeOf i s).total) := by
  cases i
  case adam7Scatter =>
    exact ⟨fun he => if_pos he, fun he => if_neg (Bool.eq_false_iff.1 he)⟩
  all_goals exact ⟨fun he => Bool.noConfusion he, fun _ => rfl⟩

theorem ofNat_le_regOf {n total : Nat} (h : n ≤ total) (hlt : total < 2 ^ 32) :
    BitVec.ofNat 32 n ≤ regOf total := by
  rw [regOf_of_lt hlt, BitVec.le_def, BitVec.toNat_ofNat, BitVec.toNat_ofNat,
    Nat.mod_eq_of_lt hlt, Nat.mod_eq_of_lt (h.trans_lt hlt)]
  exact h

theorem InRun.progress {i : Instr} {u : Nat} {s : State} (h : InRun i u s) :
    s.results.progDone ≤ s.results.progTotal := by
  have hdue := h.due
  rw [h.done, h.total]
  refine ofNat_le_regOf ?_ (shape_total_lt i s)
  cases he : (shapeOf i s).emptyUnit with
  | true =>
    rw [(shape_units i s).1 he] at hdue
    omega
  | false =>
    rw [(shape_units i s).2 he] at hdue
    omega

/-- The progress after the unit is within the total, and counts the unit where another follows. -/
theorem InRun.bumped {i : Instr} {u : Nat} {s : State} (h : InRun i u s) {r : ResultRegs}
    (hr : r.progDone = s.results.progDone) :
    (bumpProgress (shapeOf i s) r).progDone ≤ s.results.progTotal ∧
      (u + 1 < (shapeOf i s).units →
        (bumpProgress (shapeOf i s) r).progDone = BitVec.ofNat 32 (u + 1)) := by
  have hdue := h.due
  rw [bumpProgress, h.total]
  cases he : (shapeOf i s).emptyUnit with
  | true =>
    rw [(shape_units i s).1 he]
    exact ⟨BitVec.le_refl _, fun hnext => by omega⟩
  | false =>
    rw [(shape_units i s).2 he] at hdue ⊢
    have hsucc : r.progDone + 1 = BitVec.ofNat 32 (u + 1) := by
      rw [hr, h.done, BitVec.ofNat_add]
      rfl
    simp only [Bool.false_eq_true, if_false, hsucc]
    exact ⟨ofNat_le_regOf (by omega) (shape_total_lt i s), fun _ => trivial⟩

/-! ### The invariant from its parts -/

theorem inv_of_idle {s : State} (hc : Canonical s) (h : InIdle s) : Inv s := by
  have hb : ¬s.busy = true := by rw [busy_iff, h.phase]; simp
  exact
    { buf := hc.buf
      pal := hc.pal
      palSize := hc.palSize
      oneFlag := h.flags.oneFlag
      busyFlags := fun h' => absurd h' hb
      code := h.flags.code
      abortBusy := fun h' => by cases h.abort.symm.trans h'
      latched := fun h' => absurd h' hb
      dictionary := fun h' => absurd h.dictionary h'
      hazard := ⟨fun a ha => by simp [h.hazard] at ha, fun h' => absurd h.hazard h'⟩
      validating := fun h' => by cases h.phase.symm.trans h'
      progress := h.progress
      running := fun u h' => by cases h.phase.symm.trans h' }

theorem inv_of_validate {s : State} (hc : Canonical s) (h : InValidate s) : Inv s := by
  have hb : s.busy = true := (busy_iff s).2 (by rw [h.phase]; simp)
  exact
    { buf := hc.buf
      pal := hc.pal
      palSize := hc.palSize
      oneFlag := by rw [h.status]; exact flagsSound_reset.oneFlag
      busyFlags := fun _ => h.status
      code := by rw [h.status]; exact flagsSound_reset.code
      abortBusy := fun _ => hb
      latched := fun _ => h.latched
      dictionary := fun h' => absurd h.dictionary h'
      hazard := ⟨h.hazard, fun _ => hb⟩
      validating := fun _ => h.results
      progress := by rw [h.results]; exact BitVec.le_refl _
      running := fun u h' => by cases h.phase.symm.trans h' }

theorem inv_of_run {i : Instr} {u : Nat} {s : State} (hc : Canonical s) (h : InRun i u s) :
    Inv s := by
  have hb : s.busy = true := (busy_iff s).2 (by rw [h.phase]; simp)
  exact
    { buf := hc.buf
      pal := hc.pal
      palSize := hc.palSize
      oneFlag := by rw [h.status]; exact flagsSound_reset.oneFlag
      busyFlags := fun _ => h.status
      code := by rw [h.status]; exact flagsSound_reset.code
      abortBusy := fun _ => hb
      latched := fun _ => h.latched
      dictionary := fun h' => ⟨by rw [h.decoded, h.dictionary h'], u, h.phase⟩
      hazard := ⟨h.hazard, fun _ => hb⟩
      validating := fun h' => by cases h.phase.symm.trans h'
      progress := h.progress
      running := fun u' h' => by
        cases h.phase.symm.trans h'
        exact ⟨i, h.decoded, h.due, h.done, h.total, h.valid⟩ }

/-- Settles O57: the reset state is idle, with nothing written. -/
theorem resetIsSound : Obligations.ResetIsSound :=
  inv_of_idle ⟨reset_memory_wf, reset_palette_wf, by decide⟩
    ⟨rfl, rfl, rfl, rfl, flagsSound_reset, BitVec.le_refl _⟩

/-! ### Steps of a command -/

/-- A step of a command keeps the canonical forms. -/
theorem exec_canonical {i : Instr} {s t : State} (hc : Canonical s)
    (hz : ∀ a ∈ s.hazard, a < s.cfg.memSize) (h : exec i s = .next t) : Canonical t := by
  obtain ⟨-, -, hcfg, -⟩ := exec_keeps h
  obtain ⟨-, rfl⟩ | ⟨-, rfl⟩ | ⟨u, hu, rfl⟩ | ⟨-, hp, rfl⟩ := exec_next_cases h
  · exact hc
  · obtain ⟨hmem, hpal, hpalCfg, -⟩ := validateStep_keeps (shapeOf i s) s
    exact hc.of_stores hcfg (by rw [hmem]; exact hc.buf) (by rw [hpal]; exact hc.pal)
      (by rw [hpalCfg])
  · obtain ⟨hmem, hpal, hpalCfg⟩ := unitStep_stores i u s
    obtain ⟨hpalWf, hsize⟩ := unit_palette_wf (i := i) (u := u) hc.palSize.2 hc.pal
    exact hc.of_stores hcfg (by rw [hmem]; exact unit_memory_wf hu hc.buf)
      (by rw [hpal]; exact hpalWf) (by rw [hpalCfg, hsize])
  · obtain ⟨hbufWf, hpalWf⟩ := hazardStep_wf (i := i) hp hz hc.palSize.2 hc.buf hc.pal
    exact hc.of_stores hcfg hbufWf hpalWf (by rw [(hazardStep_keeps _ hp).2.2.1])

/-- An error completion of a running command is idle. -/
theorem inIdle_raise {s : State} (e : ErrInfo) (hstatus : s.status = StatusFlags.reset)
    (hprog : s.results.progDone ≤ s.results.progTotal) : InIdle (raise e s) :=
  ⟨rfl, rfl, rfl, rfl, by
    rw [raise_status, hstatus]
    exact flagsSound_completed (.error e.kind), hprog⟩

theorem inIdle_finishSuccess {s : State} (hstatus : s.status = StatusFlags.reset)
    (hprog : s.results.progDone ≤ s.results.progTotal) : InIdle (finishSuccess s) :=
  ⟨rfl, rfl, rfl, rfl, by
    rw [finishSuccess_status, hstatus]
    exact flagsSound_completed .success, hprog⟩

theorem inIdle_finishAborted {s : State} (hstatus : s.status = StatusFlags.reset)
    (hprog : s.results.progDone ≤ s.results.progTotal) : InIdle (finishAborted s) :=
  ⟨rfl, rfl, rfl, rfl, by
    rw [finishAborted_status, hstatus]
    exact flagsSound_completed .aborted, hprog⟩

/-- A validation step leads to an idle engine or to unit 0 (R122). -/
theorem validateStep_phase {i : Instr} {s : State} (hd : decode s.engine.lcmd = .ok i)
    (hv : InValidate s) (hq : s.hazard = []) :
    InIdle (validateStep (shapeOf i s) s) ∨ InRun i 0 (validateStep (shapeOf i s) s) := by
  have hprep := prepare_eq (shapeOf i s) s
  have hzero : s.results.progDone = 0 := by rw [hv.results]; rfl
  have hdone : (prepare (shapeOf i s) s).results.progDone = BitVec.ofNat 32 0 := by
    rw [hprep]
    exact hzero
  obtain ⟨e, -, hs⟩ | ⟨-, -, hs⟩ | ⟨-, hab, hs⟩ := validateStep_cases (shapeOf i s) s
  · rw [hs]
    exact .inl (inIdle_raise e hv.status (by rw [hv.results]; exact BitVec.le_refl _))
  · rw [hs]
    refine .inl (inIdle_finishAborted (by rw [hprep]; exact hv.status) ?_)
    rw [hdone, hprep]
    exact ofNat_le_regOf (Nat.zero_le _) (shape_total_lt i s)
  · obtain hidle | ⟨hunit, hshape⟩ := validate_next (i := i) ⟨hv.phase, hq⟩
    · rw [hs] at hidle
      cases hidle
    · refine .inr ⟨hunit.phase, ?_, ?_, ?_, ?_, ?_, hunit.due, ?_, ?_, fun _ => hunit.valid⟩
      · rw [hs, hprep]
        exact hd
      · rw [hs, hprep]
        exact hv.latched
      · rw [hs, hprep]
        exact hv.status
      · rw [hs, hprep, shape_lzwSize]
        intro hne
        by_contra hi
        simp [hi] at hne
      · rw [hunit.quiet]
        exact fun a ha => absurd ha List.not_mem_nil
      · rw [hs]
        exact hdone
      · rw [hshape, hs, hprep]

/-- A unit step leads to an idle engine or to the next unit (R124). -/
theorem unitStep_phase {i : Instr} {u : Nat} {s : State} (hr : InRun i u s) (hu : AtUnit i u s) :
    InIdle (unitStep (shapeOf i s) (unitOf i) u s) ∨
      InRun i (u + 1) (unitStep (shapeOf i s) (unitOf i) u s) := by
  have hnext := unit_next hu
  cases ho : unitOf i u s with
  | raised s1 e =>
    rw [unitStep_raised ho, (unit_raised ho).1]
    exact .inl (inIdle_raise e hr.status hr.progress)
  | done s1 =>
    obtain ⟨hstatus, hregs, -, heng, hdone, htotal⟩ := unit_done_keeps ho
    obtain ⟨hle, hbump⟩ := hr.bumped hdone
    rw [← htotal] at hle
    rw [unitStep_done ho] at hnext ⊢
    obtain ⟨-, hs⟩ | ⟨-, -, hs⟩ | ⟨hnot, -, hs⟩ := afterUnit_cases (shapeOf i s) u
      { s1 with epoch := s1.epoch + 1, results := bumpProgress (shapeOf i s) s1.results }
    · rw [hs, writeBackIf_eq]
      exact .inl (inIdle_finishSuccess (hstatus.trans hr.status) hle)
    · rw [hs, writeBackIf_eq]
      exact .inl (inIdle_finishAborted (hstatus.trans hr.status) hle)
    · rw [hs] at hnext ⊢
      obtain hidle | ⟨hunit, hshape⟩ := hnext
      · cases hidle
      · have hdue := hu.due
        refine .inr ⟨hunit.phase, ?_, ?_, hstatus.trans hr.status, ?_, ?_, hunit.due,
          hbump (by omega), ?_, fun _ => hunit.valid⟩
        · rw [← hr.decoded, heng]
        · rw [hregs, ← hr.latched, heng]
        · rw [heng]
          exact hr.dictionary
        · rw [hunit.quiet]
          exact fun a ha => absurd ha List.not_mem_nil
        · rw [hshape, ← hr.total, ← htotal]
          rfl

/-- A completion drawn for a command whose window the host has written is idle (R44, R334). -/
theorem inIdle_hazardComplete {sh : Shape} {d : HazardDraw} {validating : Bool} {s : State}
    (hstatus : s.status = StatusFlags.reset) (hprog : s.results.progDone ≤ s.results.progTotal)
    (hval : validating = true → s.results.progDone ≤ regOf sh.total) :
    InIdle (hazardComplete sh d validating s) := by
  refine ⟨rfl, rfl, rfl, rfl, ?_, ?_⟩
  · simp only [hazardComplete, hstatus]
    exact flagsSound_completed d.completion
  · have htotal : s.results.progDone ≤
        if validating && d.totalSet then regOf sh.total else s.results.progTotal := by
      split
      · rename_i h
        exact hval (Bool.and_eq_true_iff.1 h).1
      · exact hprog
    simp only [hazardComplete]
    generalize (if validating && d.totalSet then regOf sh.total else s.results.progTotal) = total
      at htotal ⊢
    split
    · rename_i h
      exact h.2
    · exact htotal

/-- A hazard step of a unit leads to an idle engine or to the next unit (R334). -/
theorem hazardStep_run {i : Instr} {u : Nat} {s : State} (hr : InRun i u s)
    (hz : s.hazard ≠ []) :
    InIdle (hazardStep (shapeOf i s) s) ∨ InRun i (u + 1) (hazardStep (shapeOf i s) s) := by
  obtain ⟨u', hp, hnext, hs⟩ | ⟨hp, -⟩ | ⟨validating, hval, hs⟩ :=
    hazardStep_cases (shapeOf i s) s (by rw [hr.phase]; simp)
  · cases hr.phase.symm.trans hp
    have hshape : shapeOf i (hazardStep (shapeOf i s) s) = shapeOf i s := by
      rw [hs]
      exact shapeOf_congr rfl rfl
    have hdone := (hr.bumped (r := (hazardEffects (shapeOf i s) (Config.hazardDraw s.epoch)
      s).results) rfl).2 hnext
    refine .inr ⟨?_, ?_, ?_, ?_, ?_, ?_, ?_, ?_, ?_, ?_⟩
    · rw [hs]
    · rw [hs]
      exact hr.decoded
    · rw [hs]
      exact hr.latched
    · rw [hs]
      exact hr.status
    · rw [hs]
      exact hr.dictionary
    · rw [hs]
      exact hr.hazard
    · rw [hshape]
      exact hnext
    · rw [hs]
      exact hdone
    · rw [hshape, hs]
      exact hr.total
    · rw [hs]
      exact fun h => absurd h hz
  · cases hr.phase.symm.trans hp
  · rw [hs]
    refine .inl (inIdle_hazardComplete hr.status hr.progress fun h => ?_)
    cases hr.phase.symm.trans (hval h)

/-- A hazard step of a validation leads to an idle engine or to unit 0 (R334). -/
theorem hazardStep_validate {i : Instr} {s : State} (hd : decode s.engine.lcmd = .ok i)
    (hv : InValidate s) (hz : s.hazard ≠ []) :
    InIdle (hazardStep (shapeOf i s) s) ∨ InRun i 0 (hazardStep (shapeOf i s) s) := by
  have hzero : s.results.progDone = 0 := by rw [hv.results]; rfl
  obtain ⟨u, hp, -⟩ | ⟨-, hpos, hs⟩ | ⟨validating, -, hs⟩ :=
    hazardStep_cases (shapeOf i s) s (by rw [hv.phase]; simp)
  · cases hv.phase.symm.trans hp
  · rw [prepare_eq] at hs
    have hshape : shapeOf i (hazardStep (shapeOf i s) s) = shapeOf i s := by
      rw [hs]
      exact shapeOf_congr rfl rfl
    refine .inr ⟨?_, ?_, ?_, ?_, ?_, ?_, ?_, ?_, ?_, ?_⟩
    · rw [hs]
    · rw [hs]
      exact hd
    · rw [hs]
      exact hv.latched
    · rw [hs]
      exact hv.status
    · rw [hs, shape_lzwSize]
      intro hne
      by_contra hi
      simp [hi] at hne
    · rw [hs]
      exact hv.hazard
    · rw [hshape]
      exact hpos
    · rw [hs]
      exact hzero
    · rw [hshape, hs]
    · rw [hs]
      exact fun h => absurd h hz
  · rw [hs]
    have hle : s.results.progDone ≤ regOf (shapeOf i s).total := by
      rw [hzero]
      exact ofNat_le_regOf (Nat.zero_le _) (shape_total_lt i s)
    have hprog : s.results.progDone ≤ s.results.progTotal := by
      rw [hv.results]
      exact BitVec.le_refl _
    exact .inl (inIdle_hazardComplete hv.status hprog fun _ => hle)

/-- A step of the latched command keeps the invariant. -/
theorem exec_keeps_inv {i : Instr} {s t : State} (h : Inv s) (hd : decode s.engine.lcmd = .ok i)
    (hs : exec i s = .next t) : Inv t := by
  have hc := exec_canonical h.canonical h.hazard.1 hs
  have hend : ∀ {u : Nat}, InIdle t ∨ InRun i u t → Inv t :=
    fun hcases => hcases.elim (inv_of_idle hc) (inv_of_run hc)
  obtain ⟨-, rfl⟩ | ⟨hv, rfl⟩ | ⟨u, hu, rfl⟩ | ⟨hz, hp, rfl⟩ := exec_next_cases hs
  · exact h
  · exact hend (validateStep_phase hd (h.inValidate hv.phase) hv.quiet)
  · exact hend (unitStep_phase (h.inRun hu.phase hd) hu)
  · cases hphase : s.engine.phase with
    | idle => exact absurd hphase hp
    | validate => exact hend (hazardStep_validate hd (h.inValidate hphase) hz)
    | run u => exact hend (hazardStep_run (h.inRun hphase hd) hz)

/-! ### The engine's turn -/

/-- The engine's turn keeps the invariant, whatever is latched. -/
theorem engineTurn_keeps_inv {s t : State} (h : Inv s) (hs : engineTurn s = .next t) : Inv t := by
  cases hd : decode s.engine.lcmd with
  | ok i =>
    rw [engineTurn_of_decode_ok hd] at hs
    exact exec_keeps_inv h hd hs
  | error e =>
    rw [engineTurn] at hs
    split at hs
    · cases hs
      exact h
    · rename_i hp
      rw [hd] at hs
      cases hs
      have hb : s.busy = true := (busy_iff s).2 hp
      exact inv_of_idle (h.canonical.of_stores rfl h.buf h.pal rfl)
        (inIdle_raise _ (h.busyFlags hb) h.progress)

/-- The engine's turn is no fault: a unit whose turn it is has been validated (R122, R308). -/
theorem engineTurn_moves {s : State} (h : Inv s) : ∃ t, engineTurn s = .next t := by
  cases hd : decode s.engine.lcmd with
  | error e =>
    rw [engineTurn]
    split
    · exact ⟨_, rfl⟩
    · exact ⟨_, by rw [hd]⟩
  | ok i =>
    rw [engineTurn_of_decode_ok hd]
    cases hp : s.engine.phase with
    | idle => exact ⟨_, exec_idle i hp⟩
    | validate => exact ⟨_, by rw [exec_eq_commandStep, commandStep, hp]⟩
    | run u =>
      by_cases hz : s.hazard = []
      · have hr := h.inRun hp hd
        exact ⟨_, exec_unit ⟨hp, hz, hr.valid hz, hr.due⟩⟩
      · exact ⟨_, by rw [exec_eq_commandStep, commandStep, hp]; exact if_pos hz⟩

/-! ### Host accesses -/

/-- What a host access leaves that does not reset, start or write a command register: it may store
to BUF, clear flags, and request an abort. -/
structure HostChange (s t : State) : Prop where
  cfg : t.cfg = s.cfg
  regs : t.regs = s.regs
  palCfg : t.palCfg = s.palCfg
  pal : t.pal = s.pal
  results : t.results = s.results
  engine : t.engine = { s.engine with abortReq := t.engine.abortReq }
  abort : t.engine.abortReq = true → s.busy = true
  buf : Memory.wf s.cfg.memSize t.mem
  flags : FlagsSound t.status
  busyFlags : s.busy = true → t.status = StatusFlags.reset
  hazard : ∀ a ∈ t.hazard, a < s.cfg.memSize
  hazardBusy : t.hazard ≠ [] → s.busy = true
  hazardKept : t.hazard = [] → s.hazard = []

theorem HostChange.keeps_inv {s t : State} (h : Inv s) (c : HostChange s t) : Inv t := by
  have hc : Canonical t := h.canonical.of_stores c.cfg c.buf (by rw [c.pal]; exact h.pal)
    (by rw [c.palCfg])
  have hz : ∀ a ∈ t.hazard, a < t.cfg.memSize := by rw [c.cfg]; exact c.hazard
  have hphase : t.engine.phase = s.engine.phase := by rw [c.engine]
  have hlcmd : t.engine.lcmd = s.engine.lcmd := by rw [c.engine]
  have hlzw : t.engine.lzw = s.engine.lzw := by rw [c.engine]
  cases hp : s.engine.phase with
  | idle =>
    have hi := h.inIdle hp
    have hb : ¬s.busy = true := by rw [busy_iff, hp]; simp
    exact inv_of_idle hc ⟨hphase.trans hp, Bool.eq_false_iff.2 fun ha => hb (c.abort ha),
      hlzw.trans hi.dictionary, by_contra fun hne => hb (c.hazardBusy hne), c.flags,
      by rw [c.results]; exact hi.progress⟩
  | validate =>
    have hv := h.inValidate hp
    have hb : s.busy = true := (busy_iff s).2 (by rw [hp]; simp)
    exact inv_of_validate hc ⟨hphase.trans hp, by rw [hlcmd, c.regs]; exact hv.latched,
      c.busyFlags hb, hlzw.trans hv.dictionary, hz, c.results.trans hv.results⟩
  | run u =>
    obtain ⟨i, hd, -⟩ := h.running u hp
    have hr := h.inRun hp hd
    have hb : s.busy = true := (busy_iff s).2 (by rw [hp]; simp)
    have hshape : shapeOf i t = shapeOf i s := shapeOf_congr c.regs (by rw [c.palCfg])
    refine inv_of_run hc ⟨hphase.trans hp, by rw [hlcmd]; exact hd,
      by rw [hlcmd, c.regs]; exact hr.latched, c.busyFlags hb, by rw [hlzw]; exact hr.dictionary,
      hz, by rw [hshape]; exact hr.due, by rw [c.results]; exact hr.done,
      by rw [c.results, hshape]; exact hr.total, fun hq => ?_⟩
    rw [hshape, firstError_none_congr c.regs c.cfg (by rw [c.palCfg])]
    exact hr.valid (c.hazardKept hq)

/-- A change of what the world sees alone. -/
theorem Inv.hostChange_refl {s : State} (h : Inv s) : HostChange s s :=
  ⟨rfl, rfl, rfl, rfl, rfl, rfl, h.abortBusy, h.buf, h.flags, h.busyFlags, h.hazard.1, h.hazard.2,
    id⟩

theorem inv_world {s : State} (h : Inv s) (p : List HostEvent) (x : Option Response) (n : Nat) :
    Inv { s with pending := p, response := x, epoch := n } := by
  obtain ⟨⟩ := h.hostChange_refl
  refine HostChange.keeps_inv (s := s) h ?_
  constructor <;> assumption

theorem palSize_reset_legal :
    1 ≤ PaletteConfig.reset.size.toNat ∧ PaletteConfig.reset.size.toNat ≤ 256 := by decide

/-- A soft reset is idle. -/
theorem softReset_inv {s : State} (h : Inv s) : Inv (softReset s) :=
  inv_of_idle ⟨h.buf, h.pal, palSize_reset_legal⟩
    ⟨rfl, rfl, rfl, rfl, flagsSound_reset, BitVec.le_refl _⟩

/-- A hardware reset is idle. -/
theorem hardwareReset_inv (s : State) : Inv (hardwareReset s) :=
  inv_of_idle ⟨⟨List.Pairwise.nil, fun _ h => absurd h List.not_mem_nil⟩,
      ⟨List.Pairwise.nil, fun _ h => absurd h List.not_mem_nil⟩, palSize_reset_legal⟩
    ⟨rfl, rfl, rfl, rfl, flagsSound_reset, BitVec.le_refl _⟩

/-- A write to `CTRL` resets, starts a command, or changes `IRQ_EN` and the abort request. -/
theorem writeCtrl_inv {s : State} (h : Inv s) (v : Word) : Inv (writeCtrl v s) := by
  obtain ⟨-, hw⟩ | ⟨-, -, hb, hw⟩ | ⟨-, hb, hw⟩ | ⟨-, -, -, hw⟩ := writeCtrl_cases v s <;> rw [hw]
  · exact softReset_inv h
  · have hi := h.inIdle ((not_busy_iff s).1 hb)
    exact inv_of_validate (h.canonical.of_stores rfl h.buf h.pal rfl)
      ⟨rfl, rfl, rfl, hi.dictionary, fun a ha => absurd ha List.not_mem_nil, rfl⟩
  · exact HostChange.keeps_inv h ⟨rfl, rfl, rfl, rfl, rfl, rfl, fun _ => hb, h.buf, h.flags,
      h.busyFlags, h.hazard.1, h.hazard.2, id⟩
  · exact HostChange.keeps_inv h ⟨rfl, rfl, rfl, rfl, rfl, rfl, h.abortBusy, h.buf, h.flags,
      h.busyFlags, h.hazard.1, h.hazard.2, id⟩

theorem palCfgWritten_size {p : PaletteConfig} (h : 1 ≤ p.size.toNat ∧ p.size.toNat ≤ 256)
    (v : Word) : 1 ≤ (palCfgWritten p v).size.toNat ∧ (palCfgWritten p v).size.toNat ≤ 256 := by
  simp only [palCfgWritten]
  split
  · rename_i hv
    exact hv
  · exact h

/-- A write of a register of an idle block that keeps it idle. -/
theorem inv_idle_write {s t : State} (h : Inv s) (hb : s.busy = false) (hc : Canonical t)
    (hengine : t.engine = s.engine) (hhaz : t.hazard = s.hazard) (hstatus : t.status = s.status)
    (hresults : t.results = s.results) : Inv t := by
  have hi := h.inIdle ((not_busy_iff s).1 hb)
  exact inv_of_idle hc ⟨by rw [hengine]; exact hi.phase, by rw [hengine]; exact hi.abort,
    by rw [hengine]; exact hi.dictionary, hhaz.trans hi.hazard, by rw [hstatus]; exact hi.flags,
    by rw [hresults]; exact hi.progress⟩

/-- A register write keeps the invariant. -/
theorem writeReg_inv {s : State} (h : Inv s) (r : Reg) (v : Word) : Inv (writeReg r v s) := by
  by_cases hctrl : r = .ctrl
  · subst hctrl
    exact writeCtrl_inv h v
  by_cases hstatus : r = .status
  · subst hstatus
    refine HostChange.keeps_inv h ⟨rfl, rfl, rfl, rfl, rfl, rfl, h.abortBusy, h.buf,
      flagsSound_written h.flags v, fun hb => ?_, h.hazard.1, h.hazard.2, id⟩
    rw [writeReg, acknowledge_status, h.busyFlags hb, flagsWritten_reset]
  by_cases hpal : r = .palCfg
  · subst hpal
    rw [writeReg]
    split
    · exact h
    · rename_i hno
      have hb : s.busy = false := Bool.eq_false_iff.2 fun hb => hno (by rw [hb, Bool.true_or])
      exact inv_idle_write h hb ⟨h.buf, h.pal, palCfgWritten_size h.palSize v⟩ rfl rfl rfl rfl
  · rw [writeReg_operand hctrl hstatus hpal]
    split
    · exact h
    · rename_i hb
      exact inv_idle_write h (Bool.eq_false_iff.2 hb) ⟨h.buf, h.pal, h.palSize⟩ rfl rfl rfl rfl

/-- A host write to BUF keeps the invariant: what it writes in a window is noted (R334). -/
theorem hostWriteBuf_inv {s : State} (h : Inv s) {b : Nat} {bytes : List Byte}
    (hb : b + bytes.length ≤ s.cfg.memSize) : Inv (hostWriteBuf b bytes s) := by
  refine HostChange.keeps_inv h ⟨rfl, rfl, rfl, rfl, rfl, rfl, h.abortBusy,
    hostWriteBuf_wf hb h.buf, h.flags, h.busyFlags, fun a ha => ?_, fun hne => ?_, fun hq => ?_⟩
  · rw [hostWriteBuf_hazard, List.mem_append, List.mem_filter, List.mem_range'_1] at ha
    obtain ha | ⟨⟨-, ha⟩, -⟩ := ha
    · exact h.hazard.1 a ha
    · omega
  · by_contra hbusy
    have hnone : (List.range' b bytes.length).filter (inRunningWindow s) = [] := by
      rw [List.filter_eq_nil_iff]
      intro a _
      simp [inRunningWindow, hbusy]
    rw [hostWriteBuf_hazard, hnone, List.append_nil] at hne
    exact hbusy (h.hazard.2 hne)
  · rw [hostWriteBuf_hazard] at hq
    exact (List.append_eq_nil_iff.1 hq).1

/-- A host access keeps the invariant. -/
theorem hostAccess_inv {s : State} (h : Inv s) (a : Access) : Inv (hostAccess a s) := by
  obtain ⟨answer, ht | ht | ⟨r, v, -, -, ht⟩ | ⟨b, bytes, hb, ht⟩⟩ := hostAccess_cases a s <;>
    rw [ht]
  · exact inv_world h _ _ _
  · exact inv_world h _ _ _
  · exact inv_world (writeReg_inv h r v) _ _ _
  · exact inv_world (hostWriteBuf_inv h hb) _ _ _

/-! ### Every step -/

theorem inv_pending {s : State} (h : Inv s) (p : List HostEvent) : Inv { s with pending := p } :=
  inv_world h p _ _

/-- Settles O58: one lemma per event. -/
theorem everyStepKeepsSoundness : Obligations.EveryStepKeepsSoundness := by
  intro s t h hs
  rw [step, turn] at hs
  split at hs
  · exact engineTurn_keeps_inv h hs
  · exact engineTurn_keeps_inv (inv_pending h _) hs
  · cases hs
    exact hostAccess_inv (inv_pending h _) _
  · cases hs
    rw [hostPoll_eq]
    exact inv_world h _ _ _
  · cases hs
    exact hardwareReset_inv _

/-- Settles O59: the engine's turn is no fault, and every other event has a next state. -/
theorem soundBlockNeverStops : Obligations.SoundBlockNeverStops := by
  intro s h
  rw [Moves, step, turn]
  split
  · exact engineTurn_moves h
  · exact engineTurn_moves (inv_pending h _)
  · exact ⟨_, rfl⟩
  · exact ⟨_, rfl⟩
  · exact ⟨_, rfl⟩

/-! ### An attached palette (R269) -/

/-- The palette and its configuration are as they were. -/
def SamePalette (s t : State) : Prop := t.pal = s.pal ∧ t.palCfg = s.palCfg

/-- While the palette is locked no unit but that of `PAL_RESET` changes it: `PAL_WRITE` and
`PAL_LOAD` do not pass the validation, and `PAL_ATTACH` locks what is locked. -/
theorem unitStep_locked {i : Instr} {u : Nat} {s : State} (hl : s.palCfg.locked = true)
    (hu : AtUnit i u s) (hi : i ≠ .palReset) :
    SamePalette s (unitStep (shapeOf i s) (unitOf i) u s) := by
  have hcheck := (firstError_none hu.valid).2.2.2 hl
  have hwrite : i ≠ .palWrite := by rintro rfl; cases hcheck
  have hload : i ≠ .palLoad := by rintro rfl; cases hcheck
  obtain ⟨hpal, hcfg, -⟩ := unitStep_special i u s
  refine ⟨hpal hwrite hload hi, ?_⟩
  by_cases hattach : i = .palAttach
  · subst hattach
    rw [(unitStep_stores _ u s).2.2, unitOf, palAttachUnit]
    simp only [UnitOutcome.state, ← hl]
  · exact hcfg hattach hi

theorem exec_locked {i : Instr} {s t : State} (hl : s.palCfg.locked = true)
    (h : exec i s = .next t) :
    SamePalette s t ∨ (i = .palReset ∧ ∃ u, s.engine.phase = .run u) := by
  obtain ⟨-, rfl⟩ | ⟨-, rfl⟩ | ⟨u, hu, rfl⟩ | ⟨-, hp, rfl⟩ := exec_next_cases h
  · exact .inl ⟨rfl, rfl⟩
  · obtain ⟨-, hpal, hcfg, -⟩ := validateStep_keeps (shapeOf i s) s
    exact .inl ⟨hpal, hcfg⟩
  · by_cases hi : i = .palReset
    · exact .inr ⟨hi, u, hu.phase⟩
    · exact .inl (unitStep_locked hl hu hi)
  · obtain ⟨-, hpal, hcfg, -⟩ := hazardStep_keeps (shapeOf i s) hp
    rw [if_pos hl] at hpal
    exact .inl ⟨hpal, hcfg⟩

theorem engineTurn_locked {s t : State} (hl : s.palCfg.locked = true)
    (h : engineTurn s = .next t) :
    SamePalette s t ∨ (decode s.engine.lcmd = .ok .palReset ∧ ∃ u, s.engine.phase = .run u) := by
  cases hd : decode s.engine.lcmd with
  | ok i =>
    rw [engineTurn_of_decode_ok hd] at h
    obtain hsame | ⟨rfl, hu⟩ := exec_locked hl h
    · exact .inl hsame
    · exact .inr ⟨rfl, hu⟩
  | error e =>
    rw [engineTurn] at h
    split at h
    · cases h
      exact .inl ⟨rfl, rfl⟩
    · rw [hd] at h
      cases h
      exact .inl ⟨rfl, rfl⟩

/-- While the palette is locked only a soft reset of all register writes changes its
configuration, and none changes an entry. -/
theorem writeReg_locked {s : State} (hl : s.palCfg.locked = true) (r : Reg) (v : Word) :
    SamePalette s (writeReg r v s) ∨
      (r = .ctrl ∧ v.getLsbD 3 = true ∧ (writeReg r v s).pal = s.pal) := by
  by_cases hctrl : r = .ctrl
  · subst hctrl
    rw [writeReg]
    obtain ⟨h3, hw⟩ | ⟨-, -, -, hw⟩ | ⟨-, -, hw⟩ | ⟨-, -, -, hw⟩ := writeCtrl_cases v s <;> rw [hw]
    · exact .inr ⟨rfl, h3, rfl⟩
    · exact .inl ⟨rfl, rfl⟩
    · exact .inl ⟨rfl, rfl⟩
    · exact .inl ⟨rfl, rfl⟩
  refine .inl ?_
  by_cases hstatus : r = .status
  · subst hstatus
    exact ⟨rfl, rfl⟩
  by_cases hpal : r = .palCfg
  · subst hpal
    rw [writeReg, hl, Bool.or_true]
    exact ⟨rfl, rfl⟩
  · rw [writeReg_operand hctrl hstatus hpal]
    split <;> exact ⟨rfl, rfl⟩

/-- Settles O60: one lemma per event that can move the palette. -/
theorem attachedPaletteStaysUntilReset : Obligations.AttachedPaletteStaysUntilReset := by
  intro s t hl hs
  have hengine : engineNext s → SamePalette s t ∨ (engineNext s ∧
      decode s.engine.lcmd = .ok .palReset ∧ ∃ u, s.engine.phase = .run u) := fun hn => by
    rw [step_engineNext hn] at hs
    exact (engineTurn_locked (s := { s with pending := s.pending.tail }) hl hs).imp_right fun h => ⟨hn, h⟩
  rw [step, turn] at hs
  split at hs
  · exact (hengine (.inl ‹_›)).imp_right .inl
  · exact (hengine (.inr ⟨_, ‹_›⟩)).imp_right .inl
  · rename_i a rest hp
    cases hs
    obtain ⟨answer, ht | ht | ⟨r, v, hkind, hoff, ht⟩ | ⟨b, bytes, -, ht⟩⟩ :=
      hostAccess_cases a { s with pending := rest } <;> rw [ht]
    · exact .inl ⟨rfl, rfl⟩
    · exact .inl ⟨rfl, rfl⟩
    · obtain hsame | ⟨rfl, h3, hpal⟩ := writeReg_locked (s := { s with pending := rest }) hl r v
      · exact .inl hsame
      · exact .inr (.inr (.inl ⟨a, v, rest, hp, hkind, h3, hpal, hoff⟩))
    · exact .inl ⟨rfl, rfl⟩
  · cases hs
    rw [hostPoll_eq]
    exact .inl ⟨rfl, rfl⟩
  · exact .inr (.inr (.inr ⟨_, ‹_›⟩))

end Sys2Proof.Machine
end
